-- ==== Sys2Proof/Word.lean ====
section
/-! DEFINITION. The words of RBC (00_scope.md R12): bytes, `u32` and `u64`. -/

namespace Sys2Proof

/-- One byte of storage or of client memory. -/
abbrev Byte := BitVec 8

/-- `u32` of R12: cursors, counts, capacities, command words. -/
abbrev U32 := BitVec 32

/-- `u64` of R12: client addresses, AUX, the RES registers; an `i64` is the same 64 bits read with `toInt`. -/
abbrev U64 := BitVec 64

end Sys2Proof
end

