-- ==== Sys2Proof/Config.lean ====
section
/-! DEFINITION. What an implementation fixes: the nine ports, the constants of R9 and R10, the open
parameters of R11 as a record, and the one free value of the model. -/

namespace Sys2Proof

/-- The three independent units (R1, R17). -/
inductive UnitId where
  | b | f | t
  deriving DecidableEq, Repr

/-- The role of a port (R40). -/
inductive Role where
  | cfg | prod | cons
  deriving DecidableEq, Repr

/-- One of the nine ports, the agents of RBC (R40). -/
structure PortId where
  unit : UnitId
  role : Role
  deriving DecidableEq, Repr

/-- The nine ports, in the order the model's own round robin visits them (assumption log 3). -/
def allPorts : List PortId :=
  [⟨.b, .cfg⟩, ⟨.b, .prod⟩, ⟨.b, .cons⟩,
   ⟨.f, .cfg⟩, ⟨.f, .prod⟩, ⟨.f, .cons⟩,
   ⟨.t, .cfg⟩, ⟨.t, .prod⟩, ⟨.t, .cons⟩]

namespace Config

/-- `MIN_CAP` (R9). -/
def minCap : Nat := 2
/-- `MAX_CAP` (R9). -/
def maxCap : Nat := 2147483648
/-- `TB_TRIES` (R9): attempts of one bounds read. -/
def tbTries : Nat := 8
/-- `PTR_BYTES` (R10): bytes of one pointer-table entry. -/
def ptrBytes : Nat := 8
/-- `BLE_BYTES` (R10): bytes of one buffer-list entry. -/
def bleBytes : Nat := 24
/-- Bytes of one port's register block (R76). -/
def blockBytes : Nat := 64
/-- The largest sample time, `2^63 - 1` (R147). -/
def maxTime : Int := 9223372036854775807

/-- FREE VALUE (93_implementation_defined.md U1; assumption log 5): the byte at offset `i` of the storage
that the `gen`-th successful ALLOC.B hands out, before anything has written it (R26, R65). No body: nothing
can be proved of its value, and two allocations may differ. -/
opaque freshByte (gen i : Nat) : Byte

end Config

/-- An interval `[base, base + size)` of client addresses. -/
structure Range where
  base : Nat
  size : Nat
  deriving DecidableEq, Repr

/-- `PORT_BASE[u]` (R11): the register-block addresses of one unit's three ports. -/
structure PortBases where
  cfg : U64
  prod : U64
  cons : U64
  deriving DecidableEq, Repr

/-- The open parameters of R11, which a model takes as arguments. `backed` is the predicate `CM_OK` written as
the finite list of the address intervals on which it holds (assumption log 2). -/
structure Platform where
  storeB : Nat
  storeF : Nat
  storeT : Nat
  winBase : U64
  portB : PortBases
  portF : PortBases
  portT : PortBases
  backed : List Range
  deriving DecidableEq, Repr

/-- The example platform of 95_test_vectors.md: the platform of `State.reset` (assumption log 2). -/
def Platform.sample : Platform where
  storeB := 65536
  storeF := 65536
  storeT := 65536
  winBase := 0x100000
  portB := { cfg := 0x1000, prod := 0x1040, cons := 0x1080 }
  portF := { cfg := 0x1100, prod := 0x1140, cons := 0x1180 }
  portT := { cfg := 0x1200, prod := 0x1240, cons := 0x1280 }
  backed := [{ base := 0x2000, size := 0xE000 }]

end Sys2Proof
end

