-- ==== Sys2Proof/Syntax.lean ====
section
/-! DEFINITION. The 25 commands of RBC (30_encoding.md R104), one constructor per row of the opcode table. The
command word carries one operand only, the bit `AP` (`allowPartial`), for the five commands of R107; every other
operand stands in the issuing port's registers (R101, R102). -/

namespace Sys2Proof

/-- One command of R104. `ap` is the bit AP of the word (R100, R107). -/
inductive Instr where
  | allocB
  | deallocB
  | resetB
  | availrB
  | availwB
  | readB (ap : Bool)
  | peekB (ap : Bool)
  | writeB (ap : Bool)
  | advrB
  | advwB
  | rvecB
  | wvecB
  | allocF
  | deallocF
  | resetF
  | availrF
  | availwF
  | readF (ap : Bool)
  | writeF (ap : Bool)
  | allocT
  | deallocT
  | resetT
  | readT
  | writeT
  | gettbT
  deriving DecidableEq, Repr

end Sys2Proof
end

