-- ==== Sys2Proof/Decode.lean ====
section
/-! DEFINITION. The decoder, total on every word and rejecting by name (30_encoding.md R100, R101, R108 check 1,
R110), the encoder written from R104's own `match` column, and the unit and port columns of R104. -/

namespace Sys2Proof

/-! ### The fields of a command word (R100, R101) -/

/-- `opcode = w[7:0]`. -/
def opcodeField (w : U32) : BitVec 8 := w.extractLsb' 0 8
/-- `unit = w[9:8]`. -/
def unitField (w : U32) : BitVec 2 := w.extractLsb' 8 2
/-- `ap = w[10]`. -/
def apField (w : U32) : Bool := w.getLsbD 10
/-- `zero = w[31:11]`. -/
def zeroField (w : U32) : BitVec 21 := w.extractLsb' 11 21

/-- Why a word is no command (R110). -/
inductive DecodeError where
  /-- a bit of `[31:11]` is set -/
  | zeroFieldSet
  /-- `UNIT = 3` -/
  | unitReserved
  /-- the pair of OPCODE and UNIT is no row of R104 -/
  | noSuchCommand
  /-- `AP = 1` on a command without AP -/
  | apNotAllowed
  /-- not the four bytes of one 32-bit word (R111) -/
  | notOneWord
  deriving DecidableEq, Repr

/-- A command without AP: the bit must be 0. -/
def withoutAp (ap : Bool) (i : Instr) : Except DecodeError Instr :=
  if ap then .error .apNotAllowed else .ok i

/-- The rows of R104 with UNIT = 0. -/
def decodeB (op : Nat) (ap : Bool) : Except DecodeError Instr :=
  match op with
  | 0x01 => withoutAp ap .allocB
  | 0x02 => withoutAp ap .deallocB
  | 0x03 => withoutAp ap .resetB
  | 0x04 => withoutAp ap .availrB
  | 0x05 => withoutAp ap .availwB
  | 0x06 => .ok (.readB ap)
  | 0x07 => .ok (.peekB ap)
  | 0x08 => .ok (.writeB ap)
  | 0x09 => withoutAp ap .advrB
  | 0x0A => withoutAp ap .advwB
  | 0x0B => withoutAp ap .rvecB
  | 0x0C => withoutAp ap .wvecB
  | _ => .error .noSuchCommand

/-- The rows of R104 with UNIT = 1. -/
def decodeF (op : Nat) (ap : Bool) : Except DecodeError Instr :=
  match op with
  | 0x01 => withoutAp ap .allocF
  | 0x02 => withoutAp ap .deallocF
  | 0x03 => withoutAp ap .resetF
  | 0x04 => withoutAp ap .availrF
  | 0x05 => withoutAp ap .availwF
  | 0x06 => .ok (.readF ap)
  | 0x08 => .ok (.writeF ap)
  | _ => .error .noSuchCommand

/-- The rows of R104 with UNIT = 2. -/
def decodeT (op : Nat) (ap : Bool) : Except DecodeError Instr :=
  match op with
  | 0x01 => withoutAp ap .allocT
  | 0x02 => withoutAp ap .deallocT
  | 0x03 => withoutAp ap .resetT
  | 0x06 => withoutAp ap .readT
  | 0x08 => withoutAp ap .writeT
  | 0x0D => withoutAp ap .gettbT
  | _ => .error .noSuchCommand

/-- The decoder: every word is a command of R104 or is rejected by name (R108 check 1, R110). That the word's
unit is the port's own is checked where the port is known, at issue. -/
def decode (w : U32) : Except DecodeError Instr :=
  if zeroField w = 0 then
    match (unitField w).toNat with
    | 0 => decodeB (opcodeField w).toNat (apField w)
    | 1 => decodeF (opcodeField w).toNat (apField w)
    | 2 => decodeT (opcodeField w).toNat (apField w)
    | _ => .error .unitReserved
  else .error .zeroFieldSet

/-- The decoder on bytes: the four little-endian bytes of one word (R73, R111). -/
def decodeBytes : List Byte → Except DecodeError Instr
  | [b0, b1, b2, b3] => decode (b3 ++ b2 ++ b1 ++ b0)
  | _ => .error .notOneWord

/-! ### The encoder (R104) -/

/-- The bit AP in its place: `match | 0x400`. -/
def apBit (ap : Bool) : U32 := if ap then 0x400 else 0

/-- The command word of a command: R104's column `match`, and AP (R107). -/
def encode : Instr → U32
  | .allocB => 0x00000001
  | .deallocB => 0x00000002
  | .resetB => 0x00000003
  | .availrB => 0x00000004
  | .availwB => 0x00000005
  | .readB ap => 0x00000006 ||| apBit ap
  | .peekB ap => 0x00000007 ||| apBit ap
  | .writeB ap => 0x00000008 ||| apBit ap
  | .advrB => 0x00000009
  | .advwB => 0x0000000A
  | .rvecB => 0x0000000B
  | .wvecB => 0x0000000C
  | .allocF => 0x00000101
  | .deallocF => 0x00000102
  | .resetF => 0x00000103
  | .availrF => 0x00000104
  | .availwF => 0x00000105
  | .readF ap => 0x00000106 ||| apBit ap
  | .writeF ap => 0x00000108 ||| apBit ap
  | .allocT => 0x00000201
  | .deallocT => 0x00000202
  | .resetT => 0x00000203
  | .readT => 0x00000206
  | .writeT => 0x00000208
  | .gettbT => 0x0000020D

/-- The four bytes of a word in the order the registers hold them, least significant first (R41, R73). -/
def wordBytes (w : U32) : List Byte :=
  [w.extractLsb' 0 8, w.extractLsb' 8 8, w.extractLsb' 16 8, w.extractLsb' 24 8]

/-- The instruction the decoder reads from the word whose bits are `w`, numbered as the opcode table numbers them;
every bit above `nbits` is 0. -/
def decodeTableWord (nbits w : Nat) : Option Instr :=
  if nbits ≤ 32 then
    match decodeBytes (wordBytes (BitVec.ofNat 32 (w % 2 ^ nbits))) with
    | .ok i => some i
    | .error _ => none
  else none

/-! ### R104's columns UNIT and port -/

/-- The unit a command belongs to (R104). -/
def unitOf : Instr → UnitId
  | .allocB | .deallocB | .resetB | .availrB | .availwB | .readB _ | .peekB _ | .writeB _
  | .advrB | .advwB | .rvecB | .wvecB => .b
  | .allocF | .deallocF | .resetF | .availrF | .availwF | .readF _ | .writeF _ => .f
  | .allocT | .deallocT | .resetT | .readT | .writeT | .gettbT => .t

/-- The roles of the ports that accept a command (R104, R106, R305). -/
def rolesOf : Instr → List Role
  | .allocB | .deallocB | .resetB | .allocF | .deallocF | .resetF | .allocT | .deallocT | .resetT => [.cfg]
  | .availrB | .availwB | .availrF | .availwF | .gettbT => [.prod, .cons]
  | .readB _ | .peekB _ | .advrB | .rvecB | .readF _ | .readT => [.cons]
  | .writeB _ | .advwB | .wvecB | .writeF _ | .writeT => [.prod]

end Sys2Proof
end

