-- ==== Sys2Proof/Machine/State.lean ====
section
/-! DEFINITION. The state of RBC (10_state.md, 20_memory.md) as plain data, the reasons a step can stop, and reset. -/

namespace Sys2Proof.Machine

/-- A memory: (address, byte) pairs with addresses strictly rising (`memWf`, Machine/Ops.lean). -/
abbrev Memory := List Host.Cell

/-! ### What a busy port holds (10_state.md R44, R47, R50) -/

/-- The operands latched at issue (R44). -/
structure Latch where
  count : U32
  addr : U64
  aux : U64
  deriving DecidableEq, Repr

/-- The fields of one buffer-list entry FetchList has read (R70, R204). -/
structure Entry where
  ptr : U64
  capb : U64
  deriving DecidableEq, Repr

/-- Where a `Publish` stands (R243): which of its four steps is next, with the local `nxt`. -/
inductive PubStage where
  | upd
  | start (nxt : U32)
  | stop (nxt : U32)
  | count (nxt : U32)
  deriving DecidableEq, Repr

/-- Where an attempt of `ReadBounds` stands (R245): which of its four steps is next, with the locals `c`, `s`, `e`. -/
inductive ReadStage where
  | count
  | start (c : U32)
  | stop (c : U32) (s : U64)
  | upd (c : U32) (s e : U64)
  deriving DecidableEq, Repr

/-- The clamp of a READ.T (R260): `lead` frames of silence, then `ov` frames from ring position `pos`, then silence. -/
structure Clip where
  pos : U32
  lead : Nat
  ov : Nat
  deriving DecidableEq, Repr

/-- The step a busy port takes next, with the locals it still needs (R47, R50). `p` is the ring position and `k` the
number of units of the transfer, `es` the entries fetched so far, `c` a channel and `i` a byte index in it. -/
inductive Pos where
  /-- the command's first atomic block -/
  | start
  /-- unit B: byte `i` of the copy, or the publishing step when `i = k` (R165 to R167) -/
  | xfer (p k : U32) (i : Nat)
  /-- FetchList (R204): the pointer of entry `es.length`, or its byteCapacity when `ptr` has been read -/
  | fetch (p k : U32) (es : List Entry) (ptr : Option U64)
  /-- the ListFits block (R205) -/
  | fits (p k : U32) (es : List Entry)
  /-- unit F: byte `i` of channel `c` of Gather or Scatter; for READ.F the report when the channel's bytes are done -/
  | move (p k : U32) (es : List Entry) (c i : Nat)
  /-- unit F: the publishing step (R215, R216) -/
  | publish (p k : U32)
  /-- WRITE.T: WriterBounds (R241) -/
  | bounds (es : List Entry)
  /-- WRITE.T: a Publish of the adjusted bounds `(cs, ce)`, or, when `last`, of `(cs, endT)` (R250) -/
  | pub (es : List Entry) (cs ce : Int) (last : Bool) (st : PubStage)
  /-- WRITE.T: ZeroRing of the gap `[ce, t)` (R255) -/
  | gap (es : List Entry) (cs ce : Int) (c i : Nat)
  /-- WRITE.T: Scatter of the new frames (R256) -/
  | fill (es : List Entry) (cs : Int) (c i : Nat)
  /-- GETTB.T, READ.T: ReadBounds after `tries` failed attempts (R245) -/
  | read (es : List Entry) (tries : Nat) (st : ReadStage)
  /-- GETTB.T's last block, and READ.T's rejection when the bounds read has failed -/
  | got (r : Option (U64 × U64))
  /-- READ.T: byte `i` of channel `c` of the output, or the report when the channel's bytes are done -/
  | out (es : List Entry) (w : Clip) (c i : Nat)
  /-- a completing step of its own (R250, R260) -/
  | fin
  deriving DecidableEq, Repr

/-- The position of a port (R50): idle, or busy with the latched operands and the next step. STATUS.BUSY is read from
it (R45). -/
inductive Activity where
  | idle
  | busy (ops : Latch) (pos : Pos)
  deriving DecidableEq, Repr

/-- One port's registers (R41), STATUS held as its CODE field `[7:0]`; its BUSY bit is `act` and its other bits are
always 0 (R45). -/
structure Port where
  cmd : U32
  code : BitVec 8
  ret : U32
  count : U32
  addr : U64
  aux : U64
  res0 : U64
  res1 : U64
  res2 : U64
  res3 : U64
  act : Activity
  deriving DecidableEq, Repr

/-- The three ports of one unit (R40). -/
structure UnitPorts where
  cfg : Port
  prod : Port
  cons : Port
  deriving DecidableEq, Repr

/-- The nine ports (R40). -/
structure Ports where
  b : UnitPorts
  f : UnitPorts
  t : UnitPorts
  deriving DecidableEq, Repr

/-! ### The three units -/

/-- Unit B (R22 to R26). `st` lists the storage bytes written since the last ALLOC.B; a byte it does not list has the
free value `Config.freshByte gen i` (U1). `gen` is the model's own count of successful ALLOC.B commands. -/
structure UnitB where
  cap : U32
  mask : U32
  rpos : U32
  wpos : U32
  st : Memory
  gen : Nat
  deriving DecidableEq, Repr

/-- What units F and T have in common (R27, R28, R30 to R32): format, capacity, mask and one zero-filled storage that
begins with the pointer table `PT`; a byte `st` does not list is 0. -/
structure FrameStore where
  ch : U32
  bpf : U32
  cap : U32
  mask : U32
  st : Memory
  deriving DecidableEq, Repr

/-- Unit F (R27 to R31). -/
structure UnitF where
  fs : FrameStore
  rptr : U32
  wptr : U32
  deriving DecidableEq, Repr

/-- One slot of the bounds register (R34). -/
structure Slot where
  start : U64
  stop : U64
  upd : U32
  deriving DecidableEq, Repr

/-- Unit T (R32 to R37). -/
structure UnitT where
  fs : FrameStore
  tbcnt : U32
  tbq : Vector Slot 8
  deriving DecidableEq, Repr

/-! ### What the clients do -/

/-- The width of a client's access. -/
inductive Width where
  | w8 | w16 | w32 | w64
  deriving DecidableEq, Repr

/-- One entry of the schedule (R80, R360): the port that takes its next atomic step, a client's store or load of one
port register, of client memory or of the window, or the reset input (R330). -/
inductive Input where
  | turn (q : PortId)
  | store (a : U64) (n : Width) (v : U64)
  | load (a : U64) (n : Width)
  | reset
  deriving DecidableEq, Repr

/-- The state of RBC, with client memory, the platform it stands on, and the schedule still to come. -/
structure State where
  /-- the open parameters of R11: never written by any step (R21) -/
  plat : Platform
  b : UnitB
  f : UnitF
  t : UnitT
  ports : Ports
  /-- client memory CM (R67); a byte not listed reads as 0 (assumption log 4) -/
  cm : Memory
  /-- the MODEL's field: the steps still to come, in the global order of R80 (assumption log 3) -/
  inputs : List Input
  /-- the MODEL's field: the port whose step is being, or was last, taken -/
  turn : PortId
  /-- the MODEL's field: the value the last client load returned (R48), zero-extended -/
  loaded : U64
  deriving DecidableEq, Repr

/-- Why the machine stops with a fault. -/
inductive Fault where
  /-- Raised by a command's meaning, and by a port's turn, when the port's position is none of the command in its CMD
  register: a state no run from reset reaches. SAFE: the spec has no such state (R47, R50). -/
  | foreignPosition
  deriving DecidableEq, Repr

/-- Why the model has no step. -/
inductive Refusal where
  /-- An arm of `exec` without a meaning yet: raised by no arm of this model. SAFE. -/
  | notModelled (mnemonic : String)
  /-- A client's access to an address that is neither a register block, nor the open window, nor backed by CM_OK.
  Raised by a client input. SAFE: the spec gives such an access no meaning (R66, R68). -/
  | clientNotAdmitted
  /-- A client's access to the window while unit B is deallocated or at an offset at or past B.CAP. Raised by a client
  input. SAFE: 93_implementation_defined.md U4 has no step for it (R66). -/
  | windowClosed
  /-- A client's access of more than one byte that touches the window, whose accesses are byte accesses. Raised by a
  client input. SAFE: R65, R66 give the byte access only. -/
  | windowWide
  /-- A client's access to a register block that is not an access of one whole register and to which R41 and R43 give
  no effect. Raised by a client input. SAFE. -/
  | portAccessShape
  /-- A command would read or write, as a client buffer or buffer list, an address the platform backs inside a register
  block. Raised by the copying commands' transfer and fetch steps. SAFE: 93_implementation_defined.md U5 has no step
  for it. -/
  | bufferInPortBlock
  deriving DecidableEq, Repr

/-! ### Reset (10_state.md R55, 70_reset_and_hazards.md R330) -/

/-- A port after reset: idle, all ten registers 0. -/
def Port.reset : Port where
  cmd := 0
  code := 0
  ret := 0
  count := 0
  addr := 0
  aux := 0
  res0 := 0
  res1 := 0
  res2 := 0
  res3 := 0
  act := .idle

/-- The three ports of a unit after reset. -/
def UnitPorts.reset : UnitPorts where
  cfg := Port.reset
  prod := Port.reset
  cons := Port.reset

/-- Unit B after reset, `gen` allocations after the beginning. -/
def UnitB.reset (gen : Nat) : UnitB where
  cap := 0
  mask := 0
  rpos := 0
  wpos := 0
  st := []
  gen := gen

/-- The deallocated frame storage: "deallocate frees storage and zeroes all fields". -/
def FrameStore.reset : FrameStore where
  ch := 0
  bpf := 0
  cap := 0
  mask := 0
  st := []

/-- Unit F after reset. -/
def UnitF.reset : UnitF where
  fs := FrameStore.reset
  rptr := 0
  wptr := 0

/-- A slot of the bounds register after reset. -/
def Slot.reset : Slot where
  start := 0
  stop := 0
  upd := 0

/-- Unit T after reset: the bounds register all zeros. -/
def UnitT.reset : UnitT where
  fs := FrameStore.reset
  tbcnt := 0
  tbq := Vector.replicate 8 Slot.reset

/-- The machine right after reset on a platform `p`. -/
def State.resetOn (p : Platform) : State where
  plat := p
  b := UnitB.reset 0
  f := UnitF.reset
  t := UnitT.reset
  ports := { b := UnitPorts.reset, f := UnitPorts.reset, t := UnitPorts.reset }
  cm := []
  inputs := []
  turn := ⟨.t, .cons⟩
  loaded := 0

/-- The machine right after reset, on the example platform of 95_test_vectors.md. -/
def State.reset : State := State.resetOn Platform.sample

end Sys2Proof.Machine
end

