-- ==== Sys2Proof/Machine/Flags.lean ====
section
/-! DEFINITION. RBC has no flags (10_state.md R51); the only status a command leaves is STATUS and RET. The status
codes (60_exceptions.md R291) and the STATUS word (R45). -/

namespace Sys2Proof.Machine

/-- The status codes of R291. -/
inductive Code where
  | ok | illegal | port | busy | unalloc | config | nomem | arg | avail | retry
  deriving DecidableEq, Repr

/-- The number of a status code, the value of `STATUS[7:0]` (R291). -/
def codeNumber : Code → BitVec 8
  | .ok => 0
  | .illegal => 1
  | .port => 2
  | .busy => 3
  | .unalloc => 4
  | .config => 5
  | .nomem => 6
  | .arg => 7
  | .avail => 8
  | .retry => 9

/-- STATUS.BUSY: a port is busy from issue until completion (R45, R47). -/
def Port.busy (p : Port) : Bool :=
  match p.act with
  | .idle => false
  | .busy _ _ => true

/-- The STATUS register: bit 31 BUSY, bits 7:0 CODE, the others 0 (R41, R45). -/
def Port.status (p : Port) : U32 := (if p.busy then 0x80000000 else 0) ||| p.code.zeroExtend 32

end Sys2Proof.Machine
end

