-- ==== Sys2Proof/Machine/Index.lean ====
section
/-! DEFINITION. Masked index arithmetic (40_index_arithmetic.md): capacity rounding, the mask, the masked advance, the
two availability counts, the transfer policy, the wrap split, allocation sizes and times. -/

namespace Sys2Proof.Machine

/-- The first power of two at or above `n` among `p, 2p, 4p, …`, at most `fuel` doublings. -/
def pow2From (n p : Nat) : Nat → Nat
  | 0 => p
  | fuel + 1 => if n ≤ p then p else pow2From n (2 * p) fuel

/-- `pow2ceil(n)` for `2 <= n <= 2^31` (R130). -/
def pow2ceil (n : Nat) : Nat := pow2From n 2 30

/-- `cap_ok(n)`: `2 <= n <= 2^31` (R131). -/
def capOk (n : U32) : Bool := decide (Config.minCap ≤ n.toNat) && decide (n.toNat ≤ Config.maxCap)

/-- Masked advance `adv(p, n) = (p +_32 n) & MASK` (R135). -/
def adv (mask p n : U32) : U32 := (p + n) &&& mask

/-- Available to read: `(w -_32 r) & MASK` (R138). -/
def availR (mask r w : U32) : U32 := (w - r) &&& mask

/-- Available to write: `(r -_32 w -_32 1) & MASK` (R139). -/
def availW (mask r w : U32) : U32 := (r - w - 1) &&& mask

/-- The smaller of two u32 values. -/
def minU32 (a b : U32) : U32 := if a.toNat ≤ b.toNat then a else b

/-- The transfer policy (R140): `none` is the rejection E_AVAIL, `some k` the number of units to move. -/
def transferLength (avail count : U32) (ap : Bool) : Option U32 :=
  if avail = 0 then none
  else if avail.toNat < count.toNat ∧ ap = false then none
  else some (minU32 avail count)

/-- `split(p, k)` (R141): the units before the physical wrap point and those after it. -/
def split (cap p k : Nat) : Nat × Nat := (min k (cap - p), k - min k (cap - p))

/-- The region-relative byte offset of byte `i` of a run of frames that starts at ring position `p`: the index of
R142 to R144, `(p*ub + i) mod (CAP*ub)`. -/
def ringOffset (cap ub p i : Nat) : Nat := (p * ub + i) % (cap * ub)

/-- `alloc_size_F(cap, ch, bpf)`, on unbounded integers (R133). -/
def frameAllocSize (cap ch bpf : Nat) : Nat := (cap * bpf + Config.ptrBytes) * ch

/-- `base(c) = PTR_BYTES * CH + c * CAP * BPF` (R62). -/
def regionBase (cap ch bpf c : Nat) : Nat := Config.ptrBytes * ch + c * cap * bpf

/-- `pos(t) = t[31:0] & T.MASK` (R149). -/
def timePos (mask : U32) (t : Int) : U32 := BitVec.ofInt 32 t &&& mask

/-- The next byte of a loop over channels of `n` bytes each: the following byte, or byte 0 of the next channel. -/
def nextByte (n c i : Nat) : Nat × Nat := if i + 1 < n then (c, i + 1) else (c + 1, 0)

end Sys2Proof.Machine
end

