-- ==== Sys2Proof/Machine/Operands.lean ====
section
/-! DEFINITION. Operand assembly (30_encoding.md R102): the operands a command takes from the latched registers. -/

namespace Sys2Proof.Machine

/-- The values of a port's operand registers, latched at issue (R43, R44). -/
def Port.latch (p : Port) : Latch := { count := p.count, addr := p.addr, aux := p.aux }

/-- `fmt_ch = aux[31:0]` (R72). -/
def Latch.fmtCh (l : Latch) : U32 := l.aux.extractLsb' 0 32

/-- `fmt_bpf = aux[63:32]` (R72). -/
def Latch.fmtBpf (l : Latch) : U32 := l.aux.extractLsb' 32 32

/-- `fmt_il = addr[0]`; `addr[63:1]` is ignored (R72). -/
def Latch.fmtIl (l : Latch) : Bool := l.addr.getLsbD 0

/-- `n = zext(count)` (R147). -/
def Latch.frames (l : Latch) : Nat := l.count.toNat

/-- The sample time `t`: `aux` read as an i64 (R102). -/
def Latch.time (l : Latch) : Int := l.aux.toInt

/-- The end of the requested range, `t + n`, computed without wrap (R147). -/
def Latch.endTime (l : Latch) : Int := l.time + (l.frames : Int)

/-- `fmt_ok` (R201). -/
def Latch.fmtOk (l : Latch) : Bool := !l.fmtIl && decide (1 ≤ l.fmtCh.toNat) && decide (1 ≤ l.fmtBpf.toNat)

/-- The argument tests WRITE.T and READ.T share after the null list (R250, R260): `n > T.CAP`, `t < 0`,
`t + n > 2^63 - 1`. -/
def Latch.rangeOk (l : Latch) (cap : U32) : Bool :=
  decide (l.frames ≤ cap.toNat) && decide (0 ≤ l.time) && decide (l.endTime ≤ Config.maxTime)

end Sys2Proof.Machine
end

