-- ==== Sys2Proof/WellFormed.lean ====
section
/-! DEFINITION. What is well formed before anything runs. A command word has no operand a program could get wrong
beyond AP, so every term of `Instr` is a command (R107); what can be wrong is the PORT a command is put to (R106,
R108) and the PLATFORM'S address map (R76). -/

namespace Sys2Proof

/-- A command may be issued on a port: the port is of the command's unit (R108 check 1) and of one of its roles
(R108 check 2). -/
def Instr.wellFormedOn (q : PortId) (i : Instr) : Bool :=
  decide (unitOf i = q.unit) && decide (q.role ∈ rolesOf i)

/-- Two address intervals do not meet. -/
def Range.disjoint (x y : Range) : Bool :=
  decide (x.base + x.size ≤ y.base) || decide (y.base + y.size ≤ x.base)

/-- The nine register blocks as intervals (R41, R76). -/
def Platform.blocks (p : Platform) : List Range :=
  [p.portB.cfg, p.portB.prod, p.portB.cons, p.portF.cfg, p.portF.prod, p.portF.cons,
   p.portT.cfg, p.portT.prod, p.portT.cons].map fun a => { base := a.toNat, size := Config.blockBytes }

/-- The largest window a platform can ever open: ALLOC.B grants at most `STORE_BYTES_B` bytes and at most
`2^31` (R66, R131, R134). -/
def Platform.windowMax (p : Platform) : Range :=
  { base := p.winBase.toNat, size := min p.storeB Config.maxCap }

/-- The interval lies inside the 64-bit address space. -/
def Range.inSpace (x : Range) : Bool := decide (x.base + x.size ≤ 2 ^ 64)

/-- R76: the nine blocks do not overlap each other, nor the window, nor memory the clients use, and all lie in the
address space. -/
def Platform.wellFormed (p : Platform) : Bool :=
  (p.windowMax :: p.blocks).all Range.inSpace
    && decide ((p.windowMax :: p.blocks).Pairwise fun x y => Range.disjoint x y = true)
    && p.blocks.all fun x => p.backed.all fun y => Range.disjoint x y

end Sys2Proof
end

