-- ==== Sys2Proof/Machine/Ops.lean ====
section
/-! DEFINITION. The named operations over memory, storage, ports and positions: single bytes, client memory and the
window (20_memory.md), issue, completion and REJECTION (RBC has no exception; R14, R290), the transfer steps, the
channel scatter/gather engine (42_frame_ring.md) and the bounds register (43_timestamped_ring.md). -/

namespace Sys2Proof.Machine

/-- What a step of the machine answers. -/
abbrev Res := Host.Outcome State Fault Refusal

/-! ### Memories -/

/-- The byte a memory lists at an address. -/
def memGet : Memory → Nat → Option Byte
  | [], _ => none
  | (b, x) :: m, a => if a = b then some x else memGet m a

/-- List a byte at an address, or (`none`) list none there; keeps the addresses strictly rising. -/
def memPut : Memory → Nat → Option Byte → Memory
  | [], _, none => []
  | [], a, some v => [(a, v)]
  | (b, x) :: m, a, v =>
    if a < b then
      match v with
      | none => (b, x) :: m
      | some y => (a, y) :: (b, x) :: m
    else if a = b then
      match v with
      | none => m
      | some y => (a, y) :: m
    else (b, x) :: memPut m a v

/-- The canonical form of a memory: addresses strictly rising. -/
def Memory.wf (m : Memory) : Bool := decide (m.Pairwise fun x y => x.1 < y.1)

/-- The canonical form of a memory whose unlisted bytes read as 0: addresses strictly rising, no 0 listed. -/
def Memory.canonical (m : Memory) : Bool := Memory.wf m && m.all fun c => decide (c.2 ≠ 0)

/-- Every listed address is below `n`. -/
def Memory.below (m : Memory) (n : Nat) : Bool := m.all fun c => decide (c.1 < n)

/-- A byte of a memory whose unlisted bytes read as 0. -/
def zeroGet (m : Memory) (a : Nat) : Byte := (memGet m a).getD 0

/-- Write a byte of a memory whose unlisted bytes read as 0. -/
def zeroPut (m : Memory) (a : Nat) (v : Byte) : Memory := memPut m a (if v = 0 then none else some v)

/-- The number a list of bytes stands for, least significant first (R69). -/
def leNumber : List Byte → Nat
  | [] => 0
  | b :: bs => b.toNat + 256 * leNumber bs

/-- Byte `i` of a number, least significant first (R69). -/
def leByte (v i : Nat) : Byte := BitVec.ofNat 8 (v / 256 ^ i)

/-- Write the `n` little-endian bytes of `v` from address `a` up. -/
def zeroPutLE (m : Memory) (a n v : Nat) : Memory :=
  (List.range n).foldl (fun m i => zeroPut m (a + i) (leByte v i)) m

/-! ### Storage (20_memory.md R61 to R65) -/

/-- The storage byte `B.ST[i]`: the byte last written there, or the free value of U1 (R65). -/
def UnitB.byte (u : UnitB) (i : Nat) : Byte := (memGet u.st i).getD (Config.freshByte u.gen i)

/-- Write the storage byte `B.ST[i]`. -/
def UnitB.setByte (u : UnitB) (i : Nat) (v : Byte) : UnitB := { u with st := memPut u.st i (some v) }

/-- The storage offset of byte `i` of a run that starts at ring position `p` of unit B (R142 with `base = 0`,
`ub = 1`). -/
def UnitB.offset (u : UnitB) (p : U32) (i : Nat) : Nat := ringOffset u.cap.toNat 1 p.toNat i

/-- The storage offset of byte `i` of a run that starts at ring position `p` of channel `c` (R63, R142). -/
def FrameStore.offset (fs : FrameStore) (c : Nat) (p : U32) (i : Nat) : Nat :=
  regionBase fs.cap.toNat fs.ch.toNat fs.bpf.toNat c + ringOffset fs.cap.toNat fs.bpf.toNat p.toNat i

/-- A storage byte of unit F or T. -/
def FrameStore.byte (fs : FrameStore) (i : Nat) : Byte := zeroGet fs.st i

/-- Write a storage byte of unit F or T. -/
def FrameStore.setByte (fs : FrameStore) (i : Nat) (v : Byte) : FrameStore := { fs with st := zeroPut fs.st i v }

/-- Bytes of `k` frames in one channel, `k * BPF` on unbounded integers (R148). -/
def FrameStore.bytes (fs : FrameStore) (k : Nat) : Nat := k * fs.bpf.toNat

/-- The pointer table of an allocation (R30, R62): entry `c`, eight bytes little-endian, holds `base(c)`. -/
def pointerTable (cap ch bpf : Nat) : Memory :=
  (List.range ch).foldl
    (fun m c => zeroPutLE m (Config.ptrBytes * c) Config.ptrBytes (regionBase cap ch bpf c)) []

/-! ### Client memory and the window (20_memory.md R66 to R69, R76) -/

/-- An address lies in an interval. -/
def rangeHolds (r : Range) (a : U64) : Bool := decide (r.base ≤ a.toNat) && decide (a.toNat < r.base + r.size)

/-- `CM_OK(a)` (R68). -/
def cmOk (p : Platform) (a : U64) : Bool := p.backed.any fun r => rangeHolds r a

/-- The three block addresses of a unit. -/
def basesOf (p : Platform) : UnitId → PortBases
  | .b => p.portB
  | .f => p.portF
  | .t => p.portT

/-- `PORT_BASE[u][p]` (R11, R41). -/
def portBase (p : Platform) (q : PortId) : U64 :=
  match q.role with
  | .cfg => (basesOf p q.unit).cfg
  | .prod => (basesOf p q.unit).prod
  | .cons => (basesOf p q.unit).cons

/-- The register block an address lies in (R41, R76). -/
def blockAt (p : Platform) (a : U64) : Option PortId :=
  allPorts.find? fun q => decide ((a - portBase p q).toNat < Config.blockBytes)

/-- The offset in `B.ST` an address shows through the open window (R66). -/
def State.windowOffset (s : State) (a : U64) : Option Nat :=
  if (a - s.plat.winBase).toNat < s.b.cap.toNat then some (a - s.plat.winBase).toNat else none

/-- The address is one the window can show, but shows nothing now: unit B is deallocated, or the offset is at or past
B.CAP (R66, U4). -/
def State.windowClosed (s : State) (a : U64) : Bool :=
  decide ((a - s.plat.winBase).toNat < min s.plat.storeB Config.maxCap) && (s.windowOffset a).isNone

/-- RBC may access the client address: CM_OK holds there (R68) and the closed window does not hide it. The second
condition is the MODEL'S CHOICE (DESIGN CHOICE, unsafe, assumption log 18): R66 calls a client's access there not
admitted and leaves RBC's own open. So is its end: the question is asked at each turn, so a port held at an address that
CM_OK backs goes on once a later ALLOC.B opens the window there. Where CM_OK fails, the port is held until reset
(R310). -/
def State.admits (s : State) (a : U64) : Bool := cmOk s.plat a && !s.windowClosed a

/-- A client address as RBC or a client sees it: a byte of `B.ST` in the open window, of CM elsewhere (R66, R67). -/
def State.clientByte (s : State) (a : U64) : Byte :=
  match s.windowOffset a with
  | some i => s.b.byte i
  | none => zeroGet s.cm a.toNat

/-- Write one client byte. -/
def State.setClientByte (s : State) (a : U64) (v : Byte) : State :=
  match s.windowOffset a with
  | some i => { s with b := s.b.setByte i v }
  | none => { s with cm := zeroPut s.cm a.toNat v }

/-- The `n` addresses from `a` up, modulo `2^64` (R67). -/
def addresses (a : U64) (n : Nat) : List U64 := (List.range n).map fun i => a + BitVec.ofNat 64 i

/-- `MemRead(a, n)` (R69). -/
def State.memRead (s : State) (a : U64) (n : Nat) : Nat := leNumber ((addresses a n).map s.clientByte)

/-- `MemWrite(a, n, v)` (R69). -/
def State.memWrite (s : State) (a : U64) (n v : Nat) : State :=
  (List.range n).foldl (fun s i => s.setClientByte (a + BitVec.ofNat 64 i) (leByte v i)) s

/-! ### Ports -/

/-- The three ports of a unit. -/
def Ports.ofUnit (ps : Ports) : UnitId → UnitPorts
  | .b => ps.b
  | .f => ps.f
  | .t => ps.t

/-- The port of a role. -/
def UnitPorts.get (up : UnitPorts) : Role → Port
  | .cfg => up.cfg
  | .prod => up.prod
  | .cons => up.cons

/-- Replace the port of a role. -/
def UnitPorts.set (up : UnitPorts) (r : Role) (p : Port) : UnitPorts :=
  match r with
  | .cfg => { up with cfg := p }
  | .prod => { up with prod := p }
  | .cons => { up with cons := p }

/-- One port's registers and position. -/
def State.port (s : State) (q : PortId) : Port := (s.ports.ofUnit q.unit).get q.role

/-- Replace one port's registers and position. -/
def State.setPort (s : State) (q : PortId) (p : Port) : State :=
  match q.unit with
  | .b => { s with ports := { s.ports with b := s.ports.b.set q.role p } }
  | .f => { s with ports := { s.ports with f := s.ports.f.set q.role p } }
  | .t => { s with ports := { s.ports with t := s.ports.t.set q.role p } }

/-- The issuing port: the one whose step is being taken. -/
def State.cur (s : State) : Port := s.port s.turn

/-- Replace the issuing port. -/
def State.setCur (s : State) (p : Port) : State := s.setPort s.turn p

/-- The issuing port goes to its command's step `pos`. -/
def State.goto (s : State) (ops : Latch) (pos : Pos) : State := s.setCur { s.cur with act := .busy ops pos }

/-- `complete(ret, code)` with the four result registers (R14): the last step of every command (R84). -/
def State.completeWith (s : State) (ret : U32) (code : Code) (r0 r1 r2 r3 : U64) : State :=
  s.setCur { s.cur with
    ret := ret
    code := codeNumber code
    res0 := r0
    res1 := r1
    res2 := r2
    res3 := r3
    act := .idle }

/-- `complete(ret, code)`, all result registers 0 (R14). -/
def State.complete (s : State) (ret : U32) (code : Code) : State := s.completeWith ret code 0 0 0 0

/-- `reject(code)` (R14, R290): RBC's only failure, in the place of an exception. It returns 0 and a code, and the
port is idle again (R302). -/
def State.reject (s : State) (code : Code) : State := s.complete 0 code

/-! ### Issue (10_state.md R43, 30_encoding.md R108, R109) -/

/-- The accepted command word stands in CMD (R41, R43). -/
def State.accept (s : State) (w : U32) : State := s.setCur { s.cur with cmd := w }

/-- The common checks 1 and 2 of R108 for a legal word on a port: its unit, then the port's role. -/
def commonCheck (q : PortId) (i : Instr) : Option Code :=
  if unitOf i ≠ q.unit then some .illegal
  else if q.role ∉ rolesOf i then some .port
  else none

/-- PROD or CONS of a unit is busy (R109). -/
def State.dataBusy (s : State) (u : UnitId) : Bool :=
  (s.port ⟨u, .prod⟩).busy || (s.port ⟨u, .cons⟩).busy

/-- The issue step of a PROD or CONS command (R43): the common checks only; the operands are latched and the port is
busy, its first block a later step. -/
def issueData (i : Instr) (s : State) : Res :=
  match commonCheck s.turn i with
  | some code => .next ((s.accept (encode i)).reject code)
  | none => .next ((s.accept (encode i)).goto s.cur.latch .start)

/-- The issue step of a CFG command (R43, R109): the common checks, the lifecycle exclusion, and the whole command. -/
def issueCfg (i : Instr) (body : Latch → State → State) (s : State) : Res :=
  match commonCheck s.turn i with
  | some code => .next ((s.accept (encode i)).reject code)
  | none =>
    if s.dataBusy s.turn.unit then .next ((s.accept (encode i)).reject .busy)
    else .next (body s.cur.latch (s.accept (encode i)))

/-- The issue step of a word that is no command (R108 check 1, R110). -/
def issueIllegal (w : U32) (s : State) : Res := .next ((s.accept w).reject .illegal)

/-! ### Accesses to client memory -/

/-- A step that accesses the `n` client bytes from `a` up and then stands at `k`. It is not enabled when an address is
not admitted: the port stays where it is (R68, R310; assumption logs 7 and 18). A backed address inside a register block has no step (U5). -/
def guarded (s : State) (a : U64) (n : Nat) (k : State) : Res :=
  if (addresses a n).all s.admits then
    if (addresses a n).any fun x => (blockAt s.plat x).isSome then .refused .bufferInPortBlock
    else .next k
  else .next s

/-! ### Unit B's copies (40_index_arithmetic.md R140, R142, R143) -/

/-- The sample step of READ.B, PEEK.B, WRITE.B (R165 to R167): from ring position `p`, of `avail` units. -/
def sampleB (ap : Bool) (avail p : U32) (ops : Latch) (s : State) : State :=
  if s.b.cap = 0 then s.reject .unalloc
  else
    match transferLength avail ops.count ap with
    | none => s.reject .avail
    | some k => s.goto ops (.xfer p k 0)

/-- One byte of `RingToClient(B, 0, 1, p, k, addr)` (R142). -/
def copyOutB (ops : Latch) (p k : U32) (i : Nat) (s : State) : Res :=
  guarded s (ops.addr + BitVec.ofNat 64 i) 1
    ((s.setClientByte (ops.addr + BitVec.ofNat 64 i) (s.b.byte (s.b.offset p i))).goto ops (.xfer p k (i + 1)))

/-- One byte of `ClientToRing(B, 0, 1, p, k, addr)` (R143). -/
def copyInB (ops : Latch) (p k : U32) (i : Nat) (s : State) : Res :=
  guarded s (ops.addr + BitVec.ofNat 64 i) 1
    (State.goto { s with b := s.b.setByte (s.b.offset p i) (s.clientByte (ops.addr + BitVec.ofNat 64 i)) }
      ops (.xfer p k (i + 1)))

/-! ### The channel scatter/gather engine (42_frame_ring.md R203 to R208) -/

/-- The address of entry `c` of the buffer list (R70). -/
def entryAddr (ops : Latch) (c : Nat) : U64 := ops.addr + BitVec.ofNat 64 (Config.bleBytes * c)

/-- `ptr[c]` of the fetched list (R204). -/
def entryPtr (es : List Entry) (c : Nat) : U64 := (es[c]?.map Entry.ptr).getD 0

/-- `ListFits(u, need)` (R205). -/
def listFits (es : List Entry) (need : Nat) : Bool := es.all fun e => decide (need ≤ e.capb.toNat)

/-- Where FetchList stands before entry `es.length` (R204), for a unit of `ch` channels. -/
def fetchPos (ch : U32) (p k : U32) (es : List Entry) : Pos :=
  if es.length < ch.toNat then .fetch p k es none else .fits p k es

/-- One step of FetchList (R204): the pointer, then the byteCapacity, of entry `es.length`. -/
def fetchStep (ch : U32) (ops : Latch) (p k : U32) (es : List Entry) (ptr : Option U64) (s : State) : Res :=
  match ptr with
  | none =>
    guarded s (entryAddr ops es.length) 8
      (s.goto ops (.fetch p k es (some (BitVec.ofNat 64 (s.memRead (entryAddr ops es.length) 8)))))
  | some x =>
    guarded s (entryAddr ops es.length + 8) 8
      (s.goto ops (fetchPos ch p k
        (es ++ [{ ptr := x, capb := BitVec.ofNat 64 (s.memRead (entryAddr ops es.length + 8) 8) }])))

/-- The client address of byte `i` of channel `c`'s buffer. -/
def bufferAddr (es : List Entry) (c i : Nat) : U64 := entryPtr es c + BitVec.ofNat 64 i

/-- The report of one channel (R208): `MemWrite(addr + 24*c + 16, 8, nbytes)`. -/
def reportStep (ops : Latch) (c nbytes : Nat) (k : State → State) (s : State) : Res :=
  guarded s (entryAddr ops c + 16) 8 (k (s.memWrite (entryAddr ops c + 16) 8 nbytes))

/-- One byte of channel `c` of `RingToClient` (R142, R206). -/
def gatherByte (fs : FrameStore) (p : U32) (es : List Entry) (c i : Nat) (k : State → State) (s : State) : Res :=
  guarded s (bufferAddr es c i) 1
    (k (s.setClientByte (bufferAddr es c i) (fs.byte (fs.offset c p i))))

/-- The body of ALLOC.F and ALLOC.T up to the unit's other fields (R210, R247): the new storage, or the code of the
failure. -/
def allocFrames (store : Nat) (ops : Latch) : Except Code FrameStore :=
  if ops.fmtOk && capOk ops.count then
    if frameAllocSize (pow2ceil ops.count.toNat) ops.fmtCh.toNat ops.fmtBpf.toNat ≤ store then
      .ok {
        ch := ops.fmtCh
        bpf := ops.fmtBpf
        cap := BitVec.ofNat 32 (pow2ceil ops.count.toNat)
        mask := BitVec.ofNat 32 (pow2ceil ops.count.toNat) - 1
        st := pointerTable (pow2ceil ops.count.toNat) ops.fmtCh.toNat ops.fmtBpf.toNat }
    else .error .nomem
  else .error .config

/-! ### The bounds register (43_timestamped_ring.md R240 to R245) -/

/-- The slot a counter value selects, `c & 7` (R35). -/
def slotIndex (c : U32) : Fin 8 := ⟨c.toNat % 8, Nat.mod_lt _ (by decide)⟩

/-- `T.TBQ[c & 7]`. -/
def UnitT.slot (u : UnitT) (c : U32) : Slot := u.tbq[slotIndex c]

/-- Replace `T.TBQ[c & 7]`. -/
def UnitT.setSlot (u : UnitT) (c : U32) (x : Slot) : UnitT :=
  { u with tbq := u.tbq.set (slotIndex c).val x (slotIndex c).isLt }

/-- The current bounds (R36), as the numbers they stand for. -/
def UnitT.bounds (u : UnitT) : Int × Int := ((u.slot u.tbcnt).start.toInt, (u.slot u.tbcnt).stop.toInt)

/-- One step of `Publish(s, e)` (R243); `k` is the position that follows the last. -/
def publishStep (u : UnitT) (lo hi : Int) (st : PubStage) : UnitT × Option PubStage :=
  match st with
  | .upd => (u.setSlot (u.tbcnt + 1) { u.slot (u.tbcnt + 1) with upd := u.tbcnt + 1 }, some (.start (u.tbcnt + 1)))
  | .start nxt => (u.setSlot nxt { u.slot nxt with start := BitVec.ofInt 64 lo }, some (.stop nxt))
  | .stop nxt => (u.setSlot nxt { u.slot nxt with stop := BitVec.ofInt 64 hi }, some (.count nxt))
  | .count nxt => ({ u with tbcnt := nxt }, none)

/-- How an attempt of `ReadBounds` goes on after one step (R245). -/
inductive ReadNext where
  | more (st : ReadStage)
  | success (s e : U64)
  | torn
  deriving DecidableEq, Repr

/-- One step of an attempt of `ReadBounds` (R245). -/
def readBoundsStep (u : UnitT) (st : ReadStage) : ReadNext :=
  match st with
  | .count => .more (.start u.tbcnt)
  | .start c => .more (.stop c (u.slot c).start)
  | .stop c s => .more (.upd c s (u.slot c).stop)
  | .upd c s e => if (u.slot c).upd = c then .success s e else .torn

/-- One step of `ReadBounds` (R245): at most `TB_TRIES` attempts; `done` is the state once the result is known. -/
def readBounds (ops : Latch) (es : List Entry) (tries : Nat) (st : ReadStage)
    (done : Option (U64 × U64) → State → State) (s : State) : Res :=
  match readBoundsStep s.t st with
  | .more st' => .next (s.goto ops (.read es tries st'))
  | .success x y => .next (done (some (x, y)) s)
  | .torn =>
    if tries + 1 < Config.tbTries then .next (s.goto ops (.read es (tries + 1) .count))
    else .next (done none s)

end Sys2Proof.Machine
end

