-- ==== Sys2Proof/Machine/Client.lean ====
section
/-! DEFINITION. What the clients and the platform do to RBC (10_state.md R41 to R49, 20_memory.md R66, R80,
70_reset_and_hazards.md R330, R360): the register block a client address names, loads, stores, and the reset input.
The store to CMD, which issues a command, is taken apart here and carried out in Machine/Step.lean. -/

namespace Sys2Proof.Machine

/-- The ten registers of a port (R41). -/
inductive Reg where
  | cmd | status | ret | count | addr | aux | res0 | res1 | res2 | res3
  deriving DecidableEq, Repr

/-- The register that holds byte `off` of a block (R41). -/
def regAt (off : Nat) : Reg :=
  if off < 0x04 then .cmd
  else if off < 0x08 then .status
  else if off < 0x0C then .ret
  else if off < 0x10 then .count
  else if off < 0x18 then .addr
  else if off < 0x20 then .aux
  else if off < 0x28 then .res0
  else if off < 0x30 then .res1
  else if off < 0x38 then .res2
  else .res3

/-- The offset of a register in its block (R41). -/
def regOffset : Reg → Nat
  | .cmd => 0x00
  | .status => 0x04
  | .ret => 0x08
  | .count => 0x0C
  | .addr => 0x10
  | .aux => 0x18
  | .res0 => 0x20
  | .res1 => 0x28
  | .res2 => 0x30
  | .res3 => 0x38

/-- The bytes of a register (R41). -/
def regBytes : Reg → Nat
  | .cmd | .status | .ret | .count => 4
  | .addr | .aux | .res0 | .res1 | .res2 | .res3 => 8

/-- A register the client may write (R41). -/
def regWritable : Reg → Bool
  | .cmd | .count | .addr | .aux => true
  | .status | .ret | .res0 | .res1 | .res2 | .res3 => false

/-- The bytes of an access. -/
def widthBytes : Width → Nat
  | .w8 => 1
  | .w16 => 2
  | .w32 => 4
  | .w64 => 8

/-- The value of a register, zero-extended (R48). -/
def Port.read (p : Port) : Reg → U64
  | .cmd => p.cmd.zeroExtend 64
  | .status => p.status.zeroExtend 64
  | .ret => p.ret.zeroExtend 64
  | .count => p.count.zeroExtend 64
  | .addr => p.addr
  | .aux => p.aux
  | .res0 => p.res0
  | .res1 => p.res1
  | .res2 => p.res2
  | .res3 => p.res3

/-- A client's store of a whole operand register (R42); the other registers are not written this way. -/
def Port.write (p : Port) (r : Reg) (v : U64) : Port :=
  match r with
  | .count => { p with count := v.truncate 32 }
  | .addr => { p with addr := v }
  | .aux => { p with aux := v }
  | .cmd | .status | .ret | .res0 | .res1 | .res2 | .res3 => p

/-- What a client address means (R41, R66, R67). -/
inductive Target where
  /-- byte `off` of a port's register block -/
  | block (q : PortId) (off : Nat)
  /-- client memory or the window -/
  | memory
  deriving DecidableEq, Repr

/-- The register block or the memory a client address names (R76). -/
def target (p : Platform) (a : U64) : Target :=
  match blockAt p a with
  | some q => .block q (a - portBase p q).toNat
  | none => .memory

/-- What a client's store to a register block does (R41 to R43). -/
inductive BlockStore where
  /-- a 32-bit write of CMD -/
  | issue (w : U32)
  /-- a write of a whole operand register -/
  | write (r : Reg)
  /-- no effect: a read-only register (R41), or a narrower write of CMD (R43) -/
  | ignored
  /-- an access the spec gives no effect -/
  | shape
  deriving DecidableEq, Repr

/-- A client's store of `n` at byte `off` of a block, taken apart (R41, R43). -/
def blockStore (off : Nat) (n : Width) (v : U64) : BlockStore :=
  if off + widthBytes n ≤ regOffset (regAt off) + regBytes (regAt off) then
    if regWritable (regAt off) then
      if off = regOffset (regAt off) ∧ widthBytes n = regBytes (regAt off) then
        if regAt off = .cmd then .issue (v.truncate 32) else .write (regAt off)
      else if regAt off = .cmd then .ignored
      else .shape
    else .ignored
  else .shape

/-- A client address is in the open window (R66). -/
def State.inWindow (s : State) (a : U64) : Bool := (s.windowOffset a).isSome

/-- Why a client's access to memory has no step, if it has none (R66, R68, U4). -/
def State.clientBar (s : State) (a : U64) (n : Width) : Option Refusal :=
  if (addresses a (widthBytes n)).any fun x => (blockAt s.plat x).isSome then some .portAccessShape
  else if (addresses a (widthBytes n)).any s.windowClosed then some .windowClosed
  else if (addresses a (widthBytes n)).any s.inWindow then
    if widthBytes n = 1 then none else some .windowWide
  else if (addresses a (widthBytes n)).all (cmOk s.plat) then none
  else some .clientNotAdmitted

/-- A client's store to client memory or to the window (R66, R80). -/
def clientStoreMemory (a : U64) (n : Width) (v : U64) (s : State) : Res :=
  match s.clientBar a n with
  | some r => .refused r
  | none => .next (s.memWrite a (widthBytes n) v.toNat)

/-- A client's load (R48, R66, R80): it changes nothing but what the client holds. -/
def clientLoad (a : U64) (n : Width) (s : State) : Res :=
  match target s.plat a with
  | .block q off =>
    if off = regOffset (regAt off) ∧ widthBytes n = regBytes (regAt off) then
      .next { s with loaded := (s.port q).read (regAt off) }
    else .refused .portAccessShape
  | .memory =>
    match s.clientBar a n with
    | some r => .refused r
    | none => .next { s with loaded := BitVec.ofNat 64 (s.memRead a (widthBytes n)) }

/-- The reset input (R330): every command in flight is abandoned and all of RBC is as R55 says; client memory, the
platform, the clients' schedule and what a client last loaded are not RBC's. -/
def hardReset (s : State) : State :=
  { State.resetOn s.plat with
    b := UnitB.reset s.b.gen
    cm := s.cm
    inputs := s.inputs
    loaded := s.loaded }

/-- The port that takes the next step when the schedule is empty: the first busy port after `turn`, in the cyclic
order of `allPorts` (assumption log 3). -/
def nextBusy (s : State) : Option PortId :=
  ((allPorts.drop (allPorts.idxOf s.turn + 1)) ++ (allPorts.take (allPorts.idxOf s.turn + 1))).find?
    fun q => (s.port q).busy

/-- A port that accepts a command: CFG for a lifecycle command, PROD where it may, else CONS (R104). -/
def portFor (i : Instr) : PortId := ⟨unitOf i, ((rolesOf i).head?).getD .cfg⟩

/-- The port a command word is put to: that of its command, and CFG_B for a word that is none. -/
def portForWord (w : U32) : PortId :=
  match decode w with
  | .ok i => portFor i
  | .error _ => ⟨.b, .cfg⟩

/-- The word `w` about to be issued: the port that accepts it is idle, and the next entry of the schedule is the
client's 32-bit store of `w` to that port's CMD register (R43). -/
def placeCommand (s : State) (w : U32) : State :=
  { s.setPort (portForWord w) { s.port (portForWord w) with act := .idle } with
    inputs := .store (portBase s.plat (portForWord w)) .w32 (w.zeroExtend 64) :: s.inputs }

end Sys2Proof.Machine
end

