-- ==== Sys2Proof/Machine/ByteRing.lean ====
section
/-! DEFINITION. Unit B, the byte ring (41_byte_ring.md): one meaning per command. A meaning takes ONE atomic step of
its command on the port `turn`: the issue step when the port is idle (10_state.md R43), the step the port's position
names when it is busy (R50). -/

namespace Sys2Proof.Machine

/-! ### Lifecycle (R160 to R162) -/

/-- "free B.ST" and all control fields 0 (R160, R161). -/
def UnitB.release (u : UnitB) : UnitB := { u with cap := 0, mask := 0, rpos := 0, wpos := 0, st := [] }

/-- The unit after a successful ALLOC.B of `cap` bytes: the new array's contents are free (R160, U1). -/
def UnitB.allocated (u : UnitB) (cap : Nat) : UnitB :=
  { cap := BitVec.ofNat 32 cap, mask := BitVec.ofNat 32 cap - 1, rpos := 0, wpos := 0, st := [], gen := u.gen + 1 }

/-- The atomic block of ALLOC.B (R160): release first, then validate, then allocate. -/
def allocBBody (ops : Latch) (s : State) : State :=
  if capOk ops.count then
    if pow2ceil ops.count.toNat ≤ s.plat.storeB then
      State.completeWith { s with b := s.b.allocated (pow2ceil ops.count.toNat) } 1 .ok
        (BitVec.ofNat 64 (pow2ceil ops.count.toNat)) 0 0 0
    else State.complete { s with b := s.b.release } 0 .nomem
  else State.complete { s with b := s.b.release } 0 .config

/-- The atomic block of DEALLOC.B (R161). -/
def deallocBBody (_ : Latch) (s : State) : State := State.complete { s with b := s.b.release } 1 .ok

/-- The atomic block of RESET.B (R162): only the cursors. -/
def resetBBody (_ : Latch) (s : State) : State := State.complete { s with b := { s.b with rpos := 0, wpos := 0 } } 1 .ok

/-- ALLOC.B (R160). -/
def execAllocB (s : State) : Res :=
  match s.cur.act with
  | .idle => issueCfg .allocB allocBBody s
  | .busy _ _ => .fault .foreignPosition

/-- DEALLOC.B (R161). -/
def execDeallocB (s : State) : Res :=
  match s.cur.act with
  | .idle => issueCfg .deallocB deallocBBody s
  | .busy _ _ => .fault .foreignPosition

/-- RESET.B (R162). -/
def execResetB (s : State) : Res :=
  match s.cur.act with
  | .idle => issueCfg .resetB resetBBody s
  | .busy _ _ => .fault .foreignPosition

/-! ### Availability queries (R163, R164) -/

/-- AVAILR.B (R163). -/
def execAvailrB (s : State) : Res :=
  match s.cur.act with
  | .idle => issueData .availrB s
  | .busy _ .start =>
    if s.b.cap = 0 then .next (s.reject .unalloc)
    else .next (s.complete (availR s.b.mask s.b.rpos s.b.wpos) .ok)
  | .busy _ _ => .fault .foreignPosition

/-- AVAILW.B (R164). -/
def execAvailwB (s : State) : Res :=
  match s.cur.act with
  | .idle => issueData .availwB s
  | .busy _ .start =>
    if s.b.cap = 0 then .next (s.reject .unalloc)
    else .next (s.complete (availW s.b.mask s.b.rpos s.b.wpos) .ok)
  | .busy _ _ => .fault .foreignPosition

/-! ### Copying commands (R165 to R167) -/

/-- READ.B (R165): sample, `k` byte steps, then publish the read cursor and complete. -/
def execReadB (ap : Bool) (s : State) : Res :=
  match s.cur.act with
  | .idle => issueData (.readB ap) s
  | .busy ops .start => .next (sampleB ap (availR s.b.mask s.b.rpos s.b.wpos) s.b.rpos ops s)
  | .busy ops (.xfer p k i) =>
    if i < k.toNat then copyOutB ops p k i s
    else .next (State.complete { s with b := { s.b with rpos := adv s.b.mask p k } } k .ok)
  | .busy _ _ => .fault .foreignPosition

/-- PEEK.B (R166): as READ.B, but the read cursor is not written. -/
def execPeekB (ap : Bool) (s : State) : Res :=
  match s.cur.act with
  | .idle => issueData (.peekB ap) s
  | .busy ops .start => .next (sampleB ap (availR s.b.mask s.b.rpos s.b.wpos) s.b.rpos ops s)
  | .busy ops (.xfer p k i) =>
    if i < k.toNat then copyOutB ops p k i s
    else .next (s.complete k .ok)
  | .busy _ _ => .fault .foreignPosition

/-- WRITE.B (R167): sample, `k` byte steps, then publish the write cursor and complete. -/
def execWriteB (ap : Bool) (s : State) : Res :=
  match s.cur.act with
  | .idle => issueData (.writeB ap) s
  | .busy ops .start => .next (sampleB ap (availW s.b.mask s.b.rpos s.b.wpos) s.b.wpos ops s)
  | .busy ops (.xfer p k i) =>
    if i < k.toNat then copyInB ops p k i s
    else .next (State.complete { s with b := { s.b with wpos := adv s.b.mask p k } } k .ok)
  | .busy _ _ => .fault .foreignPosition

/-! ### Unchecked cursor moves (R168, R169) -/

/-- ADVR.B (R168). -/
def execAdvrB (s : State) : Res :=
  match s.cur.act with
  | .idle => issueData .advrB s
  | .busy ops .start =>
    if s.b.cap = 0 then .next (s.reject .unalloc)
    else .next (State.complete { s with b := { s.b with rpos := adv s.b.mask s.b.rpos ops.count } } 1 .ok)
  | .busy _ _ => .fault .foreignPosition

/-- ADVW.B (R169). -/
def execAdvwB (s : State) : Res :=
  match s.cur.act with
  | .idle => issueData .advwB s
  | .busy ops .start =>
    if s.b.cap = 0 then .next (s.reject .unalloc)
    else .next (State.complete { s with b := { s.b with wpos := adv s.b.mask s.b.wpos ops.count } } 1 .ok)
  | .busy _ _ => .fault .foreignPosition

/-! ### Vector commands (R170, R171) -/

/-- The completion of RVEC.B and WVEC.B: the two spans of the run of `n` bytes from ring position `p` (R141, R170);
a span of length 0 has pointer 0. -/
def completeSpans (s : State) (p : U32) (n : U32) : State :=
  s.completeWith 1 .ok
    (if 0 < (split s.b.cap.toNat p.toNat n.toNat).1 then s.plat.winBase + p.zeroExtend 64 else 0)
    (BitVec.ofNat 64 (split s.b.cap.toNat p.toNat n.toNat).1)
    (if 0 < (split s.b.cap.toNat p.toNat n.toNat).2 then s.plat.winBase else 0)
    (BitVec.ofNat 64 (split s.b.cap.toNat p.toNat n.toNat).2)

/-- RVEC.B (R170). -/
def execRvecB (s : State) : Res :=
  match s.cur.act with
  | .idle => issueData .rvecB s
  | .busy _ .start =>
    if s.b.cap = 0 then .next (s.reject .unalloc)
    else .next (completeSpans s s.b.rpos (availR s.b.mask s.b.rpos s.b.wpos))
  | .busy _ _ => .fault .foreignPosition

/-- WVEC.B (R171). -/
def execWvecB (s : State) : Res :=
  match s.cur.act with
  | .idle => issueData .wvecB s
  | .busy _ .start =>
    if s.b.cap = 0 then .next (s.reject .unalloc)
    else .next (completeSpans s s.b.wpos (availW s.b.mask s.b.rpos s.b.wpos))
  | .busy _ _ => .fault .foreignPosition

end Sys2Proof.Machine
end

