-- ==== Sys2Proof/Machine/FrameRing.lean ====
section
/-! DEFINITION. Unit F, the frame ring (42_frame_ring.md): one meaning per command. A meaning takes ONE atomic step of
its command on the port `turn`, as in Machine/ByteRing.lean. -/

namespace Sys2Proof.Machine

/-! ### Lifecycle (R210 to R212) -/

/-- The atomic block of ALLOC.F (R210): release first, then validate, then allocate. -/
def allocFBody (ops : Latch) (s : State) : State :=
  match allocFrames s.plat.storeF ops with
  | .ok fs => State.completeWith { s with f := { fs := fs, rptr := 0, wptr := 0 } } 1 .ok (fs.cap.zeroExtend 64) 0 0 0
  | .error code => State.complete { s with f := UnitF.reset } 0 code

/-- The atomic block of DEALLOC.F (R211). -/
def deallocFBody (_ : Latch) (s : State) : State := State.complete { s with f := UnitF.reset } 1 .ok

/-- The atomic block of RESET.F (R212): only the cursors. -/
def resetFBody (_ : Latch) (s : State) : State := State.complete { s with f := { s.f with rptr := 0, wptr := 0 } } 1 .ok

/-- ALLOC.F (R210). -/
def execAllocF (s : State) : Res :=
  match s.cur.act with
  | .idle => issueCfg .allocF allocFBody s
  | .busy _ _ => .fault .foreignPosition

/-- DEALLOC.F (R211). -/
def execDeallocF (s : State) : Res :=
  match s.cur.act with
  | .idle => issueCfg .deallocF deallocFBody s
  | .busy _ _ => .fault .foreignPosition

/-- RESET.F (R212). -/
def execResetF (s : State) : Res :=
  match s.cur.act with
  | .idle => issueCfg .resetF resetFBody s
  | .busy _ _ => .fault .foreignPosition

/-! ### Availability queries (R213, R214) -/

/-- AVAILR.F (R213). -/
def execAvailrF (s : State) : Res :=
  match s.cur.act with
  | .idle => issueData .availrF s
  | .busy _ .start =>
    if s.f.fs.cap = 0 then .next (s.reject .unalloc)
    else .next (s.complete (availR s.f.fs.mask s.f.rptr s.f.wptr) .ok)
  | .busy _ _ => .fault .foreignPosition

/-- AVAILW.F (R214). -/
def execAvailwF (s : State) : Res :=
  match s.cur.act with
  | .idle => issueData .availwF s
  | .busy _ .start =>
    if s.f.fs.cap = 0 then .next (s.reject .unalloc)
    else .next (s.complete (availW s.f.fs.mask s.f.rptr s.f.wptr) .ok)
  | .busy _ _ => .fault .foreignPosition

/-! ### Copying commands (R215, R216) -/

/-- The sample block of READ.F and WRITE.F: from ring position `p`, of `avail` frames. -/
def sampleF (ap : Bool) (avail p : U32) (ops : Latch) (s : State) : State :=
  if s.f.fs.cap = 0 then s.reject .unalloc
  else if ops.addr = 0 then s.reject .arg
  else
    match transferLength avail ops.count ap with
    | none => s.reject .avail
    | some k => s.goto ops (fetchPos s.f.fs.ch p k [])

/-- READ.F's position before byte 0 of channel `c` (R215); past the last channel it publishes. -/
def gatherPosF (ch : U32) (p k : U32) (es : List Entry) (c : Nat) : Pos :=
  if c < ch.toNat then .move p k es c 0 else .publish p k

/-- WRITE.F's position before byte `i` of channel `c` of `n` bytes a channel (R216); past the last byte it
publishes. -/
def scatterPosF (ch : U32) (n : Nat) (p k : U32) (es : List Entry) (c i : Nat) : Pos :=
  if n = 0 then .publish p k
  else if c < ch.toNat then .move p k es c i
  else .publish p k

/-- READ.F (R215): sample, fetch the list, check it, then for each channel its bytes and its report, then publish the
read cursor and complete. -/
def execReadF (ap : Bool) (s : State) : Res :=
  match s.cur.act with
  | .idle => issueData (.readF ap) s
  | .busy ops .start => .next (sampleF ap (availR s.f.fs.mask s.f.rptr s.f.wptr) s.f.rptr ops s)
  | .busy ops (.fetch p k es ptr) => fetchStep s.f.fs.ch ops p k es ptr s
  | .busy ops (.fits p k es) =>
    if listFits es (s.f.fs.bytes k.toNat) then .next (s.goto ops (gatherPosF s.f.fs.ch p k es 0))
    else .next (s.reject .arg)
  | .busy ops (.move p k es c i) =>
    if i < s.f.fs.bytes k.toNat then
      gatherByte s.f.fs p es c i (fun t => t.goto ops (.move p k es c (i + 1))) s
    else
      reportStep ops c (s.f.fs.bytes k.toNat) (fun t => t.goto ops (gatherPosF s.f.fs.ch p k es (c + 1))) s
  | .busy _ (.publish p k) =>
    .next (State.complete { s with f := { s.f with rptr := adv s.f.fs.mask p k } } k .ok)
  | .busy _ _ => .fault .foreignPosition

/-- One byte of channel `c` of `ClientToRing(F, …)` (R143, R207). -/
def scatterByteF (p : U32) (es : List Entry) (c i : Nat) (k : State → State) (s : State) : Res :=
  guarded s (bufferAddr es c i) 1
    (k { s with f := { s.f with fs := s.f.fs.setByte (s.f.fs.offset c p i) (s.clientByte (bufferAddr es c i)) } })

/-- WRITE.F (R216): sample, fetch the list, check it, then every byte of every channel, then publish the write cursor
and complete. -/
def execWriteF (ap : Bool) (s : State) : Res :=
  match s.cur.act with
  | .idle => issueData (.writeF ap) s
  | .busy ops .start => .next (sampleF ap (availW s.f.fs.mask s.f.rptr s.f.wptr) s.f.wptr ops s)
  | .busy ops (.fetch p k es ptr) => fetchStep s.f.fs.ch ops p k es ptr s
  | .busy ops (.fits p k es) =>
    if listFits es (s.f.fs.bytes k.toNat) then
      .next (s.goto ops (scatterPosF s.f.fs.ch (s.f.fs.bytes k.toNat) p k es 0 0))
    else .next (s.reject .arg)
  | .busy ops (.move p k es c i) =>
    scatterByteF p es c i
      (fun t => t.goto ops
        (scatterPosF s.f.fs.ch (s.f.fs.bytes k.toNat) p k es (nextByte (s.f.fs.bytes k.toNat) c i).1
          (nextByte (s.f.fs.bytes k.toNat) c i).2)) s
  | .busy _ (.publish p k) =>
    .next (State.complete { s with f := { s.f with wptr := adv s.f.fs.mask p k } } k .ok)
  | .busy _ _ => .fault .foreignPosition

end Sys2Proof.Machine
end

