-- ==== Sys2Proof/Machine/TimeRing.lean ====
section
/-! DEFINITION. Unit T, the timestamped frame ring (43_timestamped_ring.md): one meaning per command. A meaning takes
ONE atomic step of its command on the port `turn`, as in Machine/ByteRing.lean. -/

namespace Sys2Proof.Machine

/-! ### Lifecycle (R247 to R249) -/

/-- The atomic block of ALLOC.T (R247): release first, the bounds register with it, then validate, then allocate. -/
def allocTBody (ops : Latch) (s : State) : State :=
  match allocFrames s.plat.storeT ops with
  | .ok fs => State.completeWith { s with t := { UnitT.reset with fs := fs } } 1 .ok (fs.cap.zeroExtend 64) 0 0 0
  | .error code => State.complete { s with t := UnitT.reset } 0 code

/-- The atomic block of DEALLOC.T (R248). -/
def deallocTBody (_ : Latch) (s : State) : State := State.complete { s with t := UnitT.reset } 1 .ok

/-- The atomic block of RESET.T (R249): only the bounds register. -/
def resetTBody (_ : Latch) (s : State) : State :=
  State.complete { s with t := { UnitT.reset with fs := s.t.fs } } 1 .ok

/-- ALLOC.T (R247). -/
def execAllocT (s : State) : Res :=
  match s.cur.act with
  | .idle => issueCfg .allocT allocTBody s
  | .busy _ _ => .fault .foreignPosition

/-- DEALLOC.T (R248). -/
def execDeallocT (s : State) : Res :=
  match s.cur.act with
  | .idle => issueCfg .deallocT deallocTBody s
  | .busy _ _ => .fault .foreignPosition

/-- RESET.T (R249). -/
def execResetT (s : State) : Res :=
  match s.cur.act with
  | .idle => issueCfg .resetT resetTBody s
  | .busy _ _ => .fault .foreignPosition

/-! ### GETTB.T (R246) -/

/-- The completing block of GETTB.T (R246). -/
def finishGettb (r : Option (U64 × U64)) (s : State) : State :=
  match r with
  | some x => s.completeWith 1 .ok x.1 x.2 0 0
  | none => s.reject .retry

/-- GETTB.T (R246): the check, ReadBounds, and the completing block. -/
def execGettbT (s : State) : Res :=
  match s.cur.act with
  | .idle => issueData .gettbT s
  | .busy ops .start =>
    if s.t.fs.cap = 0 then .next (s.reject .unalloc) else .next (s.goto ops (.read [] 0 .count))
  | .busy ops (.read es tries st) => readBounds ops es tries st (fun r t => t.goto ops (.got r)) s
  | .busy _ (.got r) => .next (finishGettb r s)
  | .busy _ _ => .fault .foreignPosition

/-! ### WRITE.T (R250 to R259) -/

/-- The validating block of WRITE.T (R250). -/
def validateWriteT (ops : Latch) (s : State) : State :=
  if s.t.fs.cap = 0 then s.reject .unalloc
  else if ops.addr = 0 then s.reject .arg
  else if ops.rangeOk s.t.fs.cap then
    s.goto ops (fetchPos s.t.fs.ch (timePos s.t.fs.mask ops.time) ops.count [])
  else s.reject .arg

/-- WRITE.T's position before byte `i` of channel `c` of the copy of `n` bytes a channel (R256); past the last byte the
final publish begins (R257). -/
def fillPos (ch : U32) (n : Nat) (es : List Entry) (cs ce : Int) (c i : Nat) : Pos :=
  if n = 0 then .pub es cs ce true .upd
  else if c < ch.toNat then .fill es cs c i
  else .pub es cs ce true .upd

/-- The frames of the gap `[ce, t)` (R255); none when `t <= ce`. -/
def gapFrames (ops : Latch) (ce : Int) : Nat := (ops.time - ce).toNat

/-- WRITE.T's position before byte `i` of channel `c` of the gap, or of the copy when there is no gap or it is done
(R255, R256). -/
def gapPos (fs : FrameStore) (ops : Latch) (es : List Entry) (cs ce : Int) (c i : Nat) : Pos :=
  if fs.bytes (gapFrames ops ce) = 0 then fillPos fs.ch (fs.bytes ops.frames) es cs ce 0 0
  else if c < fs.ch.toNat then .gap es cs ce c i
  else fillPos fs.ch (fs.bytes ops.frames) es cs ce 0 0

/-- The three cases of WRITE.T from the bounds `(cs, ce)` (R250 to R254): rewind and overrun publish the adjusted
bounds first, a write that fits publishes nothing yet. -/
def adjustBounds (fs : FrameStore) (ops : Latch) (es : List Entry) (cs ce : Int) : Pos :=
  if ops.time < ce then .pub es ops.time ops.time false .upd
  else if ops.endTime - cs ≤ (fs.cap.toNat : Int) then gapPos fs ops es cs ce 0 0
  else
    .pub es (ops.endTime - (fs.cap.toNat : Int)) (max (ops.endTime - (fs.cap.toNat : Int)) ce) false .upd

/-- The pair a Publish of WRITE.T writes (R250): the adjusted bounds, or at the end `(cs, endT)`. -/
def publishPair (ops : Latch) (cs ce : Int) (last : Bool) : Int × Int :=
  if last then (cs, ops.endTime) else (cs, ce)

/-- WRITE.T's position after a Publish (R250). -/
def afterPublish (fs : FrameStore) (ops : Latch) (es : List Entry) (cs ce : Int) (last : Bool) : Pos :=
  if last then .fin else gapPos fs ops es cs ce 0 0

/-- One step of a Publish of WRITE.T (R243, R250). -/
def publishStepT (ops : Latch) (es : List Entry) (cs ce : Int) (last : Bool) (st : PubStage) (s : State) : State :=
  let r := publishStep s.t (publishPair ops cs ce last).1 (publishPair ops cs ce last).2 st
  State.goto { s with t := r.1 } ops
    (match r.2 with
     | some st' => .pub es cs ce last st'
     | none => afterPublish s.t.fs ops es cs ce last)

/-- Write one storage byte of unit T. -/
def setByteT (s : State) (i : Nat) (v : Byte) : State := { s with t := { s.t with fs := s.t.fs.setByte i v } }

/-- WRITE.T (R250): validate, fetch the list, check it, read the bounds, adjust them, zero the gap, copy, publish,
complete. -/
def execWriteT (s : State) : Res :=
  match s.cur.act with
  | .idle => issueData .writeT s
  | .busy ops .start => .next (validateWriteT ops s)
  | .busy ops (.fetch p k es ptr) => fetchStep s.t.fs.ch ops p k es ptr s
  | .busy ops (.fits _ _ es) =>
    if listFits es (s.t.fs.bytes ops.frames) then .next (s.goto ops (.bounds es)) else .next (s.reject .arg)
  | .busy ops (.bounds es) => .next (s.goto ops (adjustBounds s.t.fs ops es s.t.bounds.1 s.t.bounds.2))
  | .busy ops (.pub es cs ce last st) => .next (publishStepT ops es cs ce last st s)
  | .busy ops (.gap es cs ce c i) =>
    .next ((setByteT s (s.t.fs.offset c (timePos s.t.fs.mask ce) i) 0).goto ops
      (gapPos s.t.fs ops es cs ce (nextByte (s.t.fs.bytes (gapFrames ops ce)) c i).1
        (nextByte (s.t.fs.bytes (gapFrames ops ce)) c i).2))
  | .busy ops (.fill es cs c i) =>
    guarded s (bufferAddr es c i) 1
      ((setByteT s (s.t.fs.offset c (timePos s.t.fs.mask ops.time) i) (s.clientByte (bufferAddr es c i))).goto ops
        (fillPos s.t.fs.ch (s.t.fs.bytes ops.frames) es cs ops.time (nextByte (s.t.fs.bytes ops.frames) c i).1
          (nextByte (s.t.fs.bytes ops.frames) c i).2))
  | .busy _ .fin => .next (s.complete 1 .ok)
  | .busy _ _ => .fault .foreignPosition

/-! ### READ.T (R260 to R265) -/

/-- The validating block of READ.T (R260): a zero count succeeds before every argument is looked at (R261). -/
def validateReadT (ops : Latch) (s : State) : State :=
  if s.t.fs.cap = 0 then s.reject .unalloc
  else if ops.count = 0 then s.complete 1 .ok
  else if ops.addr = 0 then s.reject .arg
  else if ops.rangeOk s.t.fs.cap then
    s.goto ops (fetchPos s.t.fs.ch (timePos s.t.fs.mask ops.time) ops.count [])
  else s.reject .arg

/-- The clamp of the requested range against the bounds `(b, e)` (R260, R262, R263); no overlap is `n` frames of
silence. -/
def clip (mask : U32) (ops : Latch) (b e : Int) : Clip :=
  if min ops.endTime e ≤ max ops.time b then { pos := 0, lead := ops.frames, ov := 0 }
  else
    { pos := timePos mask (max ops.time b)
      lead := (max ops.time b - ops.time).toNat
      ov := (min ops.endTime e - max ops.time b).toNat }

/-- READ.T's position before byte 0 of channel `c` of the output (R260); past the last channel it completes. -/
def outPos (ch : U32) (es : List Entry) (w : Clip) (c : Nat) : Pos :=
  if c < ch.toNat then .out es w c 0 else .fin

/-- Byte `i` of channel `c` of the output of READ.T (R260): silence before the clamped start and after the clamped
end, storage between. -/
def outByte (fs : FrameStore) (w : Clip) (c i : Nat) : Byte :=
  if i < fs.bytes w.lead then 0
  else if i < fs.bytes (w.lead + w.ov) then fs.byte (fs.offset c w.pos (i - fs.bytes w.lead))
  else 0

/-- Where READ.T goes when ReadBounds has answered (R260): to the output, or to its rejection. -/
def afterReadBounds (ops : Latch) (es : List Entry) (r : Option (U64 × U64)) (s : State) : State :=
  match r with
  | some (b, e) => s.goto ops (outPos s.t.fs.ch es (clip s.t.fs.mask ops b.toInt e.toInt) 0)
  | none => s.goto ops (.got none)

/-- READ.T (R260): validate, fetch the list, check it, ReadBounds, then for each channel its bytes and its report,
then complete. -/
def execReadT (s : State) : Res :=
  match s.cur.act with
  | .idle => issueData .readT s
  | .busy ops .start => .next (validateReadT ops s)
  | .busy ops (.fetch p k es ptr) => fetchStep s.t.fs.ch ops p k es ptr s
  | .busy ops (.fits _ _ es) =>
    if listFits es (s.t.fs.bytes ops.frames) then .next (s.goto ops (.read es 0 .count)) else .next (s.reject .arg)
  | .busy ops (.read es tries st) => readBounds ops es tries st (afterReadBounds ops es) s
  | .busy _ (.got none) => .next (s.reject .retry)
  | .busy ops (.out es w c i) =>
    if i < s.t.fs.bytes ops.frames then
      guarded s (bufferAddr es c i) 1
        ((s.setClientByte (bufferAddr es c i) (outByte s.t.fs w c i)).goto ops (.out es w c (i + 1)))
    else
      reportStep ops c (s.t.fs.bytes w.ov) (fun t => t.goto ops (outPos s.t.fs.ch es w (c + 1))) s
  | .busy _ .fin => .next (s.complete 1 .ok)
  | .busy _ _ => .fault .foreignPosition

end Sys2Proof.Machine
end

