-- ==== Sys2Proof/Machine/Dispatch.lean ====
section
/-! DEFINITION. One arm per command: the next atomic step of that command on the port `turn`. -/

namespace Sys2Proof.Machine

def exec (i : Instr) (s : State) : Host.Outcome State Fault Refusal :=
  match i with
  | .allocB => Sys2Proof.Machine.execAllocB s
  | .deallocB => Sys2Proof.Machine.execDeallocB s
  | .resetB => Sys2Proof.Machine.execResetB s
  | .availrB => Sys2Proof.Machine.execAvailrB s
  | .availwB => Sys2Proof.Machine.execAvailwB s
  | .readB ap => Sys2Proof.Machine.execReadB ap s
  | .peekB ap => Sys2Proof.Machine.execPeekB ap s
  | .writeB ap => Sys2Proof.Machine.execWriteB ap s
  | .advrB => Sys2Proof.Machine.execAdvrB s
  | .advwB => Sys2Proof.Machine.execAdvwB s
  | .rvecB => Sys2Proof.Machine.execRvecB s
  | .wvecB => Sys2Proof.Machine.execWvecB s
  | .allocF => Sys2Proof.Machine.execAllocF s
  | .deallocF => Sys2Proof.Machine.execDeallocF s
  | .resetF => Sys2Proof.Machine.execResetF s
  | .availrF => Sys2Proof.Machine.execAvailrF s
  | .availwF => Sys2Proof.Machine.execAvailwF s
  | .readF ap => Sys2Proof.Machine.execReadF ap s
  | .writeF ap => Sys2Proof.Machine.execWriteF ap s
  | .allocT => Sys2Proof.Machine.execAllocT s
  | .deallocT => Sys2Proof.Machine.execDeallocT s
  | .resetT => Sys2Proof.Machine.execResetT s
  | .readT => Sys2Proof.Machine.execReadT s
  | .writeT => Sys2Proof.Machine.execWriteT s
  | .gettbT => Sys2Proof.Machine.execGettbT s

end Sys2Proof.Machine
end

