-- ==== Sys2Proof/Machine/Turn.lean ====
section
/-! DEFINITION. The steps of R80 in terms of `exec`: a port's turn, the write of CMD, a client's store. -/

namespace Sys2Proof.Machine

/-- A step of port `q` (R50, R80): the next atomic step of the command in its CMD register; none when it is idle. -/
def portTurn (q : PortId) (s : State) : Res :=
  match (s.port q).act with
  | .idle => .next s
  | .busy _ _ =>
    match decode (s.port q).cmd with
    | .ok i => exec i { s with turn := q }
    | .error _ => .fault .foreignPosition

/-- A client's 32-bit write of CMD (R43): ignored while the port is busy; otherwise the word is issued. -/
def writeCmd (q : PortId) (w : U32) (s : State) : Res :=
  match (s.port q).act with
  | .busy _ _ => .next s
  | .idle =>
    match decode w with
    | .ok i => exec i { s with turn := q }
    | .error _ => issueIllegal w { s with turn := q }

/-- A client's store (R41 to R43, R66, R80). -/
def clientStore (a : U64) (n : Width) (v : U64) (s : State) : Res :=
  match target s.plat a with
  | .block q off =>
    match blockStore off n v with
    | .issue w => writeCmd q w s
    | .write r => .next (s.setPort q ((s.port q).write r v))
    | .ignored => .next s
    | .shape => .refused .portAccessShape
  | .memory => clientStoreMemory a n v s

/-- One entry of the schedule (R80). -/
def runInput (x : Input) (s : State) : Res :=
  match x with
  | .turn q => portTurn q s
  | .store a n v => clientStore a n v s
  | .load a n => clientLoad a n s
  | .reset => .next (hardReset s)

/-- When no entry is left: the next busy port in turn takes its step, and nothing happens when all are idle
(R331, assumption log 3). -/
def runOn (s : State) : Res :=
  match nextBusy s with
  | some q => portTurn q s
  | none => .next s

/-- `n` steps of one command on the port `turn`, no other agent between them: what a command does from the position
its port stands at (R84). -/
def execTimes : Nat → Instr → State → Res
  | 0, _, s => .next s
  | n + 1, i, s =>
    match exec i s with
    | .next t => execTimes n i t
    | .fault r => .fault r
    | .refused r => .refused r

end Sys2Proof.Machine
end

