-- ==== Sys2Proof/Machine/Step.lean ====
section
/-! DEFINITION. One step of the machine: the next entry of the global order of steps (20_memory.md R80). -/

namespace Sys2Proof.Machine

/-- One step (R80): the first entry of the schedule, or, when none is left, the next busy port's own step. -/
def step (s : State) : Host.Outcome State Fault Refusal :=
  match s.inputs with
  | [] => runOn s
  | x :: rest => runInput x { s with inputs := rest }

/-- The word `w` placed where the next step takes its command from: a client's write of the CMD register of a port that
accepts it (R43, R50). -/
def State.withFetchWord (s : State) (nbits w : Nat) : State :=
  placeCommand s (BitVec.ofNat 32 (w % 2 ^ nbits))

end Sys2Proof.Machine
end

