-- ==== Sys2Proof/Safety.lean ====
section
/-! DEFINITION. What claims about RBC speak of: what a step may change (frames), what a completion leaves, and the
invariants of a run. -/

namespace Sys2Proof.Machine

/-! ### Frames -/

/-- Nothing changed but, perhaps, the units, client memory and the issuing port. -/
structure SameElsewhere (s t : State) : Prop where
  plat : t.plat = s.plat
  inputs : t.inputs = s.inputs
  turn : t.turn = s.turn
  loaded : t.loaded = s.loaded
  ports : ∀ q, q ≠ s.turn → t.port q = s.port q

/-- The three units and client memory are as they were: no control field, no storage byte changed, and every client
address reads as before. -/
structure SameUnits (s s' : State) : Prop where
  b : s'.b = s.b
  f : s'.f = s.f
  t : s'.t = s.t
  cm : s'.cm = s.cm
  bytes : ∀ a, s'.clientByte a = s.clientByte a

/-- Of the units and client memory nothing but unit B changed; a client address that the window shows neither before nor
after reads as before. -/
structure OnlyUnitB (s s' : State) : Prop where
  f : s'.f = s.f
  t : s'.t = s.t
  cm : s'.cm = s.cm
  bytes : ∀ a, s.windowOffset a = none → s'.windowOffset a = none → s'.clientByte a = s.clientByte a

/-- Of the units and client memory nothing but unit F changed. -/
structure OnlyUnitF (s s' : State) : Prop where
  b : s'.b = s.b
  t : s'.t = s.t
  cm : s'.cm = s.cm
  bytes : ∀ a, s'.clientByte a = s.clientByte a

/-- Of the units and client memory nothing but unit T changed. -/
structure OnlyUnitT (s s' : State) : Prop where
  b : s'.b = s.b
  f : s'.f = s.f
  cm : s'.cm = s.cm
  bytes : ∀ a, s'.clientByte a = s.clientByte a

/-- Units F and T are as they were, and so is unit B but for what the window shows: what is left when a command of unit
F or T has written client bytes only. -/
structure ClientOnly (s s' : State) : Prop where
  b : s'.b = { s.b with st := s'.b.st }
  f : s'.f = s.f
  t : s'.t = s.t

/-- The issuing port has completed (R14): CMD holds `cmd`, RET, `STATUS.CODE` and RES0 to RES3 the given values, BUSY is
0, the operand registers are as before, and no other port changed. -/
structure Completed (s t : State) (cmd ret : U32) (code : BitVec 8) (r0 r1 r2 r3 : U64) : Prop where
  elsewhere : SameElsewhere s t
  port : t.port s.turn =
    { s.port s.turn with
      cmd := cmd, ret := ret, code := code, res0 := r0, res1 := r1, res2 := r2, res3 := r3, act := .idle }

/-- The issuing port is busy at the step `pos` (R47, R50), its registers as before, and no other port changed. -/
structure StandsAt (s t : State) (ops : Latch) (pos : Pos) : Prop where
  elsewhere : SameElsewhere s t
  port : t.port s.turn = { s.port s.turn with act := .busy ops pos }

/-- The `n` client bytes from `a` up can be accessed by RBC: all are admitted (R68) and none is inside a register block
(U5). -/
def State.reachable (s : State) (a : U64) (n : Nat) : Prop :=
  ∀ i, i < n → s.admits (a + BitVec.ofNat 64 i) = true ∧ blockAt s.plat (a + BitVec.ofNat 64 i) = none

/-- The `n` client bytes from `a` up are client memory, not bytes of the open window. -/
def State.outsideWindow (s : State) (a : U64) (n : Nat) : Prop :=
  ∀ i, i < n → s.windowOffset (a + BitVec.ofNat 64 i) = none

/-- The address is one of the `n` from `a` up (R67). -/
def inRun (a : U64) (n : Nat) (x : U64) : Prop := ∃ i, i < n ∧ x = a + BitVec.ofNat 64 i

/-- The `n` client bytes from `a` up were written, byte `i` with `v i`, and every other client address reads as
before. -/
structure ClientWrite (s s' : State) (a : U64) (n : Nat) (v : Nat → Byte) : Prop where
  only : ClientOnly s s'
  written : ∀ i, i < n → s'.clientByte (a + BitVec.ofNat 64 i) = v i
  others : ∀ x, ¬ inRun a n x → s'.clientByte x = s.clientByte x

/-- One storage byte of unit B was written and nothing else. -/
structure StorageWriteB (s s' : State) (o : Nat) (v : Byte) : Prop where
  control : s'.b = { s.b with st := s'.b.st }
  written : s'.b.byte o = v
  others : ∀ j, j ≠ o → s'.b.byte j = s.b.byte j
  f : s'.f = s.f
  t : s'.t = s.t
  cm : s'.cm = s.cm
  bytes : ∀ a, s.windowOffset a ≠ some o → s'.clientByte a = s.clientByte a

/-- One storage byte of a frame storage was written and nothing else of it. -/
structure FrameWrite (fs fs' : FrameStore) (o : Nat) (v : Byte) : Prop where
  control : fs' = { fs with st := fs'.st }
  written : fs'.byte o = v
  others : ∀ j, j ≠ o → fs'.byte j = fs.byte j

/-! ### The command map (30_encoding.md R104), written out apart from the decoder -/

/-- One row of R104. -/
structure CommandRow where
  opcode : BitVec 8
  unit : UnitId
  word : U32
  hasAp : Bool
  roles : List Role
  cmd : Bool → Instr

/-- The mask of a row: without AP `0xFFFFFFFF`, with AP `0xFFFFFBFF` (R104). -/
def CommandRow.mask (r : CommandRow) : U32 := if r.hasAp then 0xFFFFFBFF else 0xFFFFFFFF

/-- The number of a unit in the UNIT field (R100). -/
def unitNumber : UnitId → Nat
  | .b => 0
  | .f => 1
  | .t => 2

/-- R104's rows of unit B. -/
def rowsB : List CommandRow :=
  [⟨0x01, .b, 0x00000001, false, [.cfg], fun _ => .allocB⟩,
   ⟨0x02, .b, 0x00000002, false, [.cfg], fun _ => .deallocB⟩,
   ⟨0x03, .b, 0x00000003, false, [.cfg], fun _ => .resetB⟩,
   ⟨0x04, .b, 0x00000004, false, [.prod, .cons], fun _ => .availrB⟩,
   ⟨0x05, .b, 0x00000005, false, [.prod, .cons], fun _ => .availwB⟩,
   ⟨0x06, .b, 0x00000006, true, [.cons], .readB⟩,
   ⟨0x07, .b, 0x00000007, true, [.cons], .peekB⟩,
   ⟨0x08, .b, 0x00000008, true, [.prod], .writeB⟩,
   ⟨0x09, .b, 0x00000009, false, [.cons], fun _ => .advrB⟩,
   ⟨0x0A, .b, 0x0000000A, false, [.prod], fun _ => .advwB⟩,
   ⟨0x0B, .b, 0x0000000B, false, [.cons], fun _ => .rvecB⟩,
   ⟨0x0C, .b, 0x0000000C, false, [.prod], fun _ => .wvecB⟩]

/-- R104's rows of units F and T. -/
def rowsFT : List CommandRow :=
  [⟨0x01, .f, 0x00000101, false, [.cfg], fun _ => .allocF⟩,
   ⟨0x02, .f, 0x00000102, false, [.cfg], fun _ => .deallocF⟩,
   ⟨0x03, .f, 0x00000103, false, [.cfg], fun _ => .resetF⟩,
   ⟨0x04, .f, 0x00000104, false, [.prod, .cons], fun _ => .availrF⟩,
   ⟨0x05, .f, 0x00000105, false, [.prod, .cons], fun _ => .availwF⟩,
   ⟨0x06, .f, 0x00000106, true, [.cons], .readF⟩,
   ⟨0x08, .f, 0x00000108, true, [.prod], .writeF⟩,
   ⟨0x01, .t, 0x00000201, false, [.cfg], fun _ => .allocT⟩,
   ⟨0x02, .t, 0x00000202, false, [.cfg], fun _ => .deallocT⟩,
   ⟨0x03, .t, 0x00000203, false, [.cfg], fun _ => .resetT⟩,
   ⟨0x06, .t, 0x00000206, false, [.cons], fun _ => .readT⟩,
   ⟨0x08, .t, 0x00000208, false, [.prod], fun _ => .writeT⟩,
   ⟨0x0D, .t, 0x0000020D, false, [.prod, .cons], fun _ => .gettbT⟩]

/-- R104's 25 rows. -/
def commandRows : List CommandRow := rowsB ++ rowsFT

/-- `CAP` of a unit. -/
def State.unitCap (s : State) : UnitId → U32
  | .b => s.b.cap
  | .f => s.f.fs.cap
  | .t => s.t.fs.cap

/-- A command that runs on PROD or CONS (R104). -/
def isData (i : Instr) : Bool := decide (rolesOf i ≠ [.cfg])

/-- The three ALLOC commands, whose failure releases the unit (R295). -/
def isAlloc (i : Instr) : Bool := decide (i = .allocB ∨ i = .allocF ∨ i = .allocT)

/-- The commands with a buffer list (R71). -/
def usesList (i : Instr) : Bool :=
  match i with
  | .readF _ | .writeF _ | .readT | .writeT => true
  | _ => false

/-- `CH` of a unit; unit B has no channels. -/
def State.unitChannels (s : State) : UnitId → U32
  | .b => 0
  | .f => s.f.fs.ch
  | .t => s.t.fs.ch

/-- The AP bit, the available count and the ring position the sample step of a copying command finds (R140). -/
def sampling (i : Instr) (s : State) : Option (Bool × U32 × U32) :=
  match i with
  | .readB ap | .peekB ap => some (ap, availR s.b.mask s.b.rpos s.b.wpos, s.b.rpos)
  | .writeB ap => some (ap, availW s.b.mask s.b.rpos s.b.wpos, s.b.wpos)
  | .readF ap => some (ap, availR s.f.fs.mask s.f.rptr s.f.wptr, s.f.rptr)
  | .writeF ap => some (ap, availW s.f.fs.mask s.f.rptr s.f.wptr, s.f.wptr)
  | _ => none

/-! ### The client bytes a step needs -/

/-- WRITE.F, whose position at a byte has no report (R216). -/
def isWriteF (i : Instr) : Bool :=
  match i with
  | .writeF _ => true
  | _ => false

/-- The client bytes, a first address and a count, that the step of command `i` at a position accesses (R142, R143,
R204, R208); `none` for a step that accesses none. -/
def stepAccess (i : Instr) (s : State) (ops : Latch) (pos : Pos) : Option (U64 × Nat) :=
  match pos with
  | .xfer _ k n => if n < k.toNat then some (ops.addr + BitVec.ofNat 64 n, 1) else none
  | .fetch _ _ es none => some (entryAddr ops es.length, 8)
  | .fetch _ _ es (some _) => some (entryAddr ops es.length + 8, 8)
  | .move _ k es c n =>
    if n < s.f.fs.bytes k.toNat ∨ isWriteF i = true then some (bufferAddr es c n, 1)
    else some (entryAddr ops c + 16, 8)
  | .fill es _ c n => some (bufferAddr es c n, 1)
  | .out es _ c n =>
    if n < s.t.fs.bytes ops.frames then some (bufferAddr es c n, 1) else some (entryAddr ops c + 16, 8)
  | _ => none

/-- The positions from which a command writes: past every test that can reject it (R294). -/
def hasPassed (pos : Pos) : Bool :=
  match pos with
  | .xfer _ _ _ | .move _ _ _ _ _ | .publish _ _ | .pub _ _ _ _ _ | .gap _ _ _ _ _ | .fill _ _ _ _ | .out _ _ _ _
  | .fin => true
  | _ => false

/-! ### The buffer list a client hands over (20_memory.md R70, 70_reset_and_hazards.md R345) -/

/-- Entry `c` of the buffer list as it stands in client memory (R70, R204). -/
def State.listEntry (s : State) (ops : Latch) (c : Nat) : Entry :=
  { ptr := BitVec.ofNat 64 (s.memRead (entryAddr ops c) 8)
    capb := BitVec.ofNat 64 (s.memRead (entryAddr ops c + 8) 8) }

/-- The first `n` entries of the buffer list. -/
def State.listEntries (s : State) (ops : Latch) (n : Nat) : List Entry := (List.range n).map (s.listEntry ops)

/-- The list of `ch` entries can be accessed, and so can the `n` bytes of each of its buffers, which are that long. -/
structure ListReadable (s : State) (ops : Latch) (ch n : Nat) : Prop where
  entries : ∀ c, c < ch → s.reachable (entryAddr ops c) Config.bleBytes
  buffers : ∀ c, c < ch → s.reachable (s.listEntry ops c).ptr n
  fits : ∀ c, c < ch → n ≤ (s.listEntry ops c).capb.toNat

/-- R345: the buffers overlap neither each other nor the list. -/
structure ListApart (s : State) (ops : Latch) (ch n : Nat) : Prop where
  buffers : ∀ c c' i j, c < ch → c' < ch → i < n → j < n →
    (s.listEntry ops c).ptr + BitVec.ofNat 64 i = (s.listEntry ops c').ptr + BitVec.ofNat 64 j → c = c' ∧ i = j
  list : ∀ c c' i j, c < ch → c' < ch → i < n → j < Config.bleBytes →
    (s.listEntry ops c).ptr + BitVec.ofNat 64 i ≠ entryAddr ops c' + BitVec.ofNat 64 j

/-- What a READ with a buffer list leaves in client memory: byte `i` of channel `c`'s buffer is `data c i`, every
entry's reportedByteSize is `size`, and every other client address reads as before (R208, R215, R260). -/
structure Delivered (s s' : State) (ops : Latch) (ch n size : Nat) (data : Nat → Nat → Byte) : Prop where
  bytes : ∀ c i, c < ch → i < n → s'.clientByte ((s.listEntry ops c).ptr + BitVec.ofNat 64 i) = data c i
  sizes : ∀ c, c < ch → s'.memRead (entryAddr ops c + 16) 8 = size
  others : ∀ x, (∀ c, c < ch → ¬ inRun (s.listEntry ops c).ptr n x ∧ ¬ inRun (entryAddr ops c + 16) 8 x) →
    s'.clientByte x = s.clientByte x

/-! ### Capacities and storage (10_state.md R22 to R33) -/

/-- A capacity of R22: one of 2, 4, 8, …, `2^31`. -/
def isCapacity (c : U32) : Bool := (List.range 31).any fun n => decide (c.toNat = 2 ^ (n + 1))

/-- Unit B as R22 to R26 say: deallocated with all fields 0, or allocated within its pool with its mask, its cursors
below the capacity, and storage of exactly `B.CAP` bytes. -/
def UnitB.sound (store : Nat) (u : UnitB) : Bool :=
  if u.cap = 0 then decide (u = UnitB.reset u.gen)
  else
    isCapacity u.cap && decide (u.cap.toNat ≤ store) && decide (u.mask = u.cap - 1)
      && decide (u.rpos.toNat ≤ u.mask.toNat) && decide (u.wpos.toNat ≤ u.mask.toNat)
      && Memory.wf u.st && Memory.below u.st u.cap.toNat

/-- The storage of unit F or T as R27 to R32 and R62 say: deallocated with all fields 0, or allocated within its pool
with its mask, at least one channel and one byte a frame, and storage in canonical form inside the allocation. -/
def FrameStore.sound (store : Nat) (fs : FrameStore) : Bool :=
  if fs.cap = 0 then decide (fs = FrameStore.reset)
  else
    isCapacity fs.cap && decide (fs.mask = fs.cap - 1) && decide (1 ≤ fs.ch.toNat) && decide (1 ≤ fs.bpf.toNat)
      && decide (frameAllocSize fs.cap.toNat fs.ch.toNat fs.bpf.toNat ≤ store)
      && Memory.canonical fs.st
      && Memory.below fs.st (frameAllocSize fs.cap.toNat fs.ch.toNat fs.bpf.toNat)

/-- The pointer table of R30 stands in the storage: entry `c` is `base(c)`, little-endian. -/
def FrameStore.tableIntact (fs : FrameStore) : Prop :=
  ∀ c j, c < fs.ch.toNat → j < Config.ptrBytes →
    fs.byte (Config.ptrBytes * c + j) = leByte (regionBase fs.cap.toNat fs.ch.toNat fs.bpf.toNat c) j

/-- Unit F: its storage, and its cursors below the capacity (R29). -/
def UnitF.sound (store : Nat) (u : UnitF) : Bool :=
  u.fs.sound store && decide (u.rptr.toNat ≤ u.fs.mask.toNat) && decide (u.wptr.toNat ≤ u.fs.mask.toNat)

/-! ### Positions (10_state.md R47, R50) -/

/-- The positions of a command of one block (R163, R164, R168 to R171, R213, R214). -/
def oneBlockPos : Pos → Bool
  | .start => true
  | _ => false

/-- The positions of READ.B, PEEK.B, WRITE.B (R165 to R167). -/
def copyBPos : Pos → Bool
  | .start | .xfer _ _ _ => true
  | _ => false

/-- The positions of READ.F and WRITE.F (R215, R216). -/
def copyFPos : Pos → Bool
  | .start | .fetch _ _ _ _ | .fits _ _ _ | .move _ _ _ _ _ | .publish _ _ => true
  | _ => false

/-- The positions of GETTB.T (R246). -/
def gettbPos : Pos → Bool
  | .start | .read _ _ _ | .got _ => true
  | _ => false

/-- The positions of WRITE.T (R250). -/
def writeTPos : Pos → Bool
  | .start | .fetch _ _ _ _ | .fits _ _ _ | .bounds _ | .pub _ _ _ _ _ | .gap _ _ _ _ _ | .fill _ _ _ _ | .fin => true
  | _ => false

/-- The positions of READ.T (R260). -/
def readTPos : Pos → Bool
  | .start | .fetch _ _ _ _ | .fits _ _ _ | .read _ _ _ | .out _ _ _ _ | .fin => true
  | .got r => r.isNone
  | _ => false

/-- The positions a command has. A lifecycle command has none: it is wholly in its issue step (R109). -/
def posFits (i : Instr) (pos : Pos) : Bool :=
  match i with
  | .allocB | .deallocB | .resetB | .allocF | .deallocF | .resetF | .allocT | .deallocT | .resetT => false
  | .availrB | .availwB | .advrB | .advwB | .rvecB | .wvecB | .availrF | .availwF => oneBlockPos pos
  | .readB _ | .peekB _ | .writeB _ => copyBPos pos
  | .readF _ | .writeF _ => copyFPos pos
  | .gettbT => gettbPos pos
  | .writeT => writeTPos pos
  | .readT => readTPos pos

/-- The channel a position works on exists, and past its first block a command works on an allocated unit. -/
def posInRange (s : State) (u : UnitId) (pos : Pos) : Bool :=
  match pos with
  | .start => true
  | .move _ _ _ c _ => decide (s.unitCap u ≠ 0) && decide (c < s.f.fs.ch.toNat)
  | .gap _ _ _ c _ | .fill _ _ c _ | .out _ _ c _ => decide (s.unitCap u ≠ 0) && decide (c < s.t.fs.ch.toNat)
  | _ => decide (s.unitCap u ≠ 0)

/-- A port in order: its code one of R291, and, when it is busy, the word in CMD a command this port accepts (R108) whose
position it is at. -/
def portSound (q : PortId) (p : Port) : Bool :=
  decide (p.code.toNat ≤ 9) &&
    match p.act with
    | .idle => true
    | .busy _ pos =>
      match decode p.cmd with
      | .ok i => i.wellFormedOn q && posFits i pos
      | .error _ => false

/-- Every port is in order. -/
def PositionInv (s : State) : Prop := ∀ q, portSound q (s.port q) = true

/-- Every busy port's position is in range of its unit. -/
def RangeInv (s : State) : Prop := ∀ q ops pos, (s.port q).act = .busy ops pos → posInRange s q.unit pos = true

/-- The units and client memory are as the data model says. -/
structure StorageInv (s : State) : Prop where
  b : s.b.sound s.plat.storeB = true
  f : s.f.sound s.plat.storeF = true
  t : s.t.fs.sound s.plat.storeT = true
  cm : Memory.canonical s.cm = true

/-- The machine in order: what every step keeps. -/
structure MachineInv (s : State) : Prop where
  positions : PositionInv s
  ranges : RangeInv s
  storage : StorageInv s

/-! ### The bounds register (10_state.md R36, 43_timestamped_ring.md R258) -/

/-- A pair of bounds as R36 says: `0 <= start <= end`, `end - start <= T.CAP`, and no time above `2^63 - 1`. -/
def boundsSound (cap : U32) (lo hi : Int) : Prop :=
  0 ≤ lo ∧ lo ≤ hi ∧ hi - lo ≤ (cap.toNat : Int) ∧ hi ≤ Config.maxTime

/-- How far a Publish of `(lo, hi)` has written its slot (R243). -/
def slotProgress (u : UnitT) (lo hi : Int) (st : PubStage) : Prop :=
  match st with
  | .upd => True
  | .start nxt => nxt = u.tbcnt + 1 ∧ (u.slot nxt).upd = nxt
  | .stop nxt => nxt = u.tbcnt + 1 ∧ (u.slot nxt).upd = nxt ∧ (u.slot nxt).start = BitVec.ofInt 64 lo
  | .count nxt =>
    nxt = u.tbcnt + 1 ∧ (u.slot nxt).upd = nxt ∧ (u.slot nxt).start = BitVec.ofInt 64 lo
      ∧ (u.slot nxt).stop = BitVec.ofInt 64 hi

/-- The bounds a WRITE.T has worked out so far (R258), for its operands at a position. -/
def writerSound (u : UnitT) (ops : Latch) (pos : Pos) : Prop :=
  match pos with
  | .fetch _ _ _ _ | .fits _ _ _ | .bounds _ => ops.rangeOk u.fs.cap = true
  | .pub _ cs ce false st =>
    ops.rangeOk u.fs.cap = true ∧ boundsSound u.fs.cap cs ce ∧ ce ≤ ops.time
      ∧ ops.endTime - cs ≤ (u.fs.cap.toNat : Int) ∧ slotProgress u cs ce st
  | .pub _ cs _ true st => boundsSound u.fs.cap cs ops.endTime ∧ slotProgress u cs ops.endTime st
  | .gap _ cs ce _ _ =>
    ops.rangeOk u.fs.cap = true ∧ 0 ≤ cs ∧ cs ≤ ce ∧ ce ≤ ops.time ∧ ops.endTime - cs ≤ (u.fs.cap.toNat : Int)
  | .fill _ cs _ _ =>
    ops.rangeOk u.fs.cap = true ∧ 0 ≤ cs ∧ cs ≤ ops.time ∧ ops.endTime - cs ≤ (u.fs.cap.toNat : Int)
  | _ => True

/-- The bounds register in order: the current pair is a pair of bounds, its slot carries the counter's value, and a
WRITE.T in flight will publish pairs of bounds only. -/
structure BoundsInv (s : State) : Prop where
  current : boundsSound s.t.fs.cap s.t.bounds.1 s.t.bounds.2
  counter : (s.t.slot s.t.tbcnt).upd = s.t.tbcnt
  writer : ∀ ops pos, (s.port ⟨.t, .prod⟩).act = .busy ops pos → decode (s.port ⟨.t, .prod⟩).cmd = .ok .writeT →
    writerSound s.t ops pos

/-- What an attempt of ReadBounds has read agrees with the slot it reads, as long as the slot's counter is still the one
the attempt began with (R244). -/
def attemptSound (u : UnitT) (st : ReadStage) : Prop :=
  match st with
  | .count => True
  | .start _ => True
  | .stop c s => (u.slot c).upd = c → (u.slot c).start = s
  | .upd c s e => (u.slot c).upd = c → (u.slot c).start = s ∧ (u.slot c).stop = e

/-- The counter value an attempt began with. -/
def attemptCounter : ReadStage → Option U32
  | .count => none
  | .start c => some c
  | .stop c _ => some c
  | .upd c _ _ => some c

/-- Every bounds read in flight is sound (R244). -/
def SnapshotInv (s : State) : Prop :=
  ∀ q ops es tries st, q.unit = .t → (s.port q).act = .busy ops (.read es tries st) → attemptSound s.t st

/-- R244's premise, one step of it: the next publication is not the one an attempt in flight began with, `2^32`
publications later. -/
def NoCounterWrap (s : State) : Prop :=
  ∀ q ops es tries st c, q.unit = .t → (s.port q).act = .busy ops (.read es tries st) →
    attemptCounter st = some c → s.t.tbcnt + 1 ≠ c

end Sys2Proof.Machine
end

