-- ==== Sys2Proof/Certificates/Slice0/Obligations.lean ====
section
/-! DEFINITION. The statements for the provers: what the numbered rules of spec/ say that RBC does. `exec i s` is the
next atomic step of command `i` on the port `s.turn`; `s.cur` is that port. -/

section

open Sys2Proof Sys2Proof.Machine

/-! ### Encoding (30_encoding.md) -/

/-- The decoder reads a command from exactly the word the encoder writes for it, from the word and from its four bytes
(R100, R101, R104, R111). -/
def Obligations.DecodeIsEncode : Prop :=
  (∀ (w : U32) (i : Instr), decode w = .ok i ↔ w = encode i)
    ∧ (∀ w : U32, decodeBytes (wordBytes w) = decode w)
    ∧ ∀ bs : List Byte, bs.length ≠ 4 → decodeBytes bs = .error .notOneWord

/-- R104: a word selects the row with `w & mask = match`, and the rows are disjoint; the match is made of OPCODE and
UNIT; the row's ports are those that accept the command. -/
def Obligations.CommandMap : Prop :=
  (∀ (w : U32) (i : Instr), decode w = .ok i ↔
      ∃ r ∈ commandRows, w &&& r.mask = r.word ∧ i = r.cmd (r.hasAp && apField w))
    ∧ (∀ w : U32, ∀ r ∈ commandRows, ∀ r' ∈ commandRows,
        w &&& r.mask = r.word → w &&& r'.mask = r'.word → r.word = r'.word)
    ∧ commandRows.length = 25
    ∧ (∀ r ∈ commandRows, r.word = r.opcode.zeroExtend 32 ||| BitVec.ofNat 32 (unitNumber r.unit) <<< 8)
    ∧ ∀ r ∈ commandRows, ∀ (ap : Bool) (q : PortId),
        (r.cmd ap).wellFormedOn q = true ↔ q.unit = r.unit ∧ q.role ∈ r.roles

/-- A few words of R104 decode to their commands. -/
def Obligations.SampleWords : Prop :=
  decode 0x00000001 = .ok .allocB ∧ decode 0x00000406 = .ok (.readB true) ∧ decode 0x00000008 = .ok (.writeB false)
    ∧ decode 0x00000101 = .ok .allocF ∧ decode 0x00000508 = .ok (.writeF true) ∧ decode 0x00000206 = .ok .readT
    ∧ decode 0x0000020D = .ok .gettbT

/-- R110: a word that is no row of R104, or a row of another unit than the port's, is rejected with E_ILLEGAL and has no
other effect; among the words that are no row are the classes R105 and R110 name. -/
def Obligations.IllegalWords : Prop :=
  (∀ (s : State) (q : PortId) (w : U32), (s.port q).act = .idle → (∀ i, decode w = .ok i → unitOf i ≠ q.unit) →
      ∃ t, writeCmd q w s = .next t ∧ Completed { s with turn := q } t w 0 1 0 0 0 0 ∧ SameUnits s t)
    ∧ (∀ w : U32, opcodeField w = 0 ∨ 0x0E ≤ (opcodeField w).toNat ∨ unitField w = 3 ∨ zeroField w ≠ 0 →
        ∀ i, decode w ≠ .ok i)
    ∧ (∀ w : U32, apField w = true →
        opcodeField w ≠ 0x06 ∧ opcodeField w ≠ 0x07 ∧ opcodeField w ≠ 0x08 ∨ unitField w = 2 → ∀ i, decode w ≠ .ok i)
    ∧ (∀ w : U32, unitField w ≠ 0 →
        opcodeField w = 0x07 ∨ 0x09 ≤ (opcodeField w).toNat ∧ (opcodeField w).toNat ≤ 0x0C → ∀ i, decode w ≠ .ok i)
    ∧ (∀ w : U32, unitField w = 2 → opcodeField w = 0x04 ∨ opcodeField w = 0x05 → ∀ i, decode w ≠ .ok i)
    ∧ ∀ w : U32, unitField w ≠ 2 → opcodeField w = 0x0D → ∀ i, decode w ≠ .ok i

/-! ### The step, the registers, reset (10_state.md, 20_memory.md, 70_reset_and_hazards.md) -/

/-- A step runs the decoded command: the client's write of CMD on an idle port issues it; a busy port's turn takes its
next step; with no schedule left (assumption log 3) the next busy port takes its turn. `turn` becomes that port and the
entry of the schedule is used up; nothing else is added to `exec`. -/
def Obligations.StepRunsTheCommand : Prop :=
  (∀ (s : State) (a v : U64) (rest : List Input) (q : PortId) (i : Instr),
      s.inputs = .store a .w32 v :: rest → target s.plat a = .block q 0 → (s.port q).act = .idle →
      decode (v.truncate 32) = .ok i → step s = exec i { s with inputs := rest, turn := q })
    ∧ (∀ (s : State) (rest : List Input) (q : PortId) (i : Instr) (ops : Latch) (pos : Pos),
        s.inputs = .turn q :: rest → (s.port q).act = .busy ops pos → decode (s.port q).cmd = .ok i →
        step s = exec i { s with inputs := rest, turn := q })
    ∧ ∀ (s : State) (q : PortId) (i : Instr), s.inputs = [] → nextBusy s = some q → decode (s.port q).cmd = .ok i →
        step s = exec i { s with turn := q }

/-- On a platform in order (R76) byte `off` of a port's block is that port's (R41); a register fills its offsets; and a
word placed for the next step is issued by it on a port that accepts it, made idle (log 3). -/
def Obligations.RegisterBlocks : Prop :=
  (∀ (p : Platform) (q : PortId) (off : Nat), p.wellFormed = true → off < Config.blockBytes →
      target p (portBase p q + BitVec.ofNat 64 off) = .block q off)
    ∧ (∀ (r : Reg) (j : Nat), j < regBytes r → regAt (regOffset r + j) = r)
    ∧ ∀ (s : State) (w : U32) (i : Instr), s.plat.wellFormed = true → decode w = .ok i →
        i.wellFormedOn (portFor i) = true
          ∧ step (s.withFetchWord 32 w.toNat) =
              exec i { s.setPort (portFor i) { s.port (portFor i) with act := .idle } with turn := portFor i }

/-- The client's accesses of whole registers (R41, R42, R43, R44, R48): a load returns the register and changes nothing
of RBC; a store to COUNT, ADDR or AUX writes that register alone, whatever the port is doing; a store to a read-only
register is ignored; a write of CMD to a busy port, or a narrower write of CMD, is ignored. -/
def Obligations.ClientRegisterAccess : Prop :=
  ∀ (s : State) (a : U64) (rest : List Input) (q : PortId) (r : Reg) (n : Width),
    target s.plat a = .block q (regOffset r) →
    (widthBytes n = regBytes r → s.inputs = .load a n :: rest →
      step s = .next { s with inputs := rest, loaded := (s.port q).read r })
    ∧ (∀ v : U64, widthBytes n = regBytes r → s.inputs = .store a n v :: rest → r = .count →
        ∃ t, step s = .next t ∧ SameUnits s t ∧ t.port q = { s.port q with count := v.truncate 32 }
          ∧ ∀ q', q' ≠ q → t.port q' = s.port q')
    ∧ (∀ v : U64, widthBytes n = regBytes r → s.inputs = .store a n v :: rest → r = .addr →
        ∃ t, step s = .next t ∧ SameUnits s t ∧ t.port q = { s.port q with addr := v }
          ∧ ∀ q', q' ≠ q → t.port q' = s.port q')
    ∧ (∀ v : U64, widthBytes n = regBytes r → s.inputs = .store a n v :: rest → r = .aux →
        ∃ t, step s = .next t ∧ SameUnits s t ∧ t.port q = { s.port q with aux := v }
          ∧ ∀ q', q' ≠ q → t.port q' = s.port q')
    ∧ (∀ v : U64, widthBytes n ≤ regBytes r → s.inputs = .store a n v :: rest → regWritable r = false →
        step s = .next { s with inputs := rest })
    ∧ (∀ (v : U64) (ops : Latch) (pos : Pos), widthBytes n = 4 → s.inputs = .store a n v :: rest → r = .cmd →
        (s.port q).act = .busy ops pos → step s = .next { s with inputs := rest })
    ∧ ∀ v : U64, widthBytes n < 4 → s.inputs = .store a n v :: rest → r = .cmd → step s = .next { s with inputs := rest }

/-- R45: STATUS[31] is BUSY, 1 from issue until completion; STATUS[7:0] is CODE, which no step but a completion changes;
STATUS[30:8] are 0. -/
def Obligations.StatusRegister : Prop :=
  (∀ p : Port, p.status.extractLsb' 0 8 = p.code ∧ p.status.extractLsb' 8 23 = 0
      ∧ (p.status.getLsbD 31 = true ↔ p.act ≠ .idle))
    ∧ ∀ (i : Instr) (s t : State), exec i s = .next t →
        (t.cur.act ≠ .idle → t.cur.code = s.cur.code) ∧ (s.cur.act = .idle → t.cur.act ≠ .idle → isData i = true)

/-- R55: after reset every unit is deallocated with all fields 0, no storage exists, every port is idle with all ten
registers 0. -/
def Obligations.ResetState : Prop :=
  State.reset.b.cap = 0 ∧ State.reset.b.mask = 0 ∧ State.reset.b.rpos = 0 ∧ State.reset.b.wpos = 0
    ∧ State.reset.b.st = []
    ∧ State.reset.f = { fs := { ch := 0, bpf := 0, cap := 0, mask := 0, st := [] }, rptr := 0, wptr := 0 }
    ∧ State.reset.t.fs = { ch := 0, bpf := 0, cap := 0, mask := 0, st := [] } ∧ State.reset.t.tbcnt = 0
    ∧ (∀ i : Fin 8, State.reset.t.tbq[i] = { start := 0, stop := 0, upd := 0 })
    ∧ ∀ q : PortId, (State.reset.port q).act = .idle ∧ (State.reset.port q).status = 0
        ∧ ∀ r : Reg, (State.reset.port q).read r = 0

/-- R330, R331: the reset input abandons every command and puts every unit and port into R55's state, client memory
unchanged; then RBC does nothing, with no schedule left or on the turn of any port, until a client writes CMD. What the
model's own fields become (log 12) is the model's choice. -/
def Obligations.ResetInput : Prop :=
  (∀ (s : State) (rest : List Input), s.inputs = .reset :: rest →
      ∃ t, step s = .next t ∧ t.b = UnitB.reset s.b.gen ∧ t.f = State.reset.f ∧ t.t = State.reset.t
        ∧ (∀ q, t.port q = State.reset.port q) ∧ t.cm = s.cm ∧ t.plat = s.plat ∧ t.inputs = rest)
    ∧ (∀ s : State, (∀ q, (s.port q).act = .idle) → s.inputs = [] → step s = .next s)
    ∧ ∀ (s : State) (q : PortId) (rest : List Input), (s.port q).act = .idle → s.inputs = .turn q :: rest →
        step s = .next { s with inputs := rest }

/-- R66: while unit B is allocated, a client's byte load at `WIN_BASE_B + i`, `i < B.CAP`, returns `B.ST[i]`, a byte
store writes `B.ST[i]` and nothing else, each as one step; at `i >= B.CAP` in the window's range there is no step. -/
def Obligations.WindowAccess : Prop :=
  ∀ (s : State) (i : Nat) (v : U64) (rest : List Input), s.plat.wellFormed = true → s.b.sound s.plat.storeB = true →
    i < min s.plat.storeB Config.maxCap →
    (i < s.b.cap.toNat → s.inputs = .load (s.plat.winBase + BitVec.ofNat 64 i) .w8 :: rest →
      step s = .next { s with inputs := rest, loaded := (s.b.byte i).zeroExtend 64 })
    ∧ (i < s.b.cap.toNat → s.inputs = .store (s.plat.winBase + BitVec.ofNat 64 i) .w8 v :: rest →
        ∃ t, step s = .next t ∧ StorageWriteB s t i (v.truncate 8) ∧ t.ports = s.ports)
    ∧ (s.b.cap.toNat ≤ i → s.inputs = .load (s.plat.winBase + BitVec.ofNat 64 i) .w8 :: rest →
        step s = .refused .windowClosed)
    ∧ (s.b.cap.toNat ≤ i → s.inputs = .store (s.plat.winBase + BitVec.ofNat 64 i) .w8 v :: rest →
        step s = .refused .windowClosed)

/-- A step that needs client bytes (R68, R310, U5): with one not admitted it is not enabled and the port stays where it
is (that a byte the closed window hides is one not admitted is the model's choice, log 18); with all admitted but one in a register block the model refuses (log 8); otherwise the step is taken, and the
state changes: no port waits for anything else. -/
def Obligations.AccessOutcomes : Prop :=
  ∀ (i : Instr) (s : State) (ops : Latch) (pos : Pos), s.cur.act = .busy ops pos → posFits i pos = true →
    (∀ a n j, stepAccess i s ops pos = some (a, n) → j < n → s.admits (a + BitVec.ofNat 64 j) = false →
      exec i s = .next s)
    ∧ (∀ a n j, stepAccess i s ops pos = some (a, n) → (∀ l, l < n → s.admits (a + BitVec.ofNat 64 l) = true) →
        j < n → blockAt s.plat (a + BitVec.ofNat 64 j) ≠ none → exec i s = .refused .bufferInPortBlock)
    ∧ ((∀ a n, stepAccess i s ops pos = some (a, n) → s.reachable a n) →
        ∃ t, exec i s = .next t ∧ SameElsewhere s t ∧ t.cur.act ≠ s.cur.act)

/-- R21: no step writes the parameters of the machine. That the schedule is used up from its front, one entry a step,
is the model's choice (assumption log 3) and no rule of the spec. -/
def Obligations.ParametersKept : Prop :=
  ∀ s t : State, step s = .next t → t.plat = s.plat ∧ t.inputs = s.inputs.tail

/-- R20: a command changes no control field, no storage byte and no port of another unit. A client buffer in the window
(R66, which R345 forbids) is the one way to unit B's storage; what is written there is all that can change. -/
def Obligations.UnitIndependence : Prop :=
  ∀ (i : Instr) (s t : State), exec i s = .next t →
    (unitOf i ≠ .f → t.f = s.f) ∧ (unitOf i ≠ .t → t.t = s.t) ∧ (unitOf i ≠ .b → t.b = { s.b with st := t.b.st })
      ∧ (unitOf i ≠ .b →
          (∀ ops pos a n, s.cur.act = .busy ops pos → stepAccess i s ops pos = some (a, n) → s.outsideWindow a n) →
          t.b = s.b)
      ∧ ∀ q, q ≠ s.turn → t.port q = s.port q

/-- R294: rejections are precise and side-effect free. A step of a data command that has not passed its tests, and goes
on, changes nothing but its port; a step after them can end only in OK, never in a rejection, and never goes back. Any
command but an ALLOC that completes with a code other than OK has changed nothing but its port. -/
def Obligations.PreciseRejections : Prop :=
  (∀ (i : Instr) (s t : State) (ops : Latch) (pos : Pos), s.cur.act = .busy ops pos → posFits i pos = true →
      exec i s = .next t →
      (hasPassed pos = false → t.cur.act ≠ .idle → SameUnits s t)
        ∧ (hasPassed pos = true → t.cur.act = .idle → t.cur.code = 0)
        ∧ (hasPassed pos = true → ∀ ops' pos', t.cur.act = .busy ops' pos' → hasPassed pos' = true))
    ∧ ∀ (i : Instr) (s t : State), isAlloc i = false → exec i s = .next t → t.cur.act = .idle → t.cur.code ≠ 0 →
        SameUnits s t ∧ t.cur.ret = 0 ∧ t.cur.res0 = 0 ∧ t.cur.res1 = 0 ∧ t.cur.res2 = 0 ∧ t.cur.res3 = 0

/-! ### Issue (R43, R106, R108, R109, R291) -/

/-- The issue step of every PROD and CONS command on a port that accepts it (R43): CMD, the latched operands, BUSY, and
nothing else; the command's first block is a later step. -/
def Obligations.DataIssue : Prop :=
  ∀ (i : Instr) (s : State), isData i = true → i.wellFormedOn s.turn = true → s.cur.act = .idle →
    ∃ t, exec i s = .next t ∧ SameElsewhere s t ∧ SameUnits s t
      ∧ t.cur = { s.cur with
          cmd := encode i, act := .busy { count := s.cur.count, addr := s.cur.addr, aux := s.cur.aux } .start }

/-- R108: the common checks, in order: E_ILLEGAL for a word that is no command and for another unit's command, E_PORT for a role that may not issue it,
E_BUSY for a lifecycle command while PROD or CONS of the unit is busy. Nothing but the port's registers changes. -/
def Obligations.CommonChecks : Prop :=
  ∀ (i : Instr) (s : State), s.cur.act = .idle →
    (unitOf i ≠ s.turn.unit →
      ∃ t, exec i s = .next t ∧ Completed s t (encode i) 0 1 0 0 0 0 ∧ SameUnits s t)
    ∧ (unitOf i = s.turn.unit → s.turn.role ∉ rolesOf i →
        ∃ t, exec i s = .next t ∧ Completed s t (encode i) 0 2 0 0 0 0 ∧ SameUnits s t)
    ∧ (unitOf i = s.turn.unit → s.turn.role ∈ rolesOf i → isData i = false →
        ((s.port ⟨unitOf i, .prod⟩).act ≠ .idle ∨ (s.port ⟨unitOf i, .cons⟩).act ≠ .idle) →
        ∃ t, exec i s = .next t ∧ Completed s t (encode i) 0 3 0 0 0 0 ∧ SameUnits s t)
    ∧ ∀ w : U32, (∀ i', decode w ≠ .ok i') →
        ∃ t, writeCmd s.turn w s = .next t ∧ Completed s t w 0 1 0 0 0 0 ∧ SameUnits s t

/-- Every data command on a deallocated unit is rejected with E_UNALLOC by its first block (R291, R333). -/
def Obligations.Unallocated : Prop :=
  ∀ (i : Instr) (s : State) (ops : Latch), isData i = true → s.cur.act = .busy ops .start →
    s.unitCap (unitOf i) = 0 → ∃ t, exec i s = .next t ∧ Completed s t s.cur.cmd 0 4 0 0 0 0 ∧ SameUnits s t

/-! ### Unit B (41_byte_ring.md) -/

/-- R160: ALLOC.B on an idle unit. On success the capacity is the rounded request, the cursors are 0 and the contents
are the free bytes of a new array (U1, log 5: one free value for each byte); E_CONFIG and E_NOMEM leave the unit
deallocated. -/
def Obligations.AllocB : Prop :=
  ∀ s : State, s.cur.act = .idle → s.turn = ⟨.b, .cfg⟩ → (s.port ⟨.b, .prod⟩).act = .idle →
    (s.port ⟨.b, .cons⟩).act = .idle →
    (2 ≤ s.cur.count.toNat → s.cur.count.toNat ≤ 2 ^ 31 → pow2ceil s.cur.count.toNat ≤ s.plat.storeB →
      ∃ t, exec .allocB s = .next t
        ∧ Completed s t 0x00000001 1 0 (BitVec.ofNat 64 (pow2ceil s.cur.count.toNat)) 0 0 0 ∧ OnlyUnitB s t
        ∧ t.b.cap.toNat = pow2ceil s.cur.count.toNat ∧ t.b.mask = t.b.cap - 1 ∧ t.b.rpos = 0 ∧ t.b.wpos = 0
        ∧ t.b.gen = s.b.gen + 1 ∧ ∀ i, t.b.byte i = Config.freshByte t.b.gen i)
    ∧ (2 ≤ s.cur.count.toNat → s.cur.count.toNat ≤ 2 ^ 31 → s.plat.storeB < pow2ceil s.cur.count.toNat →
        ∃ t, exec .allocB s = .next t ∧ Completed s t 0x00000001 0 6 0 0 0 0 ∧ OnlyUnitB s t
          ∧ t.b = UnitB.reset s.b.gen)
    ∧ (s.cur.count.toNat < 2 ∨ 2 ^ 31 < s.cur.count.toNat →
        ∃ t, exec .allocB s = .next t ∧ Completed s t 0x00000001 0 5 0 0 0 0 ∧ OnlyUnitB s t
          ∧ t.b = UnitB.reset s.b.gen)

/-- R161, R162: DEALLOC.B frees the storage and zeroes all fields; RESET.B zeroes the cursors alone. Both succeed on any
idle unit, allocated or not. -/
def Obligations.DeallocResetB : Prop :=
  ∀ s : State, s.cur.act = .idle → s.turn = ⟨.b, .cfg⟩ → (s.port ⟨.b, .prod⟩).act = .idle →
    (s.port ⟨.b, .cons⟩).act = .idle →
    (∃ t, exec .deallocB s = .next t ∧ Completed s t 0x00000002 1 0 0 0 0 0 ∧ OnlyUnitB s t
      ∧ t.b = UnitB.reset s.b.gen)
    ∧ ∃ t, exec .resetB s = .next t ∧ Completed s t 0x00000003 1 0 0 0 0 0 ∧ OnlyUnitB s t
        ∧ t.b = { s.b with rpos := 0, wpos := 0 } ∧ ∀ a, t.clientByte a = s.clientByte a

/-- R163, R164: AVAILR.B and AVAILW.B return the counts of R138 and R139 and change nothing but the port; on an
allocated unit both are below `B.CAP`, and AVAILW.B returns `B.CAP - 1` when the ring is empty. -/
def Obligations.AvailabilityQueriesB : Prop :=
  ∀ (s : State) (ops : Latch), s.cur.act = .busy ops .start → s.b.cap ≠ 0 →
    (∃ t, exec .availrB s = .next t
      ∧ Completed s t s.cur.cmd ((s.b.wpos - s.b.rpos) &&& s.b.mask) 0 0 0 0 0 ∧ SameUnits s t
      ∧ (s.b.mask = s.b.cap - 1 → t.cur.ret.toNat < s.b.cap.toNat))
    ∧ ∃ t, exec .availwB s = .next t
        ∧ Completed s t s.cur.cmd ((s.b.rpos - s.b.wpos - 1) &&& s.b.mask) 0 0 0 0 0 ∧ SameUnits s t
        ∧ (s.b.mask = s.b.cap - 1 → t.cur.ret.toNat < s.b.cap.toNat)
        ∧ (s.b.rpos = s.b.wpos → t.cur.ret = s.b.mask)

/-- R168, R169: ADVR.B and ADVW.B move their own cursor by the masked sum, for every `n`, and nothing
else. -/
def Obligations.AdvanceB : Prop :=
  ∀ (s : State) (ops : Latch), s.cur.act = .busy ops .start → s.b.cap ≠ 0 →
    (∃ t, exec .advrB s = .next t ∧ Completed s t s.cur.cmd 1 0 0 0 0 0 ∧ OnlyUnitB s t
      ∧ t.b = { s.b with rpos := (s.b.rpos + ops.count) &&& s.b.mask } ∧ ∀ a, t.clientByte a = s.clientByte a)
    ∧ ∃ t, exec .advwB s = .next t ∧ Completed s t s.cur.cmd 1 0 0 0 0 0 ∧ OnlyUnitB s t
        ∧ t.b = { s.b with wpos := (s.b.wpos + ops.count) &&& s.b.mask } ∧ ∀ a, t.clientByte a = s.clientByte a

/-- R170, R171: RVEC.B and WVEC.B return the two spans of the readable and of the writable run, a span of length 0 with
pointer 0, and change nothing but the port. -/
def Obligations.VectorsB : Prop :=
  ∀ (s : State) (ops : Latch) (p n first : U32), s.cur.act = .busy ops .start → s.b.sound s.plat.storeB = true →
    s.b.cap ≠ 0 → first.toNat = min n.toNat (s.b.cap.toNat - p.toNat) →
    (p = s.b.rpos → n = availR s.b.mask s.b.rpos s.b.wpos →
      ∃ t, exec .rvecB s = .next t ∧ SameUnits s t
        ∧ Completed s t s.cur.cmd 1 0 (if first = 0 then 0 else s.plat.winBase + p.zeroExtend 64) (first.zeroExtend 64)
            (if n = first then 0 else s.plat.winBase) ((n - first).zeroExtend 64))
    ∧ (p = s.b.wpos → n = availW s.b.mask s.b.rpos s.b.wpos →
        ∃ t, exec .wvecB s = .next t ∧ SameUnits s t
          ∧ Completed s t s.cur.cmd 1 0 (if first = 0 then 0 else s.plat.winBase + p.zeroExtend 64) (first.zeroExtend 64)
              (if n = first then 0 else s.plat.winBase) ((n - first).zeroExtend 64))

/-- R140: the transfer policy of READ.B, PEEK.B, WRITE.B, READ.F and WRITE.F, in the sample step of each: E_AVAIL when
nothing is available or less than asked without AP, and otherwise `k = min(avail, count)`. -/
def Obligations.TransferPolicy : Prop :=
  ∀ (i : Instr) (s : State) (ops : Latch) (ap : Bool) (avail p : U32), sampling i s = some (ap, avail, p) →
    s.cur.act = .busy ops .start → s.unitCap (unitOf i) ≠ 0 → (unitOf i = .f → ops.addr ≠ 0) →
    (avail = 0 ∨ avail.toNat < ops.count.toNat ∧ ap = false →
      ∃ t, exec i s = .next t ∧ Completed s t s.cur.cmd 0 8 0 0 0 0 ∧ SameUnits s t)
    ∧ (avail ≠ 0 → ops.count.toNat ≤ avail.toNat ∨ ap = true →
        ∃ t k, exec i s = .next t ∧ k.toNat = min avail.toNat ops.count.toNat ∧ SameUnits s t
          ∧ StandsAt s t ops (if unitOf i = .b then .xfer p k 0 else fetchPos s.f.fs.ch p k []))

/-- R142, R143 for unit B: byte `i` of the run from ring position `p` is one step, from `B.ST[(p + i) mod B.CAP]` to
`addr + i` for READ.B and PEEK.B, and the other way for WRITE.B; no other byte changes. -/
def Obligations.CopyBytesB : Prop :=
  ∀ (s : State) (ops : Latch) (p k : U32) (i : Nat) (ap : Bool), s.cur.act = .busy ops (.xfer p k i) → i < k.toNat →
    s.reachable (ops.addr + BitVec.ofNat 64 i) 1 →
    (Memory.wf s.cm = true →
      (∃ t, exec (.readB ap) s = .next t ∧ StandsAt s t ops (.xfer p k (i + 1))
        ∧ ClientWrite s t (ops.addr + BitVec.ofNat 64 i) 1 fun _ => s.b.byte ((p.toNat + i) % s.b.cap.toNat))
      ∧ ∃ t, exec (.peekB ap) s = .next t ∧ StandsAt s t ops (.xfer p k (i + 1))
          ∧ ClientWrite s t (ops.addr + BitVec.ofNat 64 i) 1 fun _ => s.b.byte ((p.toNat + i) % s.b.cap.toNat))
    ∧ ∃ t, exec (.writeB ap) s = .next t ∧ StandsAt s t ops (.xfer p k (i + 1))
        ∧ StorageWriteB s t ((p.toNat + i) % s.b.cap.toNat) (s.clientByte (ops.addr + BitVec.ofNat 64 i))

/-- The last step of READ.B, PEEK.B and WRITE.B (R165, R166, R167): RET is `k`, READ.B publishes the read cursor, WRITE.B
the write cursor, PEEK.B none. -/
def Obligations.PublishB : Prop :=
  ∀ (s : State) (ops : Latch) (p k : U32) (i : Nat) (ap : Bool), s.cur.act = .busy ops (.xfer p k i) → k.toNat ≤ i →
    (∃ t, exec (.readB ap) s = .next t ∧ Completed s t s.cur.cmd k 0 0 0 0 0 ∧ OnlyUnitB s t
      ∧ t.b = { s.b with rpos := (p + k) &&& s.b.mask } ∧ ∀ a, t.clientByte a = s.clientByte a)
    ∧ (∃ t, exec (.peekB ap) s = .next t ∧ Completed s t s.cur.cmd k 0 0 0 0 0 ∧ SameUnits s t)
    ∧ ∃ t, exec (.writeB ap) s = .next t ∧ Completed s t s.cur.cmd k 0 0 0 0 0 ∧ OnlyUnitB s t
        ∧ t.b = { s.b with wpos := (p + k) &&& s.b.mask } ∧ ∀ a, t.clientByte a = s.clientByte a

/-- READ.B and PEEK.B from sample to completion, `2 + k` steps (R165, R166, R355), with no step of another agent between
them and the destination outside the window (R345): the `k` oldest bytes stand at `addr` in order; READ.B consumes
them, PEEK.B changes no unit at all. -/
def Obligations.ReadPeekBRun : Prop :=
  ∀ (s : State) (ops : Latch) (ap : Bool) (k : U32), s.cur.act = .busy ops .start →
    s.b.sound s.plat.storeB = true → s.b.cap ≠ 0 → Memory.wf s.cm = true →
    availR s.b.mask s.b.rpos s.b.wpos ≠ 0 →
    ops.count.toNat ≤ (availR s.b.mask s.b.rpos s.b.wpos).toNat ∨ ap = true →
    k.toNat = min (availR s.b.mask s.b.rpos s.b.wpos).toNat ops.count.toNat →
    s.reachable ops.addr k.toNat → s.outsideWindow ops.addr k.toNat →
    (∃ t, execTimes (2 + k.toNat) (.readB ap) s = .next t ∧ Completed s t s.cur.cmd k 0 0 0 0 0
      ∧ t.b = { s.b with rpos := (s.b.rpos + k) &&& s.b.mask } ∧ t.f = s.f ∧ t.t = s.t
      ∧ (∀ i, i < k.toNat → t.clientByte (ops.addr + BitVec.ofNat 64 i) =
          s.b.byte ((s.b.rpos + BitVec.ofNat 32 i) &&& s.b.mask).toNat)
      ∧ ∀ x, ¬ inRun ops.addr k.toNat x → t.clientByte x = s.clientByte x)
    ∧ ∃ t, execTimes (2 + k.toNat) (.peekB ap) s = .next t ∧ Completed s t s.cur.cmd k 0 0 0 0 0
        ∧ t.b = s.b ∧ t.f = s.f ∧ t.t = s.t
        ∧ (∀ i, i < k.toNat → t.clientByte (ops.addr + BitVec.ofNat 64 i) =
            s.b.byte ((s.b.rpos + BitVec.ofNat 32 i) &&& s.b.mask).toNat)
        ∧ ∀ x, ¬ inRun ops.addr k.toNat x → t.clientByte x = s.clientByte x

/-- WRITE.B from sample to completion, `2 + k` steps (R167, R355), with no step of another agent between them and the
source outside the window: the `k` bytes stand at the ring positions from `B.WPOS` on, every other storage byte and all
of client memory is as before. -/
def Obligations.WriteBRun : Prop :=
  ∀ (s : State) (ops : Latch) (ap : Bool) (k : U32), s.cur.act = .busy ops .start →
    s.b.sound s.plat.storeB = true → s.b.cap ≠ 0 →
    availW s.b.mask s.b.rpos s.b.wpos ≠ 0 →
    ops.count.toNat ≤ (availW s.b.mask s.b.rpos s.b.wpos).toNat ∨ ap = true →
    k.toNat = min (availW s.b.mask s.b.rpos s.b.wpos).toNat ops.count.toNat →
    s.reachable ops.addr k.toNat → s.outsideWindow ops.addr k.toNat →
    ∃ t, execTimes (2 + k.toNat) (.writeB ap) s = .next t ∧ Completed s t s.cur.cmd k 0 0 0 0 0
      ∧ t.b = { s.b with wpos := (s.b.wpos + k) &&& s.b.mask, st := t.b.st } ∧ t.f = s.f ∧ t.t = s.t ∧ t.cm = s.cm
      ∧ (∀ i, i < k.toNat → t.b.byte ((s.b.wpos + BitVec.ofNat 32 i) &&& s.b.mask).toNat =
          s.clientByte (ops.addr + BitVec.ofNat 64 i))
      ∧ ∀ j, (∀ i, i < k.toNat → j ≠ ((s.b.wpos + BitVec.ofNat 32 i) &&& s.b.mask).toNat) → t.b.byte j = s.b.byte j

/-- R173: from an empty ring, wherever its cursors stand, a WRITE.B of `N <= B.CAP - 1` bytes returns `N`, and a
following READ.B of `N` bytes returns `N` and delivers the same bytes in the same order. Both ports stand at their first
block; the buffers lie outside the window and can be accessed (R345). -/
def Obligations.RoundTripB : Prop :=
  ∀ (s : State) (src dst : Latch) (apW apR : Bool) (n : U32), s.b.sound s.plat.storeB = true → s.b.cap ≠ 0 →
    Memory.wf s.cm = true → s.b.rpos = s.b.wpos → n.toNat ≤ s.b.cap.toNat - 1 →
    (s.port ⟨.b, .prod⟩).act = .busy src .start → (s.port ⟨.b, .cons⟩).act = .busy dst .start →
    src.count = n → dst.count = n →
    s.reachable src.addr n.toNat → s.outsideWindow src.addr n.toNat →
    s.reachable dst.addr n.toNat → s.outsideWindow dst.addr n.toNat →
    ∃ l m t u, execTimes l (.writeB apW) { s with turn := ⟨.b, .prod⟩ } = .next t
      ∧ (t.port ⟨.b, .prod⟩).act = .idle ∧ (t.port ⟨.b, .prod⟩).ret = n
      ∧ execTimes m (.readB apR) { t with turn := ⟨.b, .cons⟩ } = .next u
      ∧ (u.port ⟨.b, .cons⟩).act = .idle ∧ (u.port ⟨.b, .cons⟩).ret = n
      ∧ u.b.rpos = u.b.wpos
      ∧ ∀ i, i < n.toNat →
          u.clientByte (dst.addr + BitVec.ofNat 64 i) = s.clientByte (src.addr + BitVec.ofNat 64 i)

/-- R138, R139, R172: the two counts for any capacity and cursors below it are those of the source's own forms; they add
up to `CAP - 1`, also for cursors no run has. -/
def Obligations.AvailabilityLaws : Prop :=
  ∀ cap r w : U32, isCapacity cap = true →
    (availR (cap - 1) r w).toNat + (availW (cap - 1) r w).toNat = cap.toNat - 1
    ∧ (availR (cap - 1) r w).toNat < cap.toNat ∧ (availW (cap - 1) r w).toNat < cap.toNat
    ∧ (r.toNat < cap.toNat → w.toNat < cap.toNat →
        (r.toNat < w.toNat → availR (cap - 1) r w = w - r)
        ∧ (w.toNat ≤ r.toNat → availR (cap - 1) r w = (w - r + cap) &&& (cap - 1))
        ∧ (r.toNat < w.toNat → availW (cap - 1) r w = ((r - w + cap) &&& (cap - 1)) - 1)
        ∧ (w.toNat < r.toNat → availW (cap - 1) r w = r - w - 1)
        ∧ (w = r → availR (cap - 1) r w = 0 ∧ availW (cap - 1) r w = cap - 1))

/-- R132, R135, R149: with a capacity's mask, `&` is `mod CAP`, and it commutes with 32-bit sums and differences; so the
masked advance and the position of a time are reductions modulo the capacity. -/
def Obligations.MaskLaws : Prop :=
  ∀ cap : U32, isCapacity cap = true →
    (∀ x : U32, (x &&& (cap - 1)).toNat = x.toNat % cap.toNat)
    ∧ (∀ a b : U32, ((a + b) &&& (cap - 1)).toNat = (a.toNat + b.toNat) % cap.toNat)
    ∧ (∀ a b : U32, (((a - b) &&& (cap - 1)).toNat : Int) = ((a.toNat : Int) - b.toNat) % cap.toNat)
    ∧ (∀ p n : U32, (adv (cap - 1) p n).toNat = (p.toNat + n.toNat) % cap.toNat)
    ∧ ∀ t : Int, 0 ≤ t → ((timePos (cap - 1) t).toNat : Int) = t % cap.toNat

/-- R130: `pow2ceil(n)` is the smallest power of two at or above `n`, in `[2, 2^31]`, and a power of two maps to
itself. -/
def Obligations.CapacityRounding : Prop :=
  ∀ n : Nat, 2 ≤ n → n ≤ 2 ^ 31 →
    (∃ e, pow2ceil n = 2 ^ e) ∧ n ≤ pow2ceil n ∧ (∀ e, n ≤ 2 ^ e → pow2ceil n ≤ 2 ^ e)
      ∧ 2 ≤ pow2ceil n ∧ pow2ceil n ≤ 2 ^ 31 ∧ ∀ e, n = 2 ^ e → pow2ceil n = n

/-- R141, R142: the wrap split of a run, and the byte index of R142 as that two-segment copy: tail, then head. -/
def Obligations.WrapSplit : Prop :=
  ∀ cap p k : Nat, p < cap → k ≤ cap →
    (split cap p k).1 = min k (cap - p) ∧ (split cap p k).1 + (split cap p k).2 = k
      ∧ (0 < (split cap p k).2 ↔ cap < p + k)
      ∧ (∀ j, j < k → (p + j) % cap = if j < (split cap p k).1 then p + j else j - (split cap p k).1)
      ∧ ∀ ub i, i < k * ub →
          ringOffset cap ub p i = if i < (split cap p k).1 * ub then p * ub + i else i - (split cap p k).1 * ub

/-- R175: side separation of unit B. Consumer commands never write `B.WPOS`, nor `B.ST` as long as no client buffer lies
in the window (R345); producer commands never write `B.RPOS`; WRITE.B writes `B.ST` only at a position of its run, and
those are outside the readable range of its sample. -/
def Obligations.SideSeparationB : Prop :=
  (∀ (i : Instr) (s t : State), unitOf i = .b → exec i s = .next t →
      (rolesOf i = [.cons] → t.b.wpos = s.b.wpos)
        ∧ (rolesOf i = [.cons] →
            (∀ ops pos a n, s.cur.act = .busy ops pos → stepAccess i s ops pos = some (a, n) → s.outsideWindow a n) →
            t.b.st = s.b.st)
        ∧ (rolesOf i = [.prod] → t.b.rpos = s.b.rpos))
    ∧ (∀ (ap : Bool) (s t : State) (j : Nat), exec (.writeB ap) s = .next t → t.b.byte j ≠ s.b.byte j →
        ∃ ops p k i, s.cur.act = .busy ops (.xfer p k i) ∧ i < k.toNat ∧ j = (p.toNat + i) % s.b.cap.toNat)
    ∧ ∀ (cap r w : U32) (i j : Nat), isCapacity cap = true → i < (availW (cap - 1) r w).toNat →
        j < (availR (cap - 1) r w).toNat →
        (w + BitVec.ofNat 32 i) &&& (cap - 1) ≠ (r + BitVec.ofNat 32 j) &&& (cap - 1)

/-! ### Unit F and the scatter/gather engine (42_frame_ring.md) -/

/-- R210: ALLOC.F on an idle unit: format and capacity tests, the rounded capacity, the allocation size on unbounded
integers, the pointer table, zeroed data and cursors; E_CONFIG and E_NOMEM leave the unit deallocated. -/
def Obligations.AllocF : Prop :=
  ∀ (s : State) (ch bpf cap : Nat), s.cur.act = .idle → s.turn = ⟨.f, .cfg⟩ → (s.port ⟨.f, .prod⟩).act = .idle →
    (s.port ⟨.f, .cons⟩).act = .idle → ch = (s.cur.aux.extractLsb' 0 32).toNat →
    bpf = (s.cur.aux.extractLsb' 32 32).toNat → cap = pow2ceil s.cur.count.toNat →
    (s.cur.addr.getLsbD 0 = false → 1 ≤ ch → 1 ≤ bpf → 2 ≤ s.cur.count.toNat → s.cur.count.toNat ≤ 2 ^ 31 →
      (cap * bpf + 8) * ch ≤ s.plat.storeF →
      ∃ t, exec .allocF s = .next t ∧ Completed s t 0x00000101 1 0 (BitVec.ofNat 64 cap) 0 0 0 ∧ OnlyUnitF s t
        ∧ t.f.fs.ch.toNat = ch ∧ t.f.fs.bpf.toNat = bpf ∧ t.f.fs.cap.toNat = cap ∧ t.f.fs.mask = t.f.fs.cap - 1
        ∧ t.f.rptr = 0 ∧ t.f.wptr = 0
        ∧ (∀ c j, c < ch → j < 8 → t.f.fs.byte (8 * c + j) = leByte (8 * ch + c * cap * bpf) j)
        ∧ ∀ o, 8 * ch ≤ o → t.f.fs.byte o = 0)
    ∧ (s.cur.addr.getLsbD 0 = true ∨ ch = 0 ∨ bpf = 0 ∨ s.cur.count.toNat < 2 ∨ 2 ^ 31 < s.cur.count.toNat →
        ∃ t, exec .allocF s = .next t ∧ Completed s t 0x00000101 0 5 0 0 0 0 ∧ OnlyUnitF s t ∧ t.f = State.reset.f)
    ∧ (s.cur.addr.getLsbD 0 = false → 1 ≤ ch → 1 ≤ bpf → 2 ≤ s.cur.count.toNat → s.cur.count.toNat ≤ 2 ^ 31 →
        s.plat.storeF < (cap * bpf + 8) * ch →
        ∃ t, exec .allocF s = .next t ∧ Completed s t 0x00000101 0 6 0 0 0 0 ∧ OnlyUnitF s t ∧ t.f = State.reset.f)

/-- R247: ALLOC.T is ALLOC.F with unit T's pool, and zeroes the bounds register whether it succeeds or not. -/
def Obligations.AllocT : Prop :=
  ∀ (s : State) (ch bpf cap : Nat), s.cur.act = .idle → s.turn = ⟨.t, .cfg⟩ → (s.port ⟨.t, .prod⟩).act = .idle →
    (s.port ⟨.t, .cons⟩).act = .idle → ch = (s.cur.aux.extractLsb' 0 32).toNat →
    bpf = (s.cur.aux.extractLsb' 32 32).toNat → cap = pow2ceil s.cur.count.toNat →
    (s.cur.addr.getLsbD 0 = false → 1 ≤ ch → 1 ≤ bpf → 2 ≤ s.cur.count.toNat → s.cur.count.toNat ≤ 2 ^ 31 →
      (cap * bpf + 8) * ch ≤ s.plat.storeT →
      ∃ t, exec .allocT s = .next t ∧ Completed s t 0x00000201 1 0 (BitVec.ofNat 64 cap) 0 0 0 ∧ OnlyUnitT s t
        ∧ t.t.fs.ch.toNat = ch ∧ t.t.fs.bpf.toNat = bpf ∧ t.t.fs.cap.toNat = cap ∧ t.t.fs.mask = t.t.fs.cap - 1
        ∧ t.t.tbcnt = 0 ∧ (∀ c, t.t.slot c = { start := 0, stop := 0, upd := 0 })
        ∧ (∀ c j, c < ch → j < 8 → t.t.fs.byte (8 * c + j) = leByte (8 * ch + c * cap * bpf) j)
        ∧ ∀ o, 8 * ch ≤ o → t.t.fs.byte o = 0)
    ∧ (s.cur.addr.getLsbD 0 = true ∨ ch = 0 ∨ bpf = 0 ∨ s.cur.count.toNat < 2 ∨ 2 ^ 31 < s.cur.count.toNat →
        ∃ t, exec .allocT s = .next t ∧ Completed s t 0x00000201 0 5 0 0 0 0 ∧ OnlyUnitT s t ∧ t.t = State.reset.t)
    ∧ (s.cur.addr.getLsbD 0 = false → 1 ≤ ch → 1 ≤ bpf → 2 ≤ s.cur.count.toNat → s.cur.count.toNat ≤ 2 ^ 31 →
        s.plat.storeT < (cap * bpf + 8) * ch →
        ∃ t, exec .allocT s = .next t ∧ Completed s t 0x00000201 0 6 0 0 0 0 ∧ OnlyUnitT s t ∧ t.t = State.reset.t)

/-- R211, R212, R248, R249: DEALLOC.F and DEALLOC.T free the storage and zero all fields; RESET.F zeroes the cursors
alone, RESET.T the bounds register alone. All succeed on any idle unit. -/
def Obligations.DeallocResetFT : Prop :=
  (∀ s : State, s.cur.act = .idle → s.turn = ⟨.f, .cfg⟩ → (s.port ⟨.f, .prod⟩).act = .idle →
      (s.port ⟨.f, .cons⟩).act = .idle →
      (∃ t, exec .deallocF s = .next t ∧ Completed s t 0x00000102 1 0 0 0 0 0 ∧ OnlyUnitF s t ∧ t.f = State.reset.f)
      ∧ ∃ t, exec .resetF s = .next t ∧ Completed s t 0x00000103 1 0 0 0 0 0 ∧ OnlyUnitF s t
          ∧ t.f = { s.f with rptr := 0, wptr := 0 })
    ∧ ∀ s : State, s.cur.act = .idle → s.turn = ⟨.t, .cfg⟩ → (s.port ⟨.t, .prod⟩).act = .idle →
        (s.port ⟨.t, .cons⟩).act = .idle →
        (∃ t, exec .deallocT s = .next t ∧ Completed s t 0x00000202 1 0 0 0 0 0 ∧ OnlyUnitT s t ∧ t.t = State.reset.t)
        ∧ ∃ t, exec .resetT s = .next t ∧ Completed s t 0x00000203 1 0 0 0 0 0 ∧ OnlyUnitT s t
            ∧ t.t.fs = s.t.fs ∧ t.t.tbcnt = 0 ∧ ∀ c, t.t.slot c = { start := 0, stop := 0, upd := 0 }

/-- R213, R214: AVAILR.F and AVAILW.F, the same arithmetic in frames. -/
def Obligations.AvailabilityQueriesF : Prop :=
  ∀ (s : State) (ops : Latch), s.cur.act = .busy ops .start → s.f.fs.cap ≠ 0 →
    (∃ t, exec .availrF s = .next t
      ∧ Completed s t s.cur.cmd ((s.f.wptr - s.f.rptr) &&& s.f.fs.mask) 0 0 0 0 0 ∧ SameUnits s t
      ∧ (s.f.fs.mask = s.f.fs.cap - 1 → t.cur.ret.toNat < s.f.fs.cap.toNat))
    ∧ ∃ t, exec .availwF s = .next t
        ∧ Completed s t s.cur.cmd ((s.f.rptr - s.f.wptr - 1) &&& s.f.fs.mask) 0 0 0 0 0 ∧ SameUnits s t
        ∧ (s.f.fs.mask = s.f.fs.cap - 1 → t.cur.ret.toNat < s.f.fs.cap.toNat)

/-- R203: a null buffer-list address is E_ARG for READ.F, WRITE.F, READ.T and WRITE.T, in the command's first block; a
READ.T of zero frames has succeeded before this test (R261). -/
def Obligations.NullList : Prop :=
  ∀ (i : Instr) (s : State) (ops : Latch), usesList i = true → s.cur.act = .busy ops .start →
    s.unitCap (unitOf i) ≠ 0 → ops.addr = 0 → (i = .readT → ops.count ≠ 0) →
    ∃ t, exec i s = .next t ∧ Completed s t s.cur.cmd 0 7 0 0 0 0 ∧ SameUnits s t

/-- R204: FetchList takes two steps per entry, in ascending channel order, and changes nothing but the port's locals,
which then hold pointer and byteCapacity of every entry. -/
def Obligations.FetchListRun : Prop :=
  ∀ (i : Instr) (s : State) (ops : Latch) (p k : U32), usesList i = true →
    s.cur.act = .busy ops (.fetch p k [] none) → s.unitChannels (unitOf i) ≠ 0 →
    (∀ c, c < (s.unitChannels (unitOf i)).toNat → s.reachable (entryAddr ops c) 16) →
    ∃ t, execTimes (2 * (s.unitChannels (unitOf i)).toNat) i s = .next t ∧ SameUnits s t
      ∧ StandsAt s t ops (.fits p k (s.listEntries ops (s.unitChannels (unitOf i)).toNat))

/-- R205: ListFits tests every byteCapacity against the bytes the command will move per channel; a list that does not fit
is E_ARG before any data moves, one that fits is followed by the first transfer or bounds step. -/
def Obligations.ListFits : Prop :=
  (∀ (es : List Entry) (need : Nat), listFits es need = true ↔ ∀ e ∈ es, need ≤ e.capb.toNat)
    ∧ ∀ (i : Instr) (s : State) (ops : Latch) (p k : U32) (es : List Entry) (need : Nat), usesList i = true →
        s.cur.act = .busy ops (.fits p k es) → s.unitChannels (unitOf i) ≠ 0 →
        need = (if unitOf i = .f then k.toNat * s.f.fs.bpf.toNat else ops.count.toNat * s.t.fs.bpf.toNat) →
        (listFits es need = false → ∃ t, exec i s = .next t ∧ Completed s t s.cur.cmd 0 7 0 0 0 0 ∧ SameUnits s t)
        ∧ (listFits es need = true → ∃ t pos, exec i s = .next t ∧ StandsAt s t ops pos ∧ SameUnits s t
            ∧ (i = .readT → pos = .read es 0 .count) ∧ (i = .writeT → pos = .bounds es)
            ∧ (∀ ap, i = .readF ap → pos = .move p k es 0 0)
            ∧ ∀ ap, i = .writeF ap → pos = if need = 0 then .publish p k else .move p k es 0 0)

/-- R206, R207, R208 in steps: byte `j` of channel `c` goes from `base(c) + ((p*BPF + j) mod (CAP*BPF))` to the channel's
buffer for READ.F, the other way for WRITE.F; READ.F then reports the channel's size in one 8-byte write. -/
def Obligations.CopyBytesF : Prop :=
  ∀ (s : State) (ops : Latch) (p k : U32) (es : List Entry) (c j o : Nat) (ap : Bool),
    s.cur.act = .busy ops (.move p k es c j) →
    o = 8 * s.f.fs.ch.toNat + c * s.f.fs.cap.toNat * s.f.fs.bpf.toNat
      + (p.toNat * s.f.fs.bpf.toNat + j) % (s.f.fs.cap.toNat * s.f.fs.bpf.toNat) →
    (j < k.toNat * s.f.fs.bpf.toNat → s.reachable (bufferAddr es c j) 1 → Memory.wf s.cm = true →
      ∃ t, exec (.readF ap) s = .next t ∧ StandsAt s t ops (.move p k es c (j + 1))
        ∧ ClientWrite s t (bufferAddr es c j) 1 fun _ => s.f.fs.byte o)
    ∧ (j = k.toNat * s.f.fs.bpf.toNat → s.reachable (entryAddr ops c + 16) 8 → Memory.canonical s.cm = true →
        ∃ t, exec (.readF ap) s = .next t
          ∧ StandsAt s t ops (if c + 1 < s.f.fs.ch.toNat then .move p k es (c + 1) 0 else .publish p k)
          ∧ ClientWrite s t (entryAddr ops c + 16) 8 (leByte (k.toNat * s.f.fs.bpf.toNat)))
    ∧ (j < k.toNat * s.f.fs.bpf.toNat → c < s.f.fs.ch.toNat → s.reachable (bufferAddr es c j) 1 →
        Memory.wf s.f.fs.st = true →
        ∃ t pos, exec (.writeF ap) s = .next t ∧ StandsAt s t ops pos
          ∧ (j + 1 < k.toNat * s.f.fs.bpf.toNat → pos = .move p k es c (j + 1))
          ∧ (j + 1 = k.toNat * s.f.fs.bpf.toNat → c + 1 < s.f.fs.ch.toNat → pos = .move p k es (c + 1) 0)
          ∧ (j + 1 = k.toNat * s.f.fs.bpf.toNat → c + 1 = s.f.fs.ch.toNat → pos = .publish p k)
          ∧ OnlyUnitF s t ∧ t.f = { s.f with fs := t.f.fs }
          ∧ FrameWrite s.f.fs t.f.fs o (s.clientByte (bufferAddr es c j)))

/-- The last step of READ.F and WRITE.F (R215, R216): RET is `k` frames and the command's own cursor is published. -/
def Obligations.PublishF : Prop :=
  ∀ (s : State) (ops : Latch) (p k : U32) (ap : Bool), s.cur.act = .busy ops (.publish p k) →
    (∃ t, exec (.readF ap) s = .next t ∧ Completed s t s.cur.cmd k 0 0 0 0 0 ∧ OnlyUnitF s t
      ∧ t.f = { s.f with rptr := (p + k) &&& s.f.fs.mask })
    ∧ ∃ t, exec (.writeF ap) s = .next t ∧ Completed s t s.cur.cmd k 0 0 0 0 0 ∧ OnlyUnitF s t
        ∧ t.f = { s.f with wptr := (p + k) &&& s.f.fs.mask }

/-- READ.F from sample to completion (R215, R355), with no step of another agent between them and the contract of R345
kept: every channel's `k` frames stand in its buffer, every entry reports `k * BPF`, the read cursor alone moves, and
no other client address changes. -/
def Obligations.ReadFRun : Prop :=
  ∀ (s : State) (ops : Latch) (ap : Bool) (k : U32) (ch bpf : Nat), s.cur.act = .busy ops .start → s.f.fs.cap ≠ 0 →
    ops.addr ≠ 0 → Memory.canonical s.cm = true → ch = s.f.fs.ch.toNat → bpf = s.f.fs.bpf.toNat →
    availR s.f.fs.mask s.f.rptr s.f.wptr ≠ 0 →
    ops.count.toNat ≤ (availR s.f.fs.mask s.f.rptr s.f.wptr).toNat ∨ ap = true →
    k.toNat = min (availR s.f.fs.mask s.f.rptr s.f.wptr).toNat ops.count.toNat →
    ListReadable s ops ch (k.toNat * bpf) → ListApart s ops ch (k.toNat * bpf) →
    ∃ t, execTimes (3 + 2 * ch + ch * (k.toNat * bpf) + ch) (.readF ap) s = .next t
      ∧ Completed s t s.cur.cmd k 0 0 0 0 0
      ∧ t.f = { s.f with rptr := (s.f.rptr + k) &&& s.f.fs.mask } ∧ t.t = s.t ∧ t.b = { s.b with st := t.b.st }
      ∧ Delivered s t ops ch (k.toNat * bpf) (k.toNat * bpf) fun c i =>
          s.f.fs.byte (8 * ch + c * s.f.fs.cap.toNat * bpf + (s.f.rptr.toNat * bpf + i) % (s.f.fs.cap.toNat * bpf))

/-- WRITE.F from sample to completion (R216, R355), with no step of another agent between them: every channel's `k`
frames stand in its region from the write cursor on, every other storage byte and every client address is as
before. The list is asked to be readable in its whole 24-byte entries, of which WRITE.F reads 16. -/
def Obligations.WriteFRun : Prop :=
  ∀ (s : State) (ops : Latch) (ap : Bool) (k : U32) (ch bpf : Nat), s.cur.act = .busy ops .start →
    s.f.sound s.plat.storeF = true → s.f.fs.cap ≠ 0 → ops.addr ≠ 0 → ch = s.f.fs.ch.toNat → bpf = s.f.fs.bpf.toNat →
    availW s.f.fs.mask s.f.rptr s.f.wptr ≠ 0 →
    ops.count.toNat ≤ (availW s.f.fs.mask s.f.rptr s.f.wptr).toNat ∨ ap = true →
    k.toNat = min (availW s.f.fs.mask s.f.rptr s.f.wptr).toNat ops.count.toNat →
    ListReadable s ops ch (k.toNat * bpf) →
    ∃ t, execTimes (3 + 2 * ch + ch * (k.toNat * bpf)) (.writeF ap) s = .next t
      ∧ Completed s t s.cur.cmd k 0 0 0 0 0 ∧ OnlyUnitF s t
      ∧ t.f = { fs := { s.f.fs with st := t.f.fs.st }, rptr := s.f.rptr, wptr := (s.f.wptr + k) &&& s.f.fs.mask }
      ∧ (∀ c i, c < ch → i < k.toNat * bpf →
          t.f.fs.byte (8 * ch + c * s.f.fs.cap.toNat * bpf
              + (s.f.wptr.toNat * bpf + i) % (s.f.fs.cap.toNat * bpf)) =
            s.clientByte ((s.listEntry ops c).ptr + BitVec.ofNat 64 i))
      ∧ ∀ o, (∀ c i, c < ch → i < k.toNat * bpf →
            o ≠ 8 * ch + c * s.f.fs.cap.toNat * bpf + (s.f.wptr.toNat * bpf + i) % (s.f.fs.cap.toNat * bpf)) →
          t.f.fs.byte o = s.f.fs.byte o

/-- R62: the layout of `F.ST` and `T.ST`: the pointer table first, then one region of `CAP * BPF` bytes for each channel,
contiguous, in channel order, not overlapping, filling the allocation. -/
def Obligations.RegionLayout : Prop :=
  ∀ cap ch bpf : Nat,
    frameAllocSize cap ch bpf = (cap * bpf + 8) * ch ∧ regionBase cap ch bpf 0 = 8 * ch
      ∧ (∀ c, regionBase cap ch bpf (c + 1) = regionBase cap ch bpf c + cap * bpf)
      ∧ regionBase cap ch bpf ch = frameAllocSize cap ch bpf
      ∧ (∀ c x, c < ch → x < cap * bpf →
          8 * ch ≤ regionBase cap ch bpf c + x ∧ regionBase cap ch bpf c + x < frameAllocSize cap ch bpf)
      ∧ ∀ c c' x x', x < cap * bpf → x' < cap * bpf → regionBase cap ch bpf c + x = regionBase cap ch bpf c' + x' →
          c = c' ∧ x = x'

/-! ### Unit T (43_timestamped_ring.md) -/

/-- The validating blocks of WRITE.T and READ.T (R250, R260, R261, R147): too many frames, a negative time or a range
past `2^63 - 1` is E_ARG; otherwise the list is fetched. A READ.T of zero frames succeeds before any argument is looked
at. -/
def Obligations.ValidateT : Prop :=
  ∀ (i : Instr) (s : State) (ops : Latch), s.cur.act = .busy ops .start → s.t.fs.cap ≠ 0 →
    (i = .readT → ops.count = 0 →
      ∃ t, exec i s = .next t ∧ Completed s t s.cur.cmd 1 0 0 0 0 0 ∧ SameUnits s t)
    ∧ (i = .writeT ∨ i = .readT ∧ ops.count ≠ 0 →
        s.t.fs.cap.toNat < ops.count.toNat ∨ ops.aux.toInt < 0 ∨ 2 ^ 63 - 1 < ops.aux.toInt + ops.count.toNat →
        ∃ t, exec i s = .next t ∧ Completed s t s.cur.cmd 0 7 0 0 0 0 ∧ SameUnits s t)
    ∧ (i = .writeT ∨ i = .readT ∧ ops.count ≠ 0 → ops.addr ≠ 0 → ops.count.toNat ≤ s.t.fs.cap.toNat →
        0 ≤ ops.aux.toInt → ops.aux.toInt + ops.count.toNat ≤ 2 ^ 63 - 1 → s.t.fs.ch ≠ 0 →
        ∃ t, exec i s = .next t ∧ SameUnits s t
          ∧ StandsAt s t ops (.fetch (timePos s.t.fs.mask ops.aux.toInt) ops.count [] none))

/-- R246: GETTB.T. Its completing block returns the bounds read, or E_RETRY; run with no publication between its six
steps, it returns the current bounds. No state but the port's changes. -/
def Obligations.GetTimeBounds : Prop :=
  ∀ (s : State) (ops : Latch),
    (∀ lo hi : U64, s.cur.act = .busy ops (.got (some (lo, hi))) →
      ∃ t, exec .gettbT s = .next t ∧ Completed s t s.cur.cmd 1 0 lo hi 0 0 ∧ SameUnits s t)
    ∧ (s.cur.act = .busy ops (.got none) →
        ∃ t, exec .gettbT s = .next t ∧ Completed s t s.cur.cmd 0 9 0 0 0 0 ∧ SameUnits s t)
    ∧ (s.cur.act = .busy ops .start → s.t.fs.cap ≠ 0 → (s.t.slot s.t.tbcnt).upd = s.t.tbcnt →
        ∃ t, execTimes 6 .gettbT s = .next t ∧ SameUnits s t
          ∧ Completed s t s.cur.cmd 1 0 (s.t.slot s.t.tbcnt).start (s.t.slot s.t.tbcnt).stop 0 0)

/-- R245: an attempt of ReadBounds reads TBCNT, then start, end and upd of the slot it selects, one step each; it
succeeds when `upd` is the counter value it began with, and otherwise the next of at most 8 attempts begins. -/
def Obligations.ReadBoundsSteps : Prop :=
  ∀ (i : Instr) (s : State) (ops : Latch) (es : List Entry) (tries : Nat) (st : ReadStage),
    i = .gettbT ∨ i = .readT → s.cur.act = .busy ops (.read es tries st) →
    ∃ t pos, exec i s = .next t ∧ StandsAt s t ops pos ∧ SameUnits s t
      ∧ (st = .count → pos = .read es tries (.start s.t.tbcnt))
      ∧ (∀ c, st = .start c → pos = .read es tries (.stop c (s.t.slot c).start))
      ∧ (∀ c x, st = .stop c x → pos = .read es tries (.upd c x (s.t.slot c).stop))
      ∧ (∀ c x y, st = .upd c x y → (s.t.slot c).upd = c → i = .gettbT → pos = .got (some (x, y)))
      ∧ (∀ c x y, st = .upd c x y → (s.t.slot c).upd = c → i = .readT →
          pos = outPos s.t.fs.ch es (clip s.t.fs.mask ops x.toInt y.toInt) 0)
      ∧ (∀ c x y, st = .upd c x y → (s.t.slot c).upd ≠ c → tries + 1 < 8 → pos = .read es (tries + 1) .count)
      ∧ ∀ c x y, st = .upd c x y → (s.t.slot c).upd ≠ c → 8 ≤ tries + 1 → pos = .got none

/-- R243: Publish of a pair `(lo, hi)` is four steps: the slot after the current one gets its counter, its start, its
end, and then the shared counter moves on; each step writes that one field. `(lo, hi)` is the adjusted pair, or at the
end of WRITE.T `(cs, t + n)` (R250). -/
def Obligations.PublishSteps : Prop :=
  ∀ (s : State) (ops : Latch) (es : List Entry) (cs ce : Int) (last : Bool) (st : PubStage) (lo hi : Int),
    s.cur.act = .busy ops (.pub es cs ce last st) → lo = cs →
    hi = (if last = true then ops.aux.toInt + ops.count.toNat else ce) →
    ∃ t pos, exec .writeT s = .next t ∧ StandsAt s t ops pos ∧ OnlyUnitT s t ∧ t.t.fs = s.t.fs
      ∧ (st = .upd → pos = .pub es cs ce last (.start (s.t.tbcnt + 1)) ∧ t.t.tbcnt = s.t.tbcnt
          ∧ ∀ c, t.t.slot c = if c.toNat % 8 = (s.t.tbcnt + 1).toNat % 8
              then { s.t.slot c with upd := s.t.tbcnt + 1 } else s.t.slot c)
      ∧ (∀ nxt, st = .start nxt → pos = .pub es cs ce last (.stop nxt) ∧ t.t.tbcnt = s.t.tbcnt
          ∧ ∀ c, t.t.slot c = if c.toNat % 8 = nxt.toNat % 8
              then { s.t.slot c with start := BitVec.ofInt 64 lo } else s.t.slot c)
      ∧ (∀ nxt, st = .stop nxt → pos = .pub es cs ce last (.count nxt) ∧ t.t.tbcnt = s.t.tbcnt
          ∧ ∀ c, t.t.slot c = if c.toNat % 8 = nxt.toNat % 8
              then { s.t.slot c with stop := BitVec.ofInt 64 hi } else s.t.slot c)
      ∧ ∀ nxt, st = .count nxt → pos = (if last = true then .fin else gapPos s.t.fs ops es cs ce 0 0)
          ∧ t.t.tbcnt = nxt ∧ ∀ c, t.t.slot c = s.t.slot c

/-- R241, R251 to R254: the three cases of WRITE.T from the current bounds: a rewind publishes `(t, t)`, a write that
fits publishes nothing yet, an overrun publishes `(endT - CAP, max(endT - CAP, ce))`, before any data is moved. -/
def Obligations.WriterCases : Prop :=
  ∀ (s : State) (ops : Latch) (es : List Entry) (time last cs ce : Int), s.cur.act = .busy ops (.bounds es) →
    time = ops.aux.toInt → last = time + ops.count.toNat → cs = (s.t.slot s.t.tbcnt).start.toInt →
    ce = (s.t.slot s.t.tbcnt).stop.toInt →
    ∃ t pos, exec .writeT s = .next t ∧ StandsAt s t ops pos ∧ SameUnits s t
      ∧ (time < ce → pos = .pub es time time false .upd)
      ∧ (ce ≤ time → last - cs ≤ s.t.fs.cap.toNat → pos = gapPos s.t.fs ops es cs ce 0 0)
      ∧ (ce ≤ time → s.t.fs.cap.toNat < last - cs →
          pos = .pub es (last - s.t.fs.cap.toNat) (max (last - s.t.fs.cap.toNat) ce) false .upd)

/-- The data steps and the completion of WRITE.T (R255, R256, R250): a gap byte is zeroed at the position of the gap's
start on, a frame byte is copied to the position of the write's time on, one storage byte a step; the last step
completes with RET 1. -/
def Obligations.WriteTMoves : Prop :=
  ∀ (s : State) (ops : Latch) (es : List Entry) (cs ce : Int) (c j : Nat),
    (s.cur.act = .busy ops (.gap es cs ce c j) → Memory.wf s.t.fs.st = true →
      ∃ t pos, exec .writeT s = .next t ∧ StandsAt s t ops pos ∧ OnlyUnitT s t ∧ t.t = { s.t with fs := t.t.fs }
        ∧ FrameWrite s.t.fs t.t.fs (s.t.fs.offset c (timePos s.t.fs.mask ce) j) 0
        ∧ (j + 1 < (ops.aux.toInt - ce).toNat * s.t.fs.bpf.toNat → c < s.t.fs.ch.toNat →
            pos = .gap es cs ce c (j + 1))
        ∧ (j + 1 = (ops.aux.toInt - ce).toNat * s.t.fs.bpf.toNat → c + 1 < s.t.fs.ch.toNat →
            pos = .gap es cs ce (c + 1) 0)
        ∧ (j + 1 = (ops.aux.toInt - ce).toNat * s.t.fs.bpf.toNat → c + 1 = s.t.fs.ch.toNat →
            pos = if ops.count.toNat * s.t.fs.bpf.toNat = 0 then .pub es cs ce true .upd else .fill es cs 0 0))
    ∧ (s.cur.act = .busy ops (.fill es cs c j) → s.reachable (bufferAddr es c j) 1 → Memory.wf s.t.fs.st = true →
        ∃ t pos, exec .writeT s = .next t ∧ StandsAt s t ops pos ∧ OnlyUnitT s t ∧ t.t = { s.t with fs := t.t.fs }
          ∧ FrameWrite s.t.fs t.t.fs (s.t.fs.offset c (timePos s.t.fs.mask ops.aux.toInt) j)
              (s.clientByte (bufferAddr es c j))
          ∧ (j + 1 < ops.count.toNat * s.t.fs.bpf.toNat → c < s.t.fs.ch.toNat → pos = .fill es cs c (j + 1))
          ∧ (j + 1 = ops.count.toNat * s.t.fs.bpf.toNat → c + 1 < s.t.fs.ch.toNat → pos = .fill es cs (c + 1) 0)
          ∧ (j + 1 = ops.count.toNat * s.t.fs.bpf.toNat → c + 1 = s.t.fs.ch.toNat →
              pos = .pub es cs ops.aux.toInt true .upd))
    ∧ (s.cur.act = .busy ops .fin →
        ∃ t, exec .writeT s = .next t ∧ Completed s t s.cur.cmd 1 0 0 0 0 0 ∧ SameUnits s t)

/-- The data steps and the completions of READ.T (R260): byte `j` of a channel's output is written to its buffer, silence
before the clamped start and after the clamped end; then the overlap's size is reported; the last step completes with
RET 1, or with E_RETRY when the bounds read has failed, nothing written. -/
def Obligations.ReadTMoves : Prop :=
  ∀ (s : State) (ops : Latch) (es : List Entry) (w : Clip) (c j : Nat),
    (s.cur.act = .busy ops (.out es w c j) → j < ops.count.toNat * s.t.fs.bpf.toNat →
      s.reachable (bufferAddr es c j) 1 → Memory.wf s.cm = true →
      ∃ t, exec .readT s = .next t ∧ StandsAt s t ops (.out es w c (j + 1))
        ∧ ClientWrite s t (bufferAddr es c j) 1 fun _ =>
            if j < w.lead * s.t.fs.bpf.toNat then 0
            else if j < (w.lead + w.ov) * s.t.fs.bpf.toNat
              then s.t.fs.byte (s.t.fs.offset c w.pos (j - w.lead * s.t.fs.bpf.toNat))
            else 0)
    ∧ (s.cur.act = .busy ops (.out es w c j) → j = ops.count.toNat * s.t.fs.bpf.toNat →
        s.reachable (entryAddr ops c + 16) 8 → Memory.canonical s.cm = true →
        ∃ t, exec .readT s = .next t
          ∧ StandsAt s t ops (if c + 1 < s.t.fs.ch.toNat then .out es w (c + 1) 0 else .fin)
          ∧ ClientWrite s t (entryAddr ops c + 16) 8 (leByte (w.ov * s.t.fs.bpf.toNat)))
    ∧ (s.cur.act = .busy ops .fin →
        ∃ t, exec .readT s = .next t ∧ Completed s t s.cur.cmd 1 0 0 0 0 0 ∧ SameUnits s t)
    ∧ (s.cur.act = .busy ops (.got none) →
        ∃ t, exec .readT s = .next t ∧ Completed s t s.cur.cmd 0 9 0 0 0 0 ∧ SameUnits s t)

/-- WRITE.T from validation to completion, with no step of another agent between them (R250 to R257, R259): the bounds
become `(start, t + n)`, with `start` the write's time after a rewind, the old start when the write fits, `endT - CAP`
after an overrun; the frames stand at `time mod CAP`, the gap before them is zero, every other storage byte and every
client address is as before. The list is asked to be readable in its whole 24-byte entries, of which WRITE.T reads 16. -/
def Obligations.WriteTRun : Prop :=
  ∀ (s : State) (ops : Latch) (time last cs ce start stop : Int) (cap ch bpf : Nat),
    s.cur.act = .busy ops .start → s.t.fs.sound s.plat.storeT = true → s.t.fs.cap ≠ 0 → ops.addr ≠ 0 →
    cap = s.t.fs.cap.toNat → ch = s.t.fs.ch.toNat → bpf = s.t.fs.bpf.toNat →
    time = ops.aux.toInt → last = time + ops.count.toNat → cs = s.t.bounds.1 → ce = s.t.bounds.2 →
    boundsSound s.t.fs.cap cs ce → 0 ≤ time → ops.count.toNat ≤ cap → last ≤ 2 ^ 63 - 1 →
    start = (if time < ce then time else if last - cs ≤ cap then cs else last - cap) →
    stop = (if time < ce then time else if last - cs ≤ cap then ce else max (last - cap) ce) →
    ListReadable s ops ch (ops.count.toNat * bpf) →
    ∃ m t, execTimes m .writeT s = .next t ∧ Completed s t s.cur.cmd 1 0 0 0 0 0 ∧ OnlyUnitT s t
      ∧ t.t.bounds = (start, last)
      ∧ t.t.tbcnt = s.t.tbcnt + (if ce ≤ time ∧ last - cs ≤ cap then 1 else 2)
      ∧ t.t.fs = { s.t.fs with st := t.t.fs.st }
      ∧ (∀ c j b, c < ch → j < ops.count.toNat → b < bpf →
          t.t.fs.byte (s.t.fs.offset c (timePos s.t.fs.mask (time + j)) b) =
            s.clientByte ((s.listEntry ops c).ptr + BitVec.ofNat 64 (j * bpf + b)))
      ∧ (∀ c (x : Int) b, c < ch → stop ≤ x → x < time → b < bpf →
          t.t.fs.byte (s.t.fs.offset c (timePos s.t.fs.mask x) b) = 0)
      ∧ ∀ o, (∀ c (x : Int) b, c < ch → stop ≤ x → x < last → b < bpf →
            o ≠ s.t.fs.offset c (timePos s.t.fs.mask x) b) → t.t.fs.byte o = s.t.fs.byte o

/-- READ.T from validation to completion, with no step of another agent between them and the contract of R345 kept (R260
to R263, R265): frame `j` of the output is the frame of time `t + j` where that is inside the bounds and zeros where it
is not; every entry reports the bytes of the overlap; no other client address changes, and no unit but for the bytes of
`B.ST` that a buffer or list in the window shows. -/
def Obligations.ReadTRun : Prop :=
  ∀ (s : State) (ops : Latch) (time cs ce : Int) (cap ch bpf : Nat),
    s.cur.act = .busy ops .start → s.t.fs.sound s.plat.storeT = true → s.t.fs.cap ≠ 0 → ops.addr ≠ 0 →
    ops.count ≠ 0 → Memory.canonical s.cm = true →
    cap = s.t.fs.cap.toNat → ch = s.t.fs.ch.toNat → bpf = s.t.fs.bpf.toNat → time = ops.aux.toInt →
    cs = s.t.bounds.1 → ce = s.t.bounds.2 → boundsSound s.t.fs.cap cs ce →
    (s.t.slot s.t.tbcnt).upd = s.t.tbcnt → 0 ≤ time → ops.count.toNat ≤ cap →
    time + ops.count.toNat ≤ 2 ^ 63 - 1 →
    ListReadable s ops ch (ops.count.toNat * bpf) → ListApart s ops ch (ops.count.toNat * bpf) →
    ∃ m t, execTimes m .readT s = .next t ∧ Completed s t s.cur.cmd 1 0 0 0 0 0 ∧ ClientOnly s t
      ∧ Delivered s t ops ch (ops.count.toNat * bpf)
          ((min (time + ops.count.toNat) ce - max time cs).toNat * bpf) fun c i =>
            if cs ≤ time + (i / bpf : Nat) ∧ time + (i / bpf : Nat) < ce
            then s.t.fs.byte (s.t.fs.offset c (timePos s.t.fs.mask (time + (i / bpf : Nat))) (i % bpf))
            else 0

/-! ### Invariants that every step keeps -/

/-- Every step keeps every port in order: CODE one of R291's, and a busy port at a position of the command in its CMD
register, a command this port accepts (R47, R50, R291). From such a state no step ends in a fault. -/
def Obligations.PositionsKept : Prop :=
  (∀ s t : State, PositionInv s → step s = .next t → PositionInv t)
    ∧ ∀ (s : State) (r : Fault), PositionInv s → step s ≠ .fault r

/-- Every step keeps the machine in order: capacities powers of two, masks, cursors below the capacity, storage inside
its allocation and in canonical form, client memory in canonical form (R22 to R32, R62). -/
def Obligations.MachineKept : Prop :=
  ∀ s t : State, MachineInv s → step s = .next t → MachineInv t

/-- Every step keeps the bounds of unit T in order: `0 <= start <= end`, `end - start <= T.CAP`, no time above
`2^63 - 1`, and every pair a WRITE.T will publish is one (R36, R147, R258). -/
def Obligations.BoundsKept : Prop :=
  ∀ s t : State, PositionInv s → BoundsInv s → step s = .next t → BoundsInv t

/-- Every step keeps every bounds read in flight sound: as long as the slot still carries the counter value the attempt
began with, what it has read of start and end is what stands there, so a success never mixes two publications (R244),
given that fewer than `2^32` publications fall into an attempt. -/
def Obligations.SnapshotKept : Prop :=
  ∀ s t : State, PositionInv s → BoundsInv s → NoCounterWrap s → SnapshotInv s → step s = .next t → SnapshotInv t

/-- After reset, on every platform, all these invariants hold. -/
def Obligations.InvariantsAtReset : Prop :=
  ∀ p : Platform, MachineInv (State.resetOn p) ∧ BoundsInv (State.resetOn p) ∧ SnapshotInv (State.resetOn p)
    ∧ NoCounterWrap (State.resetOn p)

end
end

