-- ==== Sys2Proof/Laws/State.lean ====
section
/-! SUPPORT. The small lemmas of `State` and its named updates: one per field per update, so that no later proof unfolds
a record update or `setPort`. -/

namespace Sys2Proof.Machine

/-! ### Ports are read where they were written -/

@[simp] theorem ofUnit_b (ps : Ports) : ps.ofUnit .b = ps.b := rfl
@[simp] theorem ofUnit_f (ps : Ports) : ps.ofUnit .f = ps.f := rfl
@[simp] theorem ofUnit_t (ps : Ports) : ps.ofUnit .t = ps.t := rfl

@[simp] theorem get_set_same (up : UnitPorts) (r : Role) (p : Port) : (up.set r p).get r = p := by cases r <;> rfl

theorem get_set_ne (up : UnitPorts) {r r' : Role} (p : Port) (h : r' ≠ r) : (up.set r p).get r' = up.get r' := by
  cases r <;> cases r' <;> first | rfl | exact absurd rfl h

@[simp] theorem port_setPort_same (s : State) (q : PortId) (p : Port) : (s.setPort q p).port q = p := by
  obtain ⟨u, r⟩ := q
  cases u <;> simp [State.port, State.setPort]

theorem port_setPort_ne (s : State) {q q' : PortId} (p : Port) (h : q' ≠ q) :
    (s.setPort q p).port q' = s.port q' := by
  obtain ⟨u, r⟩ := q
  obtain ⟨u', r'⟩ := q'
  cases u <;> cases u' <;> simp [State.port, State.setPort] <;>
    exact get_set_ne _ _ (fun e => h (by rw [e]))

theorem port_setPort (s : State) (q q' : PortId) (p : Port) :
    (s.setPort q p).port q' = if q' = q then p else s.port q' := by
  by_cases h : q' = q
  · subst h; simp
  · simp [h, port_setPort_ne s p h]

@[simp] theorem setPort_plat (s : State) (q : PortId) (p : Port) : (s.setPort q p).plat = s.plat := by
  obtain ⟨u, r⟩ := q; cases u <;> rfl
@[simp] theorem setPort_b (s : State) (q : PortId) (p : Port) : (s.setPort q p).b = s.b := by
  obtain ⟨u, r⟩ := q; cases u <;> rfl
@[simp] theorem setPort_f (s : State) (q : PortId) (p : Port) : (s.setPort q p).f = s.f := by
  obtain ⟨u, r⟩ := q; cases u <;> rfl
@[simp] theorem setPort_t (s : State) (q : PortId) (p : Port) : (s.setPort q p).t = s.t := by
  obtain ⟨u, r⟩ := q; cases u <;> rfl
@[simp] theorem setPort_cm (s : State) (q : PortId) (p : Port) : (s.setPort q p).cm = s.cm := by
  obtain ⟨u, r⟩ := q; cases u <;> rfl
@[simp] theorem setPort_inputs (s : State) (q : PortId) (p : Port) : (s.setPort q p).inputs = s.inputs := by
  obtain ⟨u, r⟩ := q; cases u <;> rfl
@[simp] theorem setPort_turn (s : State) (q : PortId) (p : Port) : (s.setPort q p).turn = s.turn := by
  obtain ⟨u, r⟩ := q; cases u <;> rfl
@[simp] theorem setPort_loaded (s : State) (q : PortId) (p : Port) : (s.setPort q p).loaded = s.loaded := by
  obtain ⟨u, r⟩ := q; cases u <;> rfl

/-! ### A unit, client memory or the schedule changes no port -/

@[simp] theorem port_with_b (s : State) (x : UnitB) (q : PortId) : State.port { s with b := x } q = s.port q := rfl
@[simp] theorem port_with_f (s : State) (x : UnitF) (q : PortId) : State.port { s with f := x } q = s.port q := rfl
@[simp] theorem port_with_t (s : State) (x : UnitT) (q : PortId) : State.port { s with t := x } q = s.port q := rfl
@[simp] theorem port_with_cm (s : State) (x : Memory) (q : PortId) : State.port { s with cm := x } q = s.port q := rfl
@[simp] theorem port_with_inputs (s : State) (x : List Input) (q : PortId) :
    State.port { s with inputs := x } q = s.port q := rfl
@[simp] theorem port_with_turn (s : State) (x q : PortId) : State.port { s with turn := x } q = s.port q := rfl
@[simp] theorem port_with_loaded (s : State) (x : U64) (q : PortId) :
    State.port { s with loaded := x } q = s.port q := rfl

theorem cur_eq (s : State) : s.cur = s.port s.turn := rfl
theorem setCur_eq (s : State) (p : Port) : s.setCur p = s.setPort s.turn p := rfl

@[simp] theorem cur_with_b (s : State) (x : UnitB) : State.cur { s with b := x } = s.cur := rfl
@[simp] theorem cur_with_f (s : State) (x : UnitF) : State.cur { s with f := x } = s.cur := rfl
@[simp] theorem cur_with_t (s : State) (x : UnitT) : State.cur { s with t := x } = s.cur := rfl
@[simp] theorem cur_with_cm (s : State) (x : Memory) : State.cur { s with cm := x } = s.cur := rfl
@[simp] theorem cur_with_inputs (s : State) (x : List Input) : State.cur { s with inputs := x } = s.cur := rfl
@[simp] theorem cur_with_turn (s : State) (q : PortId) : State.cur { s with turn := q } = s.port q := rfl

/-! ### The issuing port: `setCur`, `goto`, `accept`, `completeWith` -/

@[simp] theorem setCur_plat (s : State) (p : Port) : (s.setCur p).plat = s.plat := setPort_plat _ _ _
@[simp] theorem setCur_b (s : State) (p : Port) : (s.setCur p).b = s.b := setPort_b _ _ _
@[simp] theorem setCur_f (s : State) (p : Port) : (s.setCur p).f = s.f := setPort_f _ _ _
@[simp] theorem setCur_t (s : State) (p : Port) : (s.setCur p).t = s.t := setPort_t _ _ _
@[simp] theorem setCur_cm (s : State) (p : Port) : (s.setCur p).cm = s.cm := setPort_cm _ _ _
@[simp] theorem setCur_inputs (s : State) (p : Port) : (s.setCur p).inputs = s.inputs := setPort_inputs _ _ _
@[simp] theorem setCur_turn (s : State) (p : Port) : (s.setCur p).turn = s.turn := setPort_turn _ _ _
@[simp] theorem setCur_loaded (s : State) (p : Port) : (s.setCur p).loaded = s.loaded := setPort_loaded _ _ _
@[simp] theorem cur_setCur (s : State) (p : Port) : (s.setCur p).cur = p := by simp [State.cur, State.setCur]
@[simp] theorem port_setCur_turn (s : State) (p : Port) : (s.setCur p).port s.turn = p := by simp [State.setCur]

theorem port_setCur (s : State) (p : Port) (q : PortId) :
    (s.setCur p).port q = if q = s.turn then p else s.port q := port_setPort _ _ _ _

theorem port_setCur_ne (s : State) (p : Port) {q : PortId} (h : q ≠ s.turn) : (s.setCur p).port q = s.port q :=
  port_setPort_ne _ _ h

@[simp] theorem goto_plat (s : State) (l : Latch) (x : Pos) : (s.goto l x).plat = s.plat := setCur_plat _ _
@[simp] theorem goto_b (s : State) (l : Latch) (x : Pos) : (s.goto l x).b = s.b := setCur_b _ _
@[simp] theorem goto_f (s : State) (l : Latch) (x : Pos) : (s.goto l x).f = s.f := setCur_f _ _
@[simp] theorem goto_t (s : State) (l : Latch) (x : Pos) : (s.goto l x).t = s.t := setCur_t _ _
@[simp] theorem goto_cm (s : State) (l : Latch) (x : Pos) : (s.goto l x).cm = s.cm := setCur_cm _ _
@[simp] theorem goto_inputs (s : State) (l : Latch) (x : Pos) : (s.goto l x).inputs = s.inputs := setCur_inputs _ _
@[simp] theorem goto_turn (s : State) (l : Latch) (x : Pos) : (s.goto l x).turn = s.turn := setCur_turn _ _
@[simp] theorem goto_loaded (s : State) (l : Latch) (x : Pos) : (s.goto l x).loaded = s.loaded := setCur_loaded _ _
@[simp] theorem cur_goto (s : State) (l : Latch) (x : Pos) : (s.goto l x).cur = { s.cur with act := .busy l x } :=
  cur_setCur _ _

theorem port_goto_ne (s : State) (l : Latch) (x : Pos) {q : PortId} (h : q ≠ s.turn) :
    (s.goto l x).port q = s.port q := port_setCur_ne _ _ h

@[simp] theorem accept_plat (s : State) (w : U32) : (s.accept w).plat = s.plat := setCur_plat _ _
@[simp] theorem accept_b (s : State) (w : U32) : (s.accept w).b = s.b := setCur_b _ _
@[simp] theorem accept_f (s : State) (w : U32) : (s.accept w).f = s.f := setCur_f _ _
@[simp] theorem accept_t (s : State) (w : U32) : (s.accept w).t = s.t := setCur_t _ _
@[simp] theorem accept_cm (s : State) (w : U32) : (s.accept w).cm = s.cm := setCur_cm _ _
@[simp] theorem accept_inputs (s : State) (w : U32) : (s.accept w).inputs = s.inputs := setCur_inputs _ _
@[simp] theorem accept_turn (s : State) (w : U32) : (s.accept w).turn = s.turn := setCur_turn _ _
@[simp] theorem accept_loaded (s : State) (w : U32) : (s.accept w).loaded = s.loaded := setCur_loaded _ _
@[simp] theorem cur_accept (s : State) (w : U32) : (s.accept w).cur = { s.cur with cmd := w } := cur_setCur _ _

theorem port_accept_ne (s : State) (w : U32) {q : PortId} (h : q ≠ s.turn) : (s.accept w).port q = s.port q :=
  port_setCur_ne _ _ h

section Completion
variable (s : State) (ret : U32) (code : Code) (r0 r1 r2 r3 : U64)

@[simp] theorem completeWith_plat : (s.completeWith ret code r0 r1 r2 r3).plat = s.plat := setCur_plat _ _
@[simp] theorem completeWith_b : (s.completeWith ret code r0 r1 r2 r3).b = s.b := setCur_b _ _
@[simp] theorem completeWith_f : (s.completeWith ret code r0 r1 r2 r3).f = s.f := setCur_f _ _
@[simp] theorem completeWith_t : (s.completeWith ret code r0 r1 r2 r3).t = s.t := setCur_t _ _
@[simp] theorem completeWith_cm : (s.completeWith ret code r0 r1 r2 r3).cm = s.cm := setCur_cm _ _
@[simp] theorem completeWith_inputs : (s.completeWith ret code r0 r1 r2 r3).inputs = s.inputs := setCur_inputs _ _
@[simp] theorem completeWith_turn : (s.completeWith ret code r0 r1 r2 r3).turn = s.turn := setCur_turn _ _
@[simp] theorem completeWith_loaded : (s.completeWith ret code r0 r1 r2 r3).loaded = s.loaded := setCur_loaded _ _
@[simp] theorem cur_completeWith : (s.completeWith ret code r0 r1 r2 r3).cur =
    { s.cur with
      ret := ret, code := codeNumber code, res0 := r0, res1 := r1, res2 := r2, res3 := r3, act := .idle } :=
  cur_setCur _ _

theorem port_completeWith_ne {q : PortId} (h : q ≠ s.turn) :
    (s.completeWith ret code r0 r1 r2 r3).port q = s.port q := port_setCur_ne _ _ h

/-- A completion does what R14 says, and nothing else. -/
theorem completeWith_completed :
    Completed s (s.completeWith ret code r0 r1 r2 r3) s.cur.cmd ret (codeNumber code) r0 r1 r2 r3 where
  elsewhere := ⟨by simp, by simp, by simp, by simp, fun _ h => port_completeWith_ne s ret code r0 r1 r2 r3 h⟩
  port := by simp [State.completeWith, State.cur]

/-- A completion leaves the units and client memory alone. -/
theorem completeWith_sameUnits : SameUnits s (s.completeWith ret code r0 r1 r2 r3) :=
  ⟨by simp, by simp, by simp, by simp, fun _ => by simp [State.clientByte, State.windowOffset]⟩

end Completion

/-- Going to a position changes the issuing port's position only (R47). -/
theorem goto_standsAt (s : State) (l : Latch) (x : Pos) : StandsAt s (s.goto l x) l x where
  elsewhere := ⟨by simp, by simp, by simp, by simp, fun _ h => port_goto_ne s l x h⟩
  port := by simp [State.goto, State.cur]

/-! ### Client bytes: one write of one byte (R66, R67) -/

section ClientByte
variable (s : State) (a : U64) (v : Byte)

@[simp] theorem setClientByte_plat : (s.setClientByte a v).plat = s.plat := by
  unfold State.setClientByte; split <;> rfl
@[simp] theorem setClientByte_f : (s.setClientByte a v).f = s.f := by unfold State.setClientByte; split <;> rfl
@[simp] theorem setClientByte_t : (s.setClientByte a v).t = s.t := by unfold State.setClientByte; split <;> rfl
@[simp] theorem setClientByte_ports : (s.setClientByte a v).ports = s.ports := by
  unfold State.setClientByte; split <;> rfl
@[simp] theorem setClientByte_inputs : (s.setClientByte a v).inputs = s.inputs := by
  unfold State.setClientByte; split <;> rfl
@[simp] theorem setClientByte_turn : (s.setClientByte a v).turn = s.turn := by
  unfold State.setClientByte; split <;> rfl
@[simp] theorem setClientByte_loaded : (s.setClientByte a v).loaded = s.loaded := by
  unfold State.setClientByte; split <;> rfl
@[simp] theorem setClientByte_port (q : PortId) : (s.setClientByte a v).port q = s.port q := by
  simp [State.port]
@[simp] theorem setClientByte_cur : (s.setClientByte a v).cur = s.cur := by simp [State.cur]

/-- A client byte's write changes of unit B at most one storage byte. -/
@[simp] theorem setClientByte_cap : (s.setClientByte a v).b.cap = s.b.cap := by
  unfold State.setClientByte; split <;> rfl
@[simp] theorem setClientByte_mask : (s.setClientByte a v).b.mask = s.b.mask := by
  unfold State.setClientByte; split <;> rfl
@[simp] theorem setClientByte_rpos : (s.setClientByte a v).b.rpos = s.b.rpos := by
  unfold State.setClientByte; split <;> rfl
@[simp] theorem setClientByte_wpos : (s.setClientByte a v).b.wpos = s.b.wpos := by
  unfold State.setClientByte; split <;> rfl
@[simp] theorem setClientByte_gen : (s.setClientByte a v).b.gen = s.b.gen := by
  unfold State.setClientByte; split <;> rfl

theorem setClientByte_b (h : s.windowOffset a = none) : (s.setClientByte a v).b = s.b := by
  simp [State.setClientByte, h]

theorem setClientByte_cm (h : s.windowOffset a = none) :
    (s.setClientByte a v).cm = zeroPut s.cm a.toNat v := by simp [State.setClientByte, h]

@[simp] theorem setClientByte_windowOffset (x : U64) : (s.setClientByte a v).windowOffset x = s.windowOffset x := by
  simp [State.windowOffset]

@[simp] theorem setClientByte_admits (x : U64) : (s.setClientByte a v).admits x = s.admits x := by
  simp [State.admits, State.windowClosed]

end ClientByte

/-- The window is where B.CAP and `WIN_BASE_B` say, and nothing else moves it. -/
theorem windowOffset_congr {s t : State} (hp : t.plat = s.plat) (hc : t.b.cap = s.b.cap) (x : U64) :
    t.windowOffset x = s.windowOffset x := by simp [State.windowOffset, hp, hc]

theorem admits_congr {s t : State} (hp : t.plat = s.plat) (hc : t.b.cap = s.b.cap) (x : U64) :
    t.admits x = s.admits x := by simp [State.admits, State.windowClosed, windowOffset_congr hp hc, hp]

/-- A client byte depends on client memory, on unit B's storage and on where the window is. -/
theorem clientByte_congr {s t : State} (hp : t.plat = s.plat) (hb : t.b = s.b) (hm : t.cm = s.cm) (x : U64) :
    t.clientByte x = s.clientByte x := by simp [State.clientByte, State.windowOffset, hp, hb, hm]

end Sys2Proof.Machine
end

