-- ==== Sys2Proof/Laws/Memory.lean ====
section
/-! SUPPORT. The laws of the memories: read after write, every other byte as before, and the canonical form is kept. -/

namespace Sys2Proof.Machine

/-- A write leaves every other address alone. -/
theorem memGet_memPut_ne (m : Memory) {a b : Nat} (v : Option Byte) (h : b ≠ a) :
    memGet (memPut m a v) b = memGet m b := by
  induction m with
  | nil => cases v <;> simp [memPut, memGet, h]
  | cons c m ih =>
    obtain ⟨k, x⟩ := c
    simp only [memPut]
    split
    · cases v <;> simp [memGet, h]
    · split
      · rename_i e; subst e
        cases v <;> simp [memGet, h]
      · simp [memGet, ih]

/-- A byte written is the byte read. -/
theorem memGet_memPut_some (m : Memory) (a : Nat) (v : Byte) : memGet (memPut m a (some v)) a = some v := by
  induction m with
  | nil => simp [memPut, memGet]
  | cons c m ih =>
    obtain ⟨k, x⟩ := c
    simp only [memPut]
    split
    · simp [memGet]
    · split
      · simp [memGet]
      · rename_i e; simp [memGet, e, ih]

/-- An address below every listed one is not listed. -/
theorem memGet_none_of_lt {m : Memory} {a : Nat} (h : ∀ c ∈ m, a < c.1) : memGet m a = none := by
  induction m with
  | nil => rfl
  | cons c m ih =>
    obtain ⟨k, x⟩ := c
    have hk : a < k := h (k, x) (by simp)
    simp [memGet, Nat.ne_of_lt hk, ih fun c hc => h c (by simp [hc])]

theorem Memory.wf_iff (m : Memory) : Memory.wf m = true ↔ m.Pairwise fun x y => x.1 < y.1 := by simp [Memory.wf]

/-- A byte un-listed is not listed. -/
theorem memGet_memPut_none {m : Memory} (a : Nat) (h : Memory.wf m = true) : memGet (memPut m a none) a = none := by
  rw [Memory.wf_iff] at h
  induction m with
  | nil => simp [memPut, memGet]
  | cons c m ih =>
    obtain ⟨k, x⟩ := c
    rw [List.pairwise_cons] at h
    simp only [memPut]
    split
    · rename_i hlt
      simp only [memGet, Nat.ne_of_lt hlt, if_false]
      exact memGet_none_of_lt fun c hc => Nat.lt_trans hlt (h.1 c hc)
    · split
      · rename_i e; subst e
        exact memGet_none_of_lt h.1
      · rename_i e; simp [memGet, e, ih h.2]

/-- What a write lists is listed before it, or is the address written. -/
theorem mem_memPut {m : Memory} {a : Nat} {v : Option Byte} {c : Host.Cell} (h : c ∈ memPut m a v) :
    c ∈ m ∨ (c.1 = a ∧ v = some c.2) := by
  induction m with
  | nil =>
    cases v with
    | none => simp [memPut] at h
    | some y => simp only [memPut, List.mem_singleton] at h; subst h; simp
  | cons d m ih =>
    obtain ⟨k, x⟩ := d
    simp only [memPut] at h
    split at h
    · cases v with
      | none => exact .inl h
      | some y =>
        simp only [List.mem_cons] at h
        rcases h with rfl | h
        · simp
        · exact .inl (by simpa using h)
    · split at h
      · cases v with
        | none => exact .inl (by simp [h])
        | some y =>
          simp only [List.mem_cons] at h
          rcases h with rfl | h
          · simp
          · exact .inl (by simp [h])
      · simp only [List.mem_cons] at h
        rcases h with rfl | h
        · simp
        · rcases ih h with h | h
          · exact .inl (by simp [h])
          · exact .inr h

/-- Every write keeps the addresses strictly rising. -/
theorem memPut_wf {m : Memory} (a : Nat) (v : Option Byte) (h : Memory.wf m = true) : Memory.wf (memPut m a v) = true := by
  rw [Memory.wf_iff] at h ⊢
  induction m with
  | nil => cases v <;> simp [memPut]
  | cons d m ih =>
    obtain ⟨k, x⟩ := d
    have hc := List.pairwise_cons.1 h
    simp only [memPut]
    split
    · rename_i hlt
      cases v with
      | none => exact h
      | some y =>
        refine List.pairwise_cons.2 ⟨fun c hm => ?_, h⟩
        simp only [List.mem_cons] at hm
        rcases hm with rfl | hm
        · exact hlt
        · exact Nat.lt_trans hlt (hc.1 c hm)
    · split
      · rename_i e; subst e
        cases v with
        | none => exact hc.2
        | some y => exact List.pairwise_cons.2 ⟨hc.1, hc.2⟩
      · rename_i hlt hne
        refine List.pairwise_cons.2 ⟨fun c hm => ?_, ih hc.2⟩
        rcases mem_memPut hm with hm | ⟨e, _⟩
        · exact hc.1 c hm
        · have e' : c.1 = a := e
          show k < c.1
          omega

theorem Memory.canonical_iff (m : Memory) :
    Memory.canonical m = true ↔ Memory.wf m = true ∧ ∀ c ∈ m, c.2 ≠ 0 := by
  simp [Memory.canonical, List.all_eq_true]

theorem Memory.below_iff (m : Memory) (n : Nat) : Memory.below m n = true ↔ ∀ c ∈ m, c.1 < n := by
  simp [Memory.below, List.all_eq_true]

/-- Every write of a zero-default memory keeps its canonical form. -/
theorem zeroPut_canonical {m : Memory} (a : Nat) (v : Byte) (h : Memory.canonical m = true) :
    Memory.canonical (zeroPut m a v) = true := by
  rw [Memory.canonical_iff] at h ⊢
  refine ⟨memPut_wf _ _ h.1, fun c hc => ?_⟩
  rcases mem_memPut hc with hc | ⟨_, e⟩
  · exact h.2 c hc
  · split at e
    · cases e
    · rename_i hv; cases e; exact hv

theorem memPut_below {m : Memory} {n a : Nat} (v : Option Byte) (h : Memory.below m n = true) (ha : a < n) :
    Memory.below (memPut m a v) n = true := by
  rw [Memory.below_iff] at h ⊢
  intro c hc
  rcases mem_memPut hc with hc | ⟨e, _⟩
  · exact h c hc
  · omega

theorem zeroPut_below {m : Memory} {n a : Nat} (v : Byte) (h : Memory.below m n = true) (ha : a < n) :
    Memory.below (zeroPut m a v) n = true := memPut_below _ h ha

/-- Reading a byte of a zero-default memory after a write to another address. -/
theorem zeroGet_zeroPut_ne (m : Memory) {a b : Nat} (v : Byte) (h : b ≠ a) :
    zeroGet (zeroPut m a v) b = zeroGet m b := by simp [zeroGet, zeroPut, memGet_memPut_ne m _ h]

/-- Reading back the byte written. -/
theorem zeroGet_zeroPut_same {m : Memory} (a : Nat) (v : Byte) (h : Memory.wf m = true) :
    zeroGet (zeroPut m a v) a = v := by
  simp only [zeroGet, zeroPut]
  split
  · rename_i e; simp [memGet_memPut_none a h, e]
  · simp [memGet_memPut_some]

theorem zeroPutLE_canonical {m : Memory} (a n v : Nat) (h : Memory.canonical m = true) :
    Memory.canonical (zeroPutLE m a n v) = true := by
  induction n with
  | zero => simpa [zeroPutLE] using h
  | succ n ih =>
    simp only [zeroPutLE, List.range_succ, List.foldl_append, List.foldl_cons, List.foldl_nil]
    exact zeroPut_canonical _ _ ih

theorem zeroPutLE_below {m : Memory} {a n v k : Nat} (h : Memory.below m k = true) (ha : a + n ≤ k) :
    Memory.below (zeroPutLE m a n v) k = true := by
  induction n with
  | zero => simpa [zeroPutLE] using h
  | succ n ih =>
    simp only [zeroPutLE, List.range_succ, List.foldl_append, List.foldl_cons, List.foldl_nil]
    exact zeroPut_below _ (ih (by omega)) (by omega)

/-- The bytes a little-endian write leaves alone. -/
theorem zeroGet_zeroPutLE_ne (m : Memory) {a n v b : Nat} (h : b < a ∨ a + n ≤ b) :
    zeroGet (zeroPutLE m a n v) b = zeroGet m b := by
  induction n with
  | zero => simp [zeroPutLE]
  | succ n ih =>
    simp only [zeroPutLE, List.range_succ, List.foldl_append, List.foldl_cons, List.foldl_nil]
    rw [zeroGet_zeroPut_ne _ _ (by omega)]
    exact ih (by omega)

/-- The bytes of a little-endian write. -/
theorem zeroGet_zeroPutLE {m : Memory} (a n v : Nat) {j : Nat} (h : Memory.canonical m = true) (hj : j < n) :
    zeroGet (zeroPutLE m a n v) (a + j) = leByte v j := by
  induction n with
  | zero => omega
  | succ n ih =>
    have hc := (Memory.canonical_iff _).1 (zeroPutLE_canonical a n v h)
    simp only [zeroPutLE] at hc
    simp only [zeroPutLE, List.range_succ, List.foldl_append, List.foldl_cons, List.foldl_nil]
    by_cases e : j = n
    · subst e; exact zeroGet_zeroPut_same _ _ hc.1
    · rw [zeroGet_zeroPut_ne _ _ (by omega)]
      exact ih (by omega)

theorem pointerTable_canonical (cap ch bpf : Nat) : Memory.canonical (pointerTable cap ch bpf) = true := by
  suffices ∀ n, Memory.canonical ((List.range n).foldl
      (fun m c => zeroPutLE m (Config.ptrBytes * c) Config.ptrBytes (regionBase cap ch bpf c)) []) = true from this ch
  intro n
  induction n with
  | zero => rfl
  | succ n ih =>
    simp only [List.range_succ, List.foldl_append, List.foldl_cons, List.foldl_nil]
    exact zeroPutLE_canonical _ _ _ ih

theorem pointerTable_below (cap ch bpf : Nat) :
    Memory.below (pointerTable cap ch bpf) (Config.ptrBytes * ch) = true := by
  suffices ∀ n, n ≤ ch → Memory.below ((List.range n).foldl
      (fun m c => zeroPutLE m (Config.ptrBytes * c) Config.ptrBytes (regionBase cap ch bpf c)) [])
      (Config.ptrBytes * ch) = true from this ch (Nat.le_refl _)
  intro n
  induction n with
  | zero => intro _; rfl
  | succ n ih =>
    intro hn
    simp only [List.range_succ, List.foldl_append, List.foldl_cons, List.foldl_nil]
    refine zeroPutLE_below (ih (by omega)) ?_
    simp only [Config.ptrBytes]; omega

/-- Entry `c` of the pointer table is `base(c)`, little-endian (R30). -/
theorem zeroGet_pointerTable (cap ch bpf : Nat) {c j : Nat} (hc : c < ch) (hj : j < Config.ptrBytes) :
    zeroGet (pointerTable cap ch bpf) (Config.ptrBytes * c + j) = leByte (regionBase cap ch bpf c) j := by
  suffices ∀ n, c < n → zeroGet ((List.range n).foldl
      (fun m c => zeroPutLE m (Config.ptrBytes * c) Config.ptrBytes (regionBase cap ch bpf c)) [])
      (Config.ptrBytes * c + j) = leByte (regionBase cap ch bpf c) j ∧
      Memory.canonical ((List.range n).foldl
      (fun m c => zeroPutLE m (Config.ptrBytes * c) Config.ptrBytes (regionBase cap ch bpf c)) []) = true
    from (this ch hc).1
  intro n
  induction n with
  | zero => omega
  | succ n ih =>
    intro hn
    have hcan : ∀ n, Memory.canonical ((List.range n).foldl
        (fun m c => zeroPutLE m (Config.ptrBytes * c) Config.ptrBytes (regionBase cap ch bpf c)) []) = true := by
      intro n
      induction n with
      | zero => rfl
      | succ n ih =>
        simp only [List.range_succ, List.foldl_append, List.foldl_cons, List.foldl_nil]
        exact zeroPutLE_canonical _ _ _ ih
    refine ⟨?_, hcan _⟩
    simp only [List.range_succ, List.foldl_append, List.foldl_cons, List.foldl_nil]
    by_cases e : c = n
    · subst e; exact zeroGet_zeroPutLE _ _ _ (hcan _) hj
    · rw [zeroGet_zeroPutLE_ne _ (.inl (by simp only [Config.ptrBytes] at *; omega))]
      exact (ih (by omega)).1

/-! ### Storage bytes -/

@[simp] theorem setByte_cap (u : UnitB) (i : Nat) (v : Byte) : (u.setByte i v).cap = u.cap := rfl
@[simp] theorem setByte_mask (u : UnitB) (i : Nat) (v : Byte) : (u.setByte i v).mask = u.mask := rfl
@[simp] theorem setByte_rpos (u : UnitB) (i : Nat) (v : Byte) : (u.setByte i v).rpos = u.rpos := rfl
@[simp] theorem setByte_wpos (u : UnitB) (i : Nat) (v : Byte) : (u.setByte i v).wpos = u.wpos := rfl
@[simp] theorem setByte_gen (u : UnitB) (i : Nat) (v : Byte) : (u.setByte i v).gen = u.gen := rfl
@[simp] theorem frame_setByte_ch (u : FrameStore) (i : Nat) (v : Byte) : (u.setByte i v).ch = u.ch := rfl
@[simp] theorem frame_setByte_bpf (u : FrameStore) (i : Nat) (v : Byte) : (u.setByte i v).bpf = u.bpf := rfl
@[simp] theorem frame_setByte_cap (u : FrameStore) (i : Nat) (v : Byte) : (u.setByte i v).cap = u.cap := rfl
@[simp] theorem frame_setByte_mask (u : FrameStore) (i : Nat) (v : Byte) : (u.setByte i v).mask = u.mask := rfl
@[simp] theorem frame_setByte_bytes (u : FrameStore) (i k : Nat) (v : Byte) :
    (u.setByte i v).bytes k = u.bytes k := rfl
@[simp] theorem frame_setByte_offset (u : FrameStore) (i c j : Nat) (p : U32) (v : Byte) :
    (u.setByte i v).offset c p j = u.offset c p j := rfl

theorem byte_setByte_same (u : UnitB) (i : Nat) (v : Byte) : (u.setByte i v).byte i = v := by
  simp [UnitB.byte, UnitB.setByte, memGet_memPut_some]

theorem byte_setByte_ne (u : UnitB) {i j : Nat} (v : Byte) (h : j ≠ i) : (u.setByte i v).byte j = u.byte j := by
  simp [UnitB.byte, UnitB.setByte, memGet_memPut_ne _ _ h]

theorem frame_byte_setByte_same (u : FrameStore) (i : Nat) (v : Byte) (h : Memory.wf u.st = true) :
    (u.setByte i v).byte i = v := zeroGet_zeroPut_same _ _ h

theorem frame_byte_setByte_ne (u : FrameStore) {i j : Nat} (v : Byte) (h : j ≠ i) :
    (u.setByte i v).byte j = u.byte j := zeroGet_zeroPut_ne _ _ h

/-! ### Client bytes -/

/-- A client byte written is the byte read (R66, R67). -/
theorem clientByte_set_same (s : State) (a : U64) (v : Byte) (h : Memory.wf s.cm = true) :
    (s.setClientByte a v).clientByte a = v := by
  unfold State.clientByte
  rw [setClientByte_windowOffset]
  unfold State.setClientByte
  split <;> rename_i i e <;> simp only
  · exact byte_setByte_same _ _ _
  · exact zeroGet_zeroPut_same _ _ h

theorem windowOffset_inj (s : State) {a b : U64} {i : Nat} (ha : s.windowOffset a = some i)
    (hb : s.windowOffset b = some i) : a = b := by
  simp only [State.windowOffset] at ha hb
  split at ha
  · split at hb
    · simp only [Option.some.injEq] at ha hb
      have e : a - s.plat.winBase = b - s.plat.winBase := BitVec.eq_of_toNat_eq (by omega)
      calc a = a - s.plat.winBase + s.plat.winBase := (BitVec.sub_add_cancel _ _).symm
        _ = b - s.plat.winBase + s.plat.winBase := by rw [e]
        _ = b := BitVec.sub_add_cancel _ _
    · cases hb
  · cases ha

/-- A write of one client byte leaves every other client byte alone. -/
theorem clientByte_set_ne (s : State) {a b : U64} (v : Byte) (h : b ≠ a) :
    (s.setClientByte a v).clientByte b = s.clientByte b := by
  unfold State.clientByte
  rw [setClientByte_windowOffset]
  cases hb : s.windowOffset b with
  | none =>
    cases ha : s.windowOffset a with
    | none =>
      simp only [State.setClientByte, ha]
      exact zeroGet_zeroPut_ne _ _ fun e => h (BitVec.eq_of_toNat_eq e)
    | some i => simp only [State.setClientByte, ha]
  | some j =>
    cases ha : s.windowOffset a with
    | none => simp only [State.setClientByte, ha]
    | some i =>
      simp only [State.setClientByte, ha]
      exact byte_setByte_ne _ _ fun e => h (windowOffset_inj s hb (e ▸ ha))

theorem setClientByte_cm_canonical (s : State) (a : U64) (v : Byte) (h : Memory.canonical s.cm = true) :
    Memory.canonical (s.setClientByte a v).cm = true := by
  unfold State.setClientByte
  split
  · exact h
  · exact zeroPut_canonical _ _ h

end Sys2Proof.Machine
end

