-- ==== Sys2Proof/Laws/Exec.lean ====
section
/-! SUPPORT. What the shared operations, and one step of a command, can do: each said once, for later proofs to cite. -/

namespace Sys2Proof.Machine

/-! ### Decoding an encoded command -/

theorem decode_encode (i : Instr) : decode (encode i) = .ok i := by
  cases i with
  | readB ap | peekB ap | writeB ap | readF ap | writeF ap => cases ap <;> decide
  | _ => decide

/-! ### Guarded accesses (R68, U5) -/

theorem mem_addresses {a : U64} {n : Nat} {x : U64} :
    x ∈ addresses a n ↔ ∃ i, i < n ∧ a + BitVec.ofNat 64 i = x := by simp [addresses]

/-- A guarded step that goes on either goes where it leads or is not enabled. -/
theorem guarded_next {s : State} {a : U64} {n : Nat} {k t : State} (h : guarded s a n k = .next t) : t = k ∨ t = s := by
  unfold guarded at h
  split at h
  · split at h
    · cases h
    · cases h; exact .inl rfl
  · cases h; exact .inr rfl

/-- A guarded step never faults. -/
theorem guarded_ne_fault {s : State} {a : U64} {n : Nat} {k : State} {r : Fault} : guarded s a n k ≠ .fault r := by
  unfold guarded; split
  · split <;> intro h <;> cases h
  · intro h; cases h

/-- A guarded step whose bytes can all be accessed is taken. -/
theorem guarded_reachable {s : State} {a : U64} {n : Nat} (k : State) (h : s.reachable a n) :
    guarded s a n k = .next k := by
  have h1 : (addresses a n).all s.admits = true := by
    rw [List.all_eq_true]; intro x hx
    obtain ⟨i, hi, rfl⟩ := mem_addresses.1 hx
    exact (h i hi).1
  have h2 : ¬ (addresses a n).any (fun x => (blockAt s.plat x).isSome) = true := by
    rw [List.any_eq_true]; rintro ⟨x, hx, e⟩
    obtain ⟨i, hi, rfl⟩ := mem_addresses.1 hx
    rw [(h i hi).2] at e; cases e
  unfold guarded
  rw [if_pos h1, if_neg h2]

/-- A guarded step with a byte that is not admitted is not taken (R68, R310). -/
theorem guarded_stuck {s : State} {a : U64} {n : Nat} (k : State) {i : Nat} (hi : i < n)
    (h : s.admits (a + BitVec.ofNat 64 i) = false) : guarded s a n k = .next s := by
  unfold guarded
  rw [if_neg]
  rw [List.all_eq_true]; intro hall
  have := hall _ (mem_addresses.2 ⟨i, hi, rfl⟩)
  rw [h] at this; cases this

/-! ### Multi-byte client writes -/

section MemWrite
variable (s : State) (a : U64) (n v : Nat)

/-- A multi-byte write is its byte writes in order. -/
theorem memWrite_succ : s.memWrite a (n + 1) v =
    (s.memWrite a n v).setClientByte (a + BitVec.ofNat 64 n) (leByte v n) := by
  simp [State.memWrite, List.range_succ]

theorem memWrite_zero : s.memWrite a 0 v = s := rfl

@[simp] theorem memWrite_plat : (s.memWrite a n v).plat = s.plat := by
  induction n with
  | zero => rfl
  | succ n ih => rw [memWrite_succ]; simpa using ih
@[simp] theorem memWrite_f : (s.memWrite a n v).f = s.f := by
  induction n with
  | zero => rfl
  | succ n ih => rw [memWrite_succ]; simpa using ih
@[simp] theorem memWrite_t : (s.memWrite a n v).t = s.t := by
  induction n with
  | zero => rfl
  | succ n ih => rw [memWrite_succ]; simpa using ih
@[simp] theorem memWrite_ports : (s.memWrite a n v).ports = s.ports := by
  induction n with
  | zero => rfl
  | succ n ih => rw [memWrite_succ]; simpa using ih
@[simp] theorem memWrite_inputs : (s.memWrite a n v).inputs = s.inputs := by
  induction n with
  | zero => rfl
  | succ n ih => rw [memWrite_succ]; simpa using ih
@[simp] theorem memWrite_turn : (s.memWrite a n v).turn = s.turn := by
  induction n with
  | zero => rfl
  | succ n ih => rw [memWrite_succ]; simpa using ih
@[simp] theorem memWrite_loaded : (s.memWrite a n v).loaded = s.loaded := by
  induction n with
  | zero => rfl
  | succ n ih => rw [memWrite_succ]; simpa using ih
@[simp] theorem memWrite_cap : (s.memWrite a n v).b.cap = s.b.cap := by
  induction n with
  | zero => rfl
  | succ n ih => rw [memWrite_succ]; simpa using ih
@[simp] theorem memWrite_mask : (s.memWrite a n v).b.mask = s.b.mask := by
  induction n with
  | zero => rfl
  | succ n ih => rw [memWrite_succ]; simpa using ih
@[simp] theorem memWrite_rpos : (s.memWrite a n v).b.rpos = s.b.rpos := by
  induction n with
  | zero => rfl
  | succ n ih => rw [memWrite_succ]; simpa using ih
@[simp] theorem memWrite_wpos : (s.memWrite a n v).b.wpos = s.b.wpos := by
  induction n with
  | zero => rfl
  | succ n ih => rw [memWrite_succ]; simpa using ih
@[simp] theorem memWrite_gen : (s.memWrite a n v).b.gen = s.b.gen := by
  induction n with
  | zero => rfl
  | succ n ih => rw [memWrite_succ]; simpa using ih
@[simp] theorem memWrite_port (q : PortId) : (s.memWrite a n v).port q = s.port q := by simp [State.port]
@[simp] theorem memWrite_cur : (s.memWrite a n v).cur = s.cur := by simp [State.cur]
@[simp] theorem memWrite_windowOffset (x : U64) : (s.memWrite a n v).windowOffset x = s.windowOffset x :=
  windowOffset_congr (by simp) (by simp) x
@[simp] theorem memWrite_admits (x : U64) : (s.memWrite a n v).admits x = s.admits x :=
  admits_congr (by simp) (by simp) x

theorem memWrite_cm_canonical (h : Memory.canonical s.cm = true) : Memory.canonical (s.memWrite a n v).cm = true := by
  induction n with
  | zero => exact h
  | succ n ih => rw [memWrite_succ]; exact setClientByte_cm_canonical _ _ _ ih

/-- The bytes a multi-byte write leaves alone. -/
theorem clientByte_memWrite_ne {x : U64} (h : ¬ inRun a n x) : (s.memWrite a n v).clientByte x = s.clientByte x := by
  induction n with
  | zero => rfl
  | succ n ih =>
    rw [memWrite_succ, clientByte_set_ne _ _ fun e => h ⟨n, Nat.lt_succ_self n, e⟩]
    exact ih fun ⟨i, hi, e⟩ => h ⟨i, Nat.lt_succ_of_lt hi, e⟩

end MemWrite

/-! ### What stands elsewhere -/

theorem SameElsewhere.refl (s : State) : SameElsewhere s s := ⟨rfl, rfl, rfl, rfl, fun _ _ => rfl⟩

theorem SameElsewhere.trans {s t u : State} (h : SameElsewhere s t) (k : SameElsewhere t u) : SameElsewhere s u where
  plat := k.plat.trans h.plat
  inputs := k.inputs.trans h.inputs
  turn := k.turn.trans h.turn
  loaded := k.loaded.trans h.loaded
  ports q hq := (k.ports q (h.turn ▸ hq)).trans (h.ports q hq)

theorem elsewhere_completeWith (s : State) (ret : U32) (code : Code) (r0 r1 r2 r3 : U64) :
    SameElsewhere s (s.completeWith ret code r0 r1 r2 r3) := (completeWith_completed s ret code r0 r1 r2 r3).elsewhere

theorem elsewhere_goto (s : State) (l : Latch) (x : Pos) : SameElsewhere s (s.goto l x) := (goto_standsAt s l x).elsewhere

theorem elsewhere_accept (s : State) (w : U32) : SameElsewhere s (s.accept w) :=
  ⟨by simp, by simp, by simp, by simp, fun _ h => port_accept_ne s w h⟩

theorem elsewhere_setClientByte (s : State) (a : U64) (v : Byte) : SameElsewhere s (s.setClientByte a v) :=
  ⟨by simp, by simp, by simp, by simp, fun _ _ => by simp⟩

theorem elsewhere_memWrite (s : State) (a : U64) (n v : Nat) : SameElsewhere s (s.memWrite a n v) :=
  ⟨by simp, by simp, by simp, by simp, fun _ _ => by simp⟩

theorem elsewhere_with_b (s : State) (x : UnitB) : SameElsewhere s { s with b := x } := ⟨rfl, rfl, rfl, rfl, fun _ _ => rfl⟩
theorem elsewhere_with_f (s : State) (x : UnitF) : SameElsewhere s { s with f := x } := ⟨rfl, rfl, rfl, rfl, fun _ _ => rfl⟩
theorem elsewhere_with_t (s : State) (x : UnitT) : SameElsewhere s { s with t := x } := ⟨rfl, rfl, rfl, rfl, fun _ _ => rfl⟩

/-! ### One step of a command on its port -/

/-- What one step of command `i` leaves on the issuing port: nothing happened (the step was not enabled); or the port
has completed with a code of R291; or it is busy at a position of `i`, freshly issued or going on. -/
inductive PortStep (i : Instr) (s t : State) : Prop where
  | same (h : t = s)
  | done (code : Code) (act : t.cur.act = .idle) (code_eq : t.cur.code = codeNumber code)
  | issued (idle : s.cur.act = .idle) (wf : i.wellFormedOn s.turn = true) (data : isData i = true)
      (port : t.cur = { s.cur with cmd := encode i, act := .busy s.cur.latch .start })
  | on (ops : Latch) (pos pos' : Pos) (was : s.cur.act = .busy ops pos) (fits : posFits i pos' = true)
      (port : t.cur = { s.cur with act := .busy ops pos' })

theorem commonCheck_none {q : PortId} {i : Instr} (h : commonCheck q i = none) : i.wellFormedOn q = true := by
  unfold commonCheck at h
  split at h
  · cases h
  · split at h
    · cases h
    · simp_all [Instr.wellFormedOn]

theorem portStep_complete {i : Instr} {s u t : State} {ret : U32} {code : Code} {r0 r1 r2 r3 : U64}
    (h : t = u.completeWith ret code r0 r1 r2 r3) : PortStep i s t := by
  subst h; exact .done code (by simp) (by simp)

theorem portStep_goto {i : Instr} {s u t : State} {ops : Latch} {pos pos' : Pos} (hu : u.cur = s.cur)
    (was : s.cur.act = .busy ops pos) (fits : posFits i pos' = true) (h : t = u.goto ops pos') : PortStep i s t := by
  subst h; exact .on ops pos pos' was fits (by simp [hu])

theorem issueData_portStep {i : Instr} {s t : State} (idle : s.cur.act = .idle) (data : isData i = true)
    (h : issueData i s = .next t) : PortStep i s t := by
  unfold issueData at h
  split at h
  · cases h; exact portStep_complete rfl
  · rename_i hc; cases h; exact .issued idle (commonCheck_none hc) data (by simp)

/-- A lifecycle command completes in its issue step (R109). -/
theorem issueCfg_portStep {i : Instr} {body : Latch → State → State} {s t : State}
    (hb : ∀ l u, ∃ code, (body l u).cur.act = .idle ∧ (body l u).cur.code = codeNumber code)
    (h : issueCfg i body s = .next t) : PortStep i s t := by
  unfold issueCfg at h
  split at h
  · cases h; exact portStep_complete rfl
  · split at h
    · cases h; exact portStep_complete rfl
    · cases h
      obtain ⟨code, h1, h2⟩ := hb s.cur.latch (s.accept (encode i))
      exact .done code h1 h2

theorem sampleB_portStep {i : Instr} {ap : Bool} {avail p : U32} {ops : Latch} {s : State} {pos : Pos}
    (was : s.cur.act = .busy ops pos) (fits : ∀ k, posFits i (.xfer p k 0) = true) :
    PortStep i s (sampleB ap avail p ops s) := by
  unfold sampleB
  split
  · exact portStep_complete rfl
  · split
    · exact portStep_complete rfl
    · exact portStep_goto rfl was (fits _) rfl

theorem guarded_portStep {i : Instr} {s u t : State} {a : U64} {n : Nat} {ops : Latch} {pos pos' : Pos}
    (hu : u.cur = s.cur) (was : s.cur.act = .busy ops pos) (fits : posFits i pos' = true)
    (h : guarded s a n (u.goto ops pos') = .next t) : PortStep i s t := by
  rcases guarded_next h with h | h
  · exact portStep_goto hu was fits h
  · exact .same h

theorem posFits_fetchPos {i : Instr} {ch p k : U32} {es : List Entry} (_h1 : posFits i (.fetch p k es none) = true)
    (h2 : posFits i (.fits p k es) = true) : posFits i (fetchPos ch p k es) = true := by
  unfold fetchPos; split <;> assumption

theorem fetchStep_portStep {i : Instr} {ch p k : U32} {es : List Entry} {ptr : Option U64} {ops : Latch} {s t : State}
    {pos : Pos} (was : s.cur.act = .busy ops pos) (h1 : ∀ es ptr, posFits i (.fetch p k es ptr) = true)
    (h2 : ∀ es, posFits i (.fits p k es) = true) (h : fetchStep ch ops p k es ptr s = .next t) : PortStep i s t := by
  unfold fetchStep at h
  split at h
  · exact guarded_portStep rfl was (h1 _ _) h
  · exact guarded_portStep rfl was (posFits_fetchPos (h1 _ _) (h2 _)) h

theorem readBounds_portStep {i : Instr} {ops : Latch} {es : List Entry} {tries : Nat} {st : ReadStage} {s t : State}
    {done : Option (U64 × U64) → State → State} {pos : Pos} (was : s.cur.act = .busy ops pos)
    (h1 : ∀ es n st, posFits i (.read es n st) = true) (h2 : ∀ r, PortStep i s (done r s))
    (h : readBounds ops es tries st done s = .next t) : PortStep i s t := by
  unfold readBounds at h
  split at h
  · cases h; exact portStep_goto rfl was (h1 _ _ _) rfl
  · cases h; exact h2 _
  · split at h
    · cases h; exact portStep_goto rfl was (h1 _ _ _) rfl
    · cases h; exact h2 _

theorem posFits_gatherPosF {ap : Bool} {ch p k : U32} {es : List Entry} {c : Nat} :
    posFits (.readF ap) (gatherPosF ch p k es c) = true := by unfold gatherPosF; split <;> rfl

theorem posFits_scatterPosF {ap : Bool} {ch p k : U32} {n : Nat} {es : List Entry} {c i : Nat} :
    posFits (.writeF ap) (scatterPosF ch n p k es c i) = true := by
  unfold scatterPosF; split
  · rfl
  · split <;> rfl

theorem posFits_fillPos {ch : U32} {n : Nat} {es : List Entry} {cs ce : Int} {c i : Nat} :
    posFits .writeT (fillPos ch n es cs ce c i) = true := by
  unfold fillPos; split
  · rfl
  · split <;> rfl

theorem posFits_gapPos {fs : FrameStore} {ops : Latch} {es : List Entry} {cs ce : Int} {c i : Nat} :
    posFits .writeT (gapPos fs ops es cs ce c i) = true := by
  unfold gapPos; split
  · exact posFits_fillPos
  · split
    · rfl
    · exact posFits_fillPos

theorem posFits_adjustBounds {fs : FrameStore} {ops : Latch} {es : List Entry} {cs ce : Int} :
    posFits .writeT (adjustBounds fs ops es cs ce) = true := by
  unfold adjustBounds; split
  · rfl
  · split
    · exact posFits_gapPos
    · rfl

theorem posFits_afterPublish {fs : FrameStore} {ops : Latch} {es : List Entry} {cs ce : Int} {last : Bool} :
    posFits .writeT (afterPublish fs ops es cs ce last) = true := by
  unfold afterPublish; split
  · rfl
  · exact posFits_gapPos

theorem posFits_outPos {ch : U32} {es : List Entry} {w : Clip} {c : Nat} :
    posFits .readT (outPos ch es w c) = true := by unfold outPos; split <;> rfl

theorem allocB_done (l : Latch) (s : State) :
    ∃ code, (allocBBody l s).cur.act = .idle ∧ (allocBBody l s).cur.code = codeNumber code := by
  unfold allocBBody; split
  · split
    · exact ⟨.ok, by simp⟩
    · exact ⟨.nomem, by simp [State.complete]⟩
  · exact ⟨.config, by simp [State.complete]⟩

theorem allocF_done (l : Latch) (s : State) :
    ∃ code, (allocFBody l s).cur.act = .idle ∧ (allocFBody l s).cur.code = codeNumber code := by
  unfold allocFBody; split
  · exact ⟨.ok, by simp⟩
  · rename_i code _; exact ⟨code, by simp [State.complete]⟩

theorem allocT_done (l : Latch) (s : State) :
    ∃ code, (allocTBody l s).cur.act = .idle ∧ (allocTBody l s).cur.code = codeNumber code := by
  unfold allocTBody; split
  · exact ⟨.ok, by simp⟩
  · rename_i code _; exact ⟨code, by simp [State.complete]⟩

/-- Every step of every command does one of the four things `PortStep` says. -/
theorem exec_portStep {i : Instr} {s t : State} (h : exec i s = .next t) : PortStep i s t := by
  cases i with
  | allocB =>
    simp only [exec, execAllocB] at h; split at h
    · exact issueCfg_portStep allocB_done h
    · cases h
  | deallocB =>
    simp only [exec, execDeallocB] at h; split at h
    · exact issueCfg_portStep (fun l u => ⟨.ok, by simp [deallocBBody, State.complete]⟩) h
    · cases h
  | resetB =>
    simp only [exec, execResetB] at h; split at h
    · exact issueCfg_portStep (fun l u => ⟨.ok, by simp [resetBBody, State.complete]⟩) h
    · cases h
  | allocF =>
    simp only [exec, execAllocF] at h; split at h
    · exact issueCfg_portStep allocF_done h
    · cases h
  | deallocF =>
    simp only [exec, execDeallocF] at h; split at h
    · exact issueCfg_portStep (fun l u => ⟨.ok, by simp [deallocFBody, State.complete]⟩) h
    · cases h
  | resetF =>
    simp only [exec, execResetF] at h; split at h
    · exact issueCfg_portStep (fun l u => ⟨.ok, by simp [resetFBody, State.complete]⟩) h
    · cases h
  | allocT =>
    simp only [exec, execAllocT] at h; split at h
    · exact issueCfg_portStep allocT_done h
    · cases h
  | deallocT =>
    simp only [exec, execDeallocT] at h; split at h
    · exact issueCfg_portStep (fun l u => ⟨.ok, by simp [deallocTBody, State.complete]⟩) h
    · cases h
  | resetT =>
    simp only [exec, execResetT] at h; split at h
    · exact issueCfg_portStep (fun l u => ⟨.ok, by simp [resetTBody, State.complete]⟩) h
    · cases h
  | availrB =>
    simp only [exec, execAvailrB] at h; split at h
    · exact issueData_portStep ‹_› rfl h
    · split at h <;> cases h <;> exact portStep_complete rfl
    · cases h
  | availwB =>
    simp only [exec, execAvailwB] at h; split at h
    · exact issueData_portStep ‹_› rfl h
    · split at h <;> cases h <;> exact portStep_complete rfl
    · cases h
  | advrB =>
    simp only [exec, execAdvrB] at h; split at h
    · exact issueData_portStep ‹_› rfl h
    · split at h <;> cases h <;> exact portStep_complete rfl
    · cases h
  | advwB =>
    simp only [exec, execAdvwB] at h; split at h
    · exact issueData_portStep ‹_› rfl h
    · split at h <;> cases h <;> exact portStep_complete rfl
    · cases h
  | rvecB =>
    simp only [exec, execRvecB] at h; split at h
    · exact issueData_portStep ‹_› rfl h
    · split at h <;> cases h <;> exact portStep_complete rfl
    · cases h
  | wvecB =>
    simp only [exec, execWvecB] at h; split at h
    · exact issueData_portStep ‹_› rfl h
    · split at h <;> cases h <;> exact portStep_complete rfl
    · cases h
  | availrF =>
    simp only [exec, execAvailrF] at h; split at h
    · exact issueData_portStep ‹_› rfl h
    · split at h <;> cases h <;> exact portStep_complete rfl
    · cases h
  | availwF =>
    simp only [exec, execAvailwF] at h; split at h
    · exact issueData_portStep ‹_› rfl h
    · split at h <;> cases h <;> exact portStep_complete rfl
    · cases h
  | readB ap =>
    simp only [exec, execReadB] at h; split at h
    · exact issueData_portStep ‹_› rfl h
    · cases h; exact sampleB_portStep ‹_› fun _ => rfl
    · split at h
      · exact guarded_portStep (by simp) ‹_› rfl h
      · cases h; exact portStep_complete rfl
    · cases h
  | peekB ap =>
    simp only [exec, execPeekB] at h; split at h
    · exact issueData_portStep ‹_› rfl h
    · cases h; exact sampleB_portStep ‹_› fun _ => rfl
    · split at h
      · exact guarded_portStep (by simp) ‹_› rfl h
      · cases h; exact portStep_complete rfl
    · cases h
  | writeB ap =>
    simp only [exec, execWriteB] at h; split at h
    · exact issueData_portStep ‹_› rfl h
    · cases h; exact sampleB_portStep ‹_› fun _ => rfl
    · split at h
      · unfold copyInB at h
        refine guarded_portStep ?_ ‹_› ?_ h <;> rfl
      · cases h; exact portStep_complete rfl
    · cases h
  | readF ap =>
    simp only [exec, execReadF] at h; split at h
    · exact issueData_portStep ‹_› rfl h
    · cases h
      unfold sampleF
      split
      · exact portStep_complete rfl
      · split
        · exact portStep_complete rfl
        · split
          · exact portStep_complete rfl
          · exact portStep_goto rfl ‹_› (posFits_fetchPos rfl rfl) rfl
    · exact fetchStep_portStep ‹_› (fun _ _ => rfl) (fun _ => rfl) h
    · split at h <;> cases h
      · exact portStep_goto rfl ‹_› posFits_gatherPosF rfl
      · exact portStep_complete rfl
    · split at h
      · exact guarded_portStep (by simp) ‹_› rfl h
      · exact guarded_portStep (by simp) ‹_› posFits_gatherPosF h
    · cases h; exact portStep_complete rfl
    · cases h
  | writeF ap =>
    simp only [exec, execWriteF] at h; split at h
    · exact issueData_portStep ‹_› rfl h
    · cases h
      unfold sampleF
      split
      · exact portStep_complete rfl
      · split
        · exact portStep_complete rfl
        · split
          · exact portStep_complete rfl
          · exact portStep_goto rfl ‹_› (posFits_fetchPos rfl rfl) rfl
    · exact fetchStep_portStep ‹_› (fun _ _ => rfl) (fun _ => rfl) h
    · split at h <;> cases h
      · exact portStep_goto rfl ‹_› posFits_scatterPosF rfl
      · exact portStep_complete rfl
    · unfold scatterByteF at h
      refine guarded_portStep ?_ ‹_› posFits_scatterPosF h
      rfl
    · cases h; exact portStep_complete rfl
    · cases h
  | gettbT =>
    simp only [exec, execGettbT] at h; split at h
    · exact issueData_portStep ‹_› rfl h
    · split at h <;> cases h
      · exact portStep_complete rfl
      · exact portStep_goto rfl ‹_› rfl rfl
    · exact readBounds_portStep ‹_› (fun _ _ _ => rfl) (fun r => portStep_goto rfl ‹_› rfl rfl) h
    · cases h; unfold finishGettb; split <;> exact portStep_complete rfl
    · cases h
  | writeT =>
    simp only [exec, execWriteT] at h; split at h
    · exact issueData_portStep ‹_› rfl h
    · cases h
      unfold validateWriteT
      split
      · exact portStep_complete rfl
      · split
        · exact portStep_complete rfl
        · split
          · exact portStep_goto rfl ‹_› (posFits_fetchPos rfl rfl) rfl
          · exact portStep_complete rfl
    · exact fetchStep_portStep ‹_› (fun _ _ => rfl) (fun _ => rfl) h
    · split at h <;> cases h
      · exact portStep_goto rfl ‹_› rfl rfl
      · exact portStep_complete rfl
    · cases h; exact portStep_goto rfl ‹_› posFits_adjustBounds rfl
    · cases h
      unfold publishStepT
      refine portStep_goto ?_ ‹_› ?_ rfl
      · rfl
      split
      · rfl
      · exact posFits_afterPublish
    · cases h; exact portStep_goto (by simp [setByteT]) ‹_› posFits_gapPos rfl
    · exact guarded_portStep (by simp [setByteT]) ‹_› posFits_fillPos h
    · cases h; exact portStep_complete rfl
    · cases h
  | readT =>
    simp only [exec, execReadT] at h; split at h
    · exact issueData_portStep ‹_› rfl h
    · cases h
      unfold validateReadT
      split
      · exact portStep_complete rfl
      · split
        · exact portStep_complete rfl
        · split
          · exact portStep_complete rfl
          · split
            · exact portStep_goto rfl ‹_› (posFits_fetchPos rfl rfl) rfl
            · exact portStep_complete rfl
    · exact fetchStep_portStep ‹_› (fun _ _ => rfl) (fun _ => rfl) h
    · split at h <;> cases h
      · exact portStep_goto rfl ‹_› rfl rfl
      · exact portStep_complete rfl
    · refine readBounds_portStep ‹_› (fun _ _ _ => rfl) (fun r => ?_) h
      unfold afterReadBounds
      split
      · exact portStep_goto rfl ‹_› posFits_outPos rfl
      · exact portStep_goto rfl ‹_› rfl rfl
    · cases h; exact portStep_complete rfl
    · split at h
      · exact guarded_portStep (by simp) ‹_› rfl h
      · exact guarded_portStep (by simp) ‹_› posFits_outPos h
    · cases h; exact portStep_complete rfl
    · cases h

end Sys2Proof.Machine
end

