-- ==== Sys2Proof/Laws/PerInstr.lean ====
section
/-! SUPPORT. Statements made per instruction: what R100, R104 and R107 say of every command's word and port. -/

namespace Sys2Proof.Laws.Encoded

open Sys2Proof Sys2Proof.Machine

/-- The command's word carries its unit's number, an AP bit only when the command has one, zeros above it, and is read
back from its four bytes; and there is a port that accepts the command (R100, R104, R107). -/
def Statement (i : Instr) : Prop :=
  (unitField (encode i)).toNat = unitNumber (unitOf i) ∧ zeroField (encode i) = 0
    ∧ decodeTableWord 32 (encode i).toNat = some i ∧ i.wellFormedOn (portFor i) = true

theorem allocB : Statement .allocB := by unfold Statement; decide
theorem deallocB : Statement .deallocB := by unfold Statement; decide
theorem resetB : Statement .resetB := by unfold Statement; decide
theorem availrB : Statement .availrB := by unfold Statement; decide
theorem availwB : Statement .availwB := by unfold Statement; decide
theorem readB (ap : Bool) : Statement (.readB ap) := by cases ap <;> (unfold Statement; decide)
theorem peekB (ap : Bool) : Statement (.peekB ap) := by cases ap <;> (unfold Statement; decide)
theorem writeB (ap : Bool) : Statement (.writeB ap) := by cases ap <;> (unfold Statement; decide)
theorem advrB : Statement .advrB := by unfold Statement; decide
theorem advwB : Statement .advwB := by unfold Statement; decide
theorem rvecB : Statement .rvecB := by unfold Statement; decide
theorem wvecB : Statement .wvecB := by unfold Statement; decide
theorem allocF : Statement .allocF := by unfold Statement; decide
theorem deallocF : Statement .deallocF := by unfold Statement; decide
theorem resetF : Statement .resetF := by unfold Statement; decide
theorem availrF : Statement .availrF := by unfold Statement; decide
theorem availwF : Statement .availwF := by unfold Statement; decide
theorem readF (ap : Bool) : Statement (.readF ap) := by cases ap <;> (unfold Statement; decide)
theorem writeF (ap : Bool) : Statement (.writeF ap) := by cases ap <;> (unfold Statement; decide)
theorem allocT : Statement .allocT := by unfold Statement; decide
theorem deallocT : Statement .deallocT := by unfold Statement; decide
theorem resetT : Statement .resetT := by unfold Statement; decide
theorem readT : Statement .readT := by unfold Statement; decide
theorem writeT : Statement .writeT := by unfold Statement; decide
theorem gettbT : Statement .gettbT := by unfold Statement; decide

end Sys2Proof.Laws.Encoded
end

