-- ==== Sys2Proof/Laws/Steps.lean ====
section
/-! SUPPORT. What one step can do, said once: `exec_stepped` (a command's step changes the units and client memory as
`Change` lists and writes its own port), with what follows for every command (`exec_elsewhere`, `exec_keepsShape`,
`exec_cm_canonical`); `exec_fault` (when a meaning faults); `step_does` (what a step of the machine is). -/

namespace Sys2Proof.Machine

/-! ### Port updates collapse -/

theorem set_set (up : UnitPorts) (r : Role) (p p' : Port) : (up.set r p).set r p' = up.set r p' := by cases r <;> rfl

@[simp] theorem setPort_setPort (s : State) (q : PortId) (p p' : Port) :
    (s.setPort q p).setPort q p' = s.setPort q p' := by
  obtain ⟨u, r⟩ := q
  cases u <;> simp [State.setPort, set_set]

@[simp] theorem setCur_setCur (s : State) (p p' : Port) : (s.setCur p).setCur p' = s.setCur p' := by
  simp [State.setCur]

theorem setPort_with_b (s : State) (q : PortId) (p : Port) (u : UnitB) :
    { s.setPort q p with b := u } = State.setPort { s with b := u } q p := by
  obtain ⟨x, r⟩ := q; cases x <;> rfl
theorem setPort_with_f (s : State) (q : PortId) (p : Port) (u : UnitF) :
    { s.setPort q p with f := u } = State.setPort { s with f := u } q p := by
  obtain ⟨x, r⟩ := q; cases x <;> rfl
theorem setPort_with_t (s : State) (q : PortId) (p : Port) (u : UnitT) :
    { s.setPort q p with t := u } = State.setPort { s with t := u } q p := by
  obtain ⟨x, r⟩ := q; cases x <;> rfl

/-- Going to a position writes the issuing port only. -/
theorem goto_eq (s : State) (l : Latch) (x : Pos) : ∃ p, s.goto l x = s.setCur p := ⟨_, rfl⟩

/-- Completing writes the issuing port only. -/
theorem completeWith_eq (s : State) (ret : U32) (code : Code) (r0 r1 r2 r3 : U64) :
    ∃ p, s.completeWith ret code r0 r1 r2 r3 = s.setCur p := ⟨_, rfl⟩

/-! ### What one step changes -/

/-- The units and client memory after one step of command `i`: as before; with client bytes written that the step's own
access names; or with the command's own unit changed, by a data command without touching capacity, mask or format. -/
inductive Change (i : Instr) (s : State) : State → Prop where
  | none : Change i s s
  | client (ops : Latch) (pos : Pos) (a : U64) (v : Byte) (was : s.cur.act = .busy ops pos)
      (access : stepAccess i s ops pos = some (a, 1)) : Change i s (s.setClientByte a v)
  | report (ops : Latch) (pos : Pos) (a : U64) (v : Nat) (was : s.cur.act = .busy ops pos)
      (access : stepAccess i s ops pos = some (a, 8)) : Change i s (s.memWrite a 8 v)
  | unitB (u : UnitB) (own : unitOf i = .b)
      (shape : isData i = true → u.cap = s.b.cap ∧ u.mask = s.b.mask ∧ u.gen = s.b.gen) : Change i s { s with b := u }
  | unitF (u : UnitF) (own : unitOf i = .f) (shape : isData i = true → u.fs = { s.f.fs with st := u.fs.st }) :
      Change i s { s with f := u }
  | unitT (u : UnitT) (own : unitOf i = .t) (shape : isData i = true → u.fs = { s.t.fs with st := u.fs.st }) :
      Change i s { s with t := u }

/-- One step of a command changes units and memory as `Change` says and then writes its own port, or does nothing. -/
def Stepped (i : Instr) (s t : State) : Prop := t = s ∨ ∃ u p, Change i s u ∧ t = u.setCur p

section
variable {i : Instr} {s t : State}

theorem Stepped.port (p : Port) : Stepped i s (s.setCur p) := .inr ⟨s, p, .none, rfl⟩
theorem Stepped.goto (l : Latch) (x : Pos) : Stepped i s (s.goto l x) := .port _
theorem Stepped.completeWith (ret : U32) (code : Code) (r0 r1 r2 r3 : U64) :
    Stepped i s (s.completeWith ret code r0 r1 r2 r3) := .port _
theorem Stepped.complete (ret : U32) (code : Code) : Stepped i s (s.complete ret code) := .port _
theorem Stepped.reject (code : Code) : Stepped i s (s.reject code) := .port _
theorem Stepped.of {u : State} (p : Port) (h : Change i s u) : Stepped i s (u.setCur p) := .inr ⟨u, p, h, rfl⟩

theorem Stepped.issueData {j : Instr} (h : issueData j s = .next t) : Stepped i s t := by
  unfold Machine.issueData at h
  split at h <;> cases h
  · simp only [State.reject, State.complete, State.completeWith, State.accept, setCur_setCur]; exact .port _
  · simp only [State.goto, State.accept, setCur_setCur]; exact .port _

theorem Stepped.guarded {k : State} {a : U64} {n : Nat} (h : guarded s a n k = .next t) (hk : Stepped i s k) :
    Stepped i s t := by
  rcases guarded_next h with rfl | rfl
  · exact hk
  · exact .inl rfl

theorem Stepped.fetch {ch p k : U32} {ops : Latch} {es : List Entry} {ptr : Option U64}
    (h : fetchStep ch ops p k es ptr s = .next t) : Stepped i s t := by
  unfold fetchStep at h
  split at h <;> exact .guarded h (.goto _ _)

theorem Stepped.read {ops : Latch} {es : List Entry} {tries : Nat} {st : ReadStage}
    {done : Option (U64 × U64) → State → State} (hd : ∀ r, Stepped i s (done r s))
    (h : readBounds ops es tries st done s = .next t) : Stepped i s t := by
  unfold readBounds at h
  split at h
  · cases h; exact .goto _ _
  · cases h; exact hd _
  · split at h <;> cases h
    · exact .goto _ _
    · exact hd _

theorem Stepped.sampleB {ap : Bool} {avail p : U32} {ops : Latch} : Stepped i s (sampleB ap avail p ops s) := by
  unfold Machine.sampleB
  split
  · exact .reject _
  · split
    · exact .reject _
    · exact .goto _ _

theorem Stepped.sampleF {ap : Bool} {avail p : U32} {ops : Latch} : Stepped i s (sampleF ap avail p ops s) := by
  unfold Machine.sampleF
  repeat' split
  all_goals first | exact .reject _ | exact .goto _ _

/-- A lifecycle command's step. -/
theorem Stepped.issueCfg {body : Latch → State → State} (hb : ∀ (l : Latch) (w : U32), Stepped i s (body l (s.accept w)))
    (h : issueCfg i body s = .next t) : Stepped i s t := by
  unfold Machine.issueCfg at h
  split at h
  · cases h
    simp only [State.reject, State.complete, State.completeWith, State.accept, setCur_setCur]; exact .port _
  · split at h <;> cases h
    · simp only [State.reject, State.complete, State.completeWith, State.accept, setCur_setCur]; exact .port _
    · exact hb _ _


section Bodies
variable {l : Latch} {w : U32}

/-- A lifecycle command on unit B releases, allocates or empties the unit and completes. -/
theorem Stepped.bodyB (own : unitOf i = .b) (cfg : isData i = false) (u : UnitB) (ret : U32) (code : Code) (r0 : U64) :
    Stepped i s (State.completeWith { s.accept w with b := u } ret code r0 0 0 0) := by
  have e : { s.accept w with b := u } = State.setCur { s with b := u } { s.cur with cmd := w } :=
    setPort_with_b _ _ _ _
  rw [e, State.completeWith, setCur_setCur]
  exact .of _ (.unitB u own fun h => by rw [cfg] at h; cases h)

theorem Stepped.bodyF (own : unitOf i = .f) (cfg : isData i = false) (u : UnitF) (ret : U32) (code : Code) (r0 : U64) :
    Stepped i s (State.completeWith { s.accept w with f := u } ret code r0 0 0 0) := by
  have e : { s.accept w with f := u } = State.setCur { s with f := u } { s.cur with cmd := w } :=
    setPort_with_f _ _ _ _
  rw [e, State.completeWith, setCur_setCur]
  exact .of _ (.unitF u own fun h => by rw [cfg] at h; cases h)

theorem Stepped.bodyT (own : unitOf i = .t) (cfg : isData i = false) (u : UnitT) (ret : U32) (code : Code) (r0 : U64) :
    Stepped i s (State.completeWith { s.accept w with t := u } ret code r0 0 0 0) := by
  have e : { s.accept w with t := u } = State.setCur { s with t := u } { s.cur with cmd := w } :=
    setPort_with_t _ _ _ _
  rw [e, State.completeWith, setCur_setCur]
  exact .of _ (.unitT u own fun h => by rw [cfg] at h; cases h)
end Bodies

theorem Stepped.ownB {u : UnitB} {p : Port} (ht : t = State.setCur { s with b := u } p) (own : unitOf i = .b)
    (shape : isData i = true → u.cap = s.b.cap ∧ u.mask = s.b.mask ∧ u.gen = s.b.gen) : Stepped i s t :=
  .inr ⟨_, p, .unitB u own shape, ht⟩
theorem Stepped.ownF {u : UnitF} {p : Port} (ht : t = State.setCur { s with f := u } p) (own : unitOf i = .f)
    (shape : isData i = true → u.fs = { s.f.fs with st := u.fs.st }) : Stepped i s t :=
  .inr ⟨_, p, .unitF u own shape, ht⟩
theorem Stepped.ownT {u : UnitT} {p : Port} (ht : t = State.setCur { s with t := u } p) (own : unitOf i = .t)
    (shape : isData i = true → u.fs = { s.t.fs with st := u.fs.st }) : Stepped i s t :=
  .inr ⟨_, p, .unitT u own shape, ht⟩

end

theorem publishStep_fs (u : UnitT) (lo hi : Int) (st : PubStage) : (publishStep u lo hi st).1.fs = u.fs := by
  cases st <;> rfl

/-- What one step of any command does: nothing, or one `Change` and its own port written. -/
theorem exec_stepped {i : Instr} {s t : State} (h : exec i s = .next t) : Stepped i s t := by
  cases i with
  | allocB =>
    simp only [exec, execAllocB] at h; split at h
    · refine .issueCfg (fun l w => ?_) h
      unfold allocBBody; split
      · split <;> exact .bodyB rfl rfl _ _ _ _
      · exact .bodyB rfl rfl _ _ _ _
    · cases h
  | deallocB =>
    simp only [exec, execDeallocB] at h; split at h
    · exact .issueCfg (fun l w => .bodyB rfl rfl _ _ _ _) h
    · cases h
  | resetB =>
    simp only [exec, execResetB] at h; split at h
    · exact .issueCfg (fun l w => .bodyB rfl rfl _ _ _ _) h
    · cases h
  | allocF =>
    simp only [exec, execAllocF] at h; split at h
    · refine .issueCfg (fun l w => ?_) h
      unfold allocFBody; split <;> exact .bodyF rfl rfl _ _ _ _
    · cases h
  | deallocF =>
    simp only [exec, execDeallocF] at h; split at h
    · exact .issueCfg (fun l w => .bodyF rfl rfl _ _ _ _) h
    · cases h
  | resetF =>
    simp only [exec, execResetF] at h; split at h
    · exact .issueCfg (fun l w => .bodyF rfl rfl _ _ _ _) h
    · cases h
  | allocT =>
    simp only [exec, execAllocT] at h; split at h
    · refine .issueCfg (fun l w => ?_) h
      unfold allocTBody; split <;> exact .bodyT rfl rfl _ _ _ _
    · cases h
  | deallocT =>
    simp only [exec, execDeallocT] at h; split at h
    · exact .issueCfg (fun l w => .bodyT rfl rfl _ _ _ _) h
    · cases h
  | resetT =>
    simp only [exec, execResetT] at h; split at h
    · exact .issueCfg (fun l w => .bodyT rfl rfl _ _ _ _) h
    · cases h
  | availrB =>
    simp only [exec, execAvailrB] at h; split at h
    · exact .issueData h
    · split at h <;> cases h <;> exact .port _
    · cases h
  | availwB =>
    simp only [exec, execAvailwB] at h; split at h
    · exact .issueData h
    · split at h <;> cases h <;> exact .port _
    · cases h
  | rvecB =>
    simp only [exec, execRvecB] at h; split at h
    · exact .issueData h
    · split at h <;> cases h <;> exact .port _
    · cases h
  | wvecB =>
    simp only [exec, execWvecB] at h; split at h
    · exact .issueData h
    · split at h <;> cases h <;> exact .port _
    · cases h
  | availrF =>
    simp only [exec, execAvailrF] at h; split at h
    · exact .issueData h
    · split at h <;> cases h <;> exact .port _
    · cases h
  | availwF =>
    simp only [exec, execAvailwF] at h; split at h
    · exact .issueData h
    · split at h <;> cases h <;> exact .port _
    · cases h
  | advrB =>
    simp only [exec, execAdvrB] at h; split at h
    · exact .issueData h
    · split at h <;> cases h
      · exact .port _
      · exact .ownB rfl rfl fun _ => ⟨rfl, rfl, rfl⟩
    · cases h
  | advwB =>
    simp only [exec, execAdvwB] at h; split at h
    · exact .issueData h
    · split at h <;> cases h
      · exact .port _
      · exact .ownB rfl rfl fun _ => ⟨rfl, rfl, rfl⟩
    · cases h
  | readB ap =>
    simp only [exec, execReadB] at h; split at h
    · exact .issueData h
    · cases h; exact .sampleB
    · rename_i ops p k n was
      split at h
      · rename_i hn
        exact .guarded h (.of _ (.client ops _ _ _ was (by simp [stepAccess, hn])))
      · cases h; exact .ownB rfl rfl fun _ => ⟨rfl, rfl, rfl⟩
    · cases h
  | peekB ap =>
    simp only [exec, execPeekB] at h; split at h
    · exact .issueData h
    · cases h; exact .sampleB
    · rename_i ops p k n was
      split at h
      · rename_i hn
        exact .guarded h (.of _ (.client ops _ _ _ was (by simp [stepAccess, hn])))
      · cases h; exact .port _
    · cases h
  | writeB ap =>
    simp only [exec, execWriteB] at h; split at h
    · exact .issueData h
    · cases h; exact .sampleB
    · split at h
      · unfold copyInB at h; exact .guarded h (.ownB rfl rfl fun _ => ⟨rfl, rfl, rfl⟩)
      · cases h; exact .ownB rfl rfl fun _ => ⟨rfl, rfl, rfl⟩
    · cases h
  | readF ap =>
    simp only [exec, execReadF] at h; split at h
    · exact .issueData h
    · cases h; exact .sampleF
    · exact .fetch h
    · split at h <;> cases h <;> exact .port _
    · rename_i ops p k es c n was
      split at h
      · rename_i hn
        exact .guarded h (.of _ (.client ops _ _ _ was (by simp [stepAccess, hn])))
      · rename_i hn
        exact .guarded h (.of _ (.report ops _ _ _ was (by simp [stepAccess, hn, isWriteF])))
    · cases h; exact .ownF rfl rfl fun _ => rfl
    · cases h
  | writeF ap =>
    simp only [exec, execWriteF] at h; split at h
    · exact .issueData h
    · cases h; exact .sampleF
    · exact .fetch h
    · split at h <;> cases h <;> exact .port _
    · unfold scatterByteF at h; exact .guarded h (.ownF rfl rfl fun _ => rfl)
    · cases h; exact .ownF rfl rfl fun _ => rfl
    · cases h
  | gettbT =>
    simp only [exec, execGettbT] at h; split at h
    · exact .issueData h
    · split at h <;> cases h <;> exact .port _
    · exact .read (fun r => .port _) h
    · cases h; unfold finishGettb; split <;> exact .port _
    · cases h
  | writeT =>
    simp only [exec, execWriteT] at h; split at h
    · exact .issueData h
    · cases h; unfold validateWriteT; repeat' split
      all_goals exact .port _
    · exact .fetch h
    · split at h <;> cases h <;> exact .port _
    · cases h; exact .port _
    · cases h; exact .ownT rfl rfl fun _ => by rw [publishStep_fs]
    · cases h; exact .ownT rfl rfl fun _ => rfl
    · exact .guarded h (.ownT rfl rfl fun _ => rfl)
    · cases h; exact .port _
    · cases h
  | readT =>
    simp only [exec, execReadT] at h; split at h
    · exact .issueData h
    · cases h; unfold validateReadT; repeat' split
      all_goals exact .port _
    · exact .fetch h
    · split at h <;> cases h <;> exact .port _
    · exact .read (fun r => by unfold afterReadBounds; split <;> exact .port _) h
    · cases h; exact .port _
    · rename_i ops es w c n was
      split at h
      · rename_i hn
        exact .guarded h (.of _ (.client ops _ _ _ was (by simp [stepAccess, hn])))
      · rename_i hn
        exact .guarded h (.of _ (.report ops _ _ _ was (by simp [stepAccess, hn])))
    · cases h; exact .port _
    · cases h

/-! ### What follows for every command -/

theorem Change.elsewhere {i : Instr} {s u : State} (h : Change i s u) : SameElsewhere s u := by
  cases h with
  | none => exact .refl s
  | client => exact elsewhere_setClientByte _ _ _
  | report => exact elsewhere_memWrite _ _ _ _
  | unitB => exact elsewhere_with_b _ _
  | unitF => exact elsewhere_with_f _ _
  | unitT => exact elsewhere_with_t _ _

theorem elsewhere_setCur (s : State) (p : Port) : SameElsewhere s (s.setCur p) :=
  ⟨by simp, by simp, by simp, by simp, fun _ h => port_setCur_ne s p h⟩

/-- A step of a command leaves the platform, the schedule and every other port alone. -/
theorem exec_elsewhere {i : Instr} {s t : State} (h : exec i s = .next t) : SameElsewhere s t := by
  rcases exec_stepped h with rfl | ⟨u, p, hc, rfl⟩
  · exact .refl _
  · exact hc.elsewhere.trans (elsewhere_setCur _ _)

/-- Capacity, mask, allocation count and format of every unit are as before: what no data command changes. -/
structure KeepsShape (s t : State) : Prop where
  capB : t.b.cap = s.b.cap
  maskB : t.b.mask = s.b.mask
  genB : t.b.gen = s.b.gen
  frameF : t.f.fs = { s.f.fs with st := t.f.fs.st }
  frameT : t.t.fs = { s.t.fs with st := t.t.fs.st }

theorem Change.keepsShape {i : Instr} {s u : State} (hd : isData i = true) (h : Change i s u) : KeepsShape s u := by
  cases h with
  | none => exact ⟨rfl, rfl, rfl, rfl, rfl⟩
  | client => exact ⟨by simp, by simp, by simp, by simp, by simp⟩
  | report => exact ⟨by simp, by simp, by simp, by simp, by simp⟩
  | unitB u own shape => exact ⟨(shape hd).1, (shape hd).2.1, (shape hd).2.2, rfl, rfl⟩
  | unitF u own shape => exact ⟨rfl, rfl, rfl, shape hd, rfl⟩
  | unitT u own shape => exact ⟨rfl, rfl, rfl, rfl, shape hd⟩

/-- A data command changes no capacity, mask or format. -/
theorem exec_keepsShape {i : Instr} {s t : State} (hd : isData i = true) (h : exec i s = .next t) : KeepsShape s t := by
  rcases exec_stepped h with rfl | ⟨u, p, hc, rfl⟩
  · exact ⟨rfl, rfl, rfl, rfl, rfl⟩
  · have k := hc.keepsShape hd
    exact ⟨by simp [k.capB], by simp [k.maskB], by simp [k.genB], by simpa using k.frameF, by simpa using k.frameT⟩

theorem Change.cm_canonical {i : Instr} {s u : State} (h : Change i s u) (hs : Memory.canonical s.cm = true) :
    Memory.canonical u.cm = true := by
  cases h with
  | none | unitB | unitF | unitT => exact hs
  | client => exact setClientByte_cm_canonical _ _ _ hs
  | report => exact memWrite_cm_canonical _ _ _ _ hs

/-- Every step of every command keeps client memory in canonical form. -/
theorem exec_cm_canonical {i : Instr} {s t : State} (h : exec i s = .next t) (hs : Memory.canonical s.cm = true) :
    Memory.canonical t.cm = true := by
  rcases exec_stepped h with rfl | ⟨u, p, hc, rfl⟩
  · exact hs
  · simpa using hc.cm_canonical hs

/-! ### Faults and refusals -/

theorem issueData_ne_fault {i : Instr} {s : State} {r : Fault} : issueData i s ≠ .fault r := by
  unfold issueData; split <;> intro h <;> cases h

theorem issueCfg_ne_fault {i : Instr} {body : Latch → State → State} {s : State} {r : Fault} :
    issueCfg i body s ≠ .fault r := by
  unfold issueCfg; split
  · intro h; cases h
  · split <;> intro h <;> cases h

theorem fetchStep_ne_fault {ch : U32} {ops : Latch} {p k : U32} {es : List Entry} {ptr : Option U64} {s : State}
    {r : Fault} : fetchStep ch ops p k es ptr s ≠ .fault r := by
  unfold fetchStep; split <;> exact guarded_ne_fault

theorem readBounds_ne_fault {ops : Latch} {es : List Entry} {tries : Nat} {st : ReadStage}
    {done : Option (U64 × U64) → State → State} {s : State} {r : Fault} :
    readBounds ops es tries st done s ≠ .fault r := by
  unfold readBounds; split
  · intro h; cases h
  · intro h; cases h
  · split <;> intro h <;> cases h

/-- A meaning faults only on a busy port whose position the command does not have (log 14). -/
theorem exec_fault {i : Instr} {s : State} {r : Fault} (h : exec i s = .fault r) :
    ∃ ops pos, s.cur.act = .busy ops pos ∧ posFits i pos = false := by
  cases i with
  | allocB =>
    simp only [exec, execAllocB] at h; split at h
    · exact absurd h issueCfg_ne_fault
    · exact ⟨_, _, ‹_›, rfl⟩
  | deallocB =>
    simp only [exec, execDeallocB] at h; split at h
    · exact absurd h issueCfg_ne_fault
    · exact ⟨_, _, ‹_›, rfl⟩
  | resetB =>
    simp only [exec, execResetB] at h; split at h
    · exact absurd h issueCfg_ne_fault
    · exact ⟨_, _, ‹_›, rfl⟩
  | allocF =>
    simp only [exec, execAllocF] at h; split at h
    · exact absurd h issueCfg_ne_fault
    · exact ⟨_, _, ‹_›, rfl⟩
  | deallocF =>
    simp only [exec, execDeallocF] at h; split at h
    · exact absurd h issueCfg_ne_fault
    · exact ⟨_, _, ‹_›, rfl⟩
  | resetF =>
    simp only [exec, execResetF] at h; split at h
    · exact absurd h issueCfg_ne_fault
    · exact ⟨_, _, ‹_›, rfl⟩
  | allocT =>
    simp only [exec, execAllocT] at h; split at h
    · exact absurd h issueCfg_ne_fault
    · exact ⟨_, _, ‹_›, rfl⟩
  | deallocT =>
    simp only [exec, execDeallocT] at h; split at h
    · exact absurd h issueCfg_ne_fault
    · exact ⟨_, _, ‹_›, rfl⟩
  | resetT =>
    simp only [exec, execResetT] at h; split at h
    · exact absurd h issueCfg_ne_fault
    · exact ⟨_, _, ‹_›, rfl⟩
  | availrB =>
    simp only [exec, execAvailrB] at h; split at h
    · exact absurd h issueData_ne_fault
    · split at h <;> cases h
    · rename_i ops pos no was
      exact ⟨ops, pos, was, by cases pos <;> first | rfl | exact (no rfl).elim⟩
  | availwB =>
    simp only [exec, execAvailwB] at h; split at h
    · exact absurd h issueData_ne_fault
    · split at h <;> cases h
    · rename_i ops pos no was
      exact ⟨ops, pos, was, by cases pos <;> first | rfl | exact (no rfl).elim⟩
  | advrB =>
    simp only [exec, execAdvrB] at h; split at h
    · exact absurd h issueData_ne_fault
    · split at h <;> cases h
    · rename_i ops pos no was
      exact ⟨ops, pos, was, by cases pos <;> first | rfl | exact (no rfl).elim⟩
  | advwB =>
    simp only [exec, execAdvwB] at h; split at h
    · exact absurd h issueData_ne_fault
    · split at h <;> cases h
    · rename_i ops pos no was
      exact ⟨ops, pos, was, by cases pos <;> first | rfl | exact (no rfl).elim⟩
  | rvecB =>
    simp only [exec, execRvecB] at h; split at h
    · exact absurd h issueData_ne_fault
    · split at h <;> cases h
    · rename_i ops pos no was
      exact ⟨ops, pos, was, by cases pos <;> first | rfl | exact (no rfl).elim⟩
  | wvecB =>
    simp only [exec, execWvecB] at h; split at h
    · exact absurd h issueData_ne_fault
    · split at h <;> cases h
    · rename_i ops pos no was
      exact ⟨ops, pos, was, by cases pos <;> first | rfl | exact (no rfl).elim⟩
  | availrF =>
    simp only [exec, execAvailrF] at h; split at h
    · exact absurd h issueData_ne_fault
    · split at h <;> cases h
    · rename_i ops pos no was
      exact ⟨ops, pos, was, by cases pos <;> first | rfl | exact (no rfl).elim⟩
  | availwF =>
    simp only [exec, execAvailwF] at h; split at h
    · exact absurd h issueData_ne_fault
    · split at h <;> cases h
    · rename_i ops pos no was
      exact ⟨ops, pos, was, by cases pos <;> first | rfl | exact (no rfl).elim⟩
  | readB ap =>
    simp only [exec, execReadB] at h; split at h
    · exact absurd h issueData_ne_fault
    · cases h
    · split at h
      · exact absurd h guarded_ne_fault
      · cases h
    · rename_i ops pos _ _ was
      refine ⟨ops, pos, was, ?_⟩
      cases pos <;> first | rfl | (exfalso; solve_by_elim)
  | peekB ap =>
    simp only [exec, execPeekB] at h; split at h
    · exact absurd h issueData_ne_fault
    · cases h
    · split at h
      · exact absurd h guarded_ne_fault
      · cases h
    · rename_i ops pos _ _ was
      refine ⟨ops, pos, was, ?_⟩
      cases pos <;> first | rfl | (exfalso; solve_by_elim)
  | writeB ap =>
    simp only [exec, execWriteB] at h; split at h
    · exact absurd h issueData_ne_fault
    · cases h
    · split at h
      · unfold copyInB at h; exact absurd h guarded_ne_fault
      · cases h
    · rename_i ops pos _ _ was
      refine ⟨ops, pos, was, ?_⟩
      cases pos <;> first | rfl | (exfalso; solve_by_elim)
  | readF ap =>
    simp only [exec, execReadF] at h; split at h
    · exact absurd h issueData_ne_fault
    · cases h
    · exact absurd h fetchStep_ne_fault
    · split at h <;> cases h
    · split at h <;> exact absurd h guarded_ne_fault
    · cases h
    · rename_i ops pos _ _ _ _ _ was
      refine ⟨ops, pos, was, ?_⟩
      cases pos <;> first | rfl | (exfalso; solve_by_elim)
  | writeF ap =>
    simp only [exec, execWriteF] at h; split at h
    · exact absurd h issueData_ne_fault
    · cases h
    · exact absurd h fetchStep_ne_fault
    · split at h <;> cases h
    · unfold scatterByteF at h; exact absurd h guarded_ne_fault
    · cases h
    · rename_i ops pos _ _ _ _ _ was
      refine ⟨ops, pos, was, ?_⟩
      cases pos <;> first | rfl | (exfalso; solve_by_elim)
  | gettbT =>
    simp only [exec, execGettbT] at h; split at h
    · exact absurd h issueData_ne_fault
    · split at h <;> cases h
    · exact absurd h readBounds_ne_fault
    · cases h
    · rename_i ops pos _ _ _ was
      refine ⟨ops, pos, was, ?_⟩
      cases pos <;> first | rfl | (exfalso; solve_by_elim)
  | writeT =>
    simp only [exec, execWriteT] at h; split at h
    · exact absurd h issueData_ne_fault
    · cases h
    · exact absurd h fetchStep_ne_fault
    · split at h <;> cases h
    · cases h
    · cases h
    · cases h
    · exact absurd h guarded_ne_fault
    · cases h
    · rename_i ops pos _ _ _ _ _ _ _ _ was
      refine ⟨ops, pos, was, ?_⟩
      cases pos <;> first | rfl | (exfalso; solve_by_elim)
  | readT =>
    simp only [exec, execReadT] at h; split at h
    · exact absurd h issueData_ne_fault
    · cases h
    · exact absurd h fetchStep_ne_fault
    · split at h <;> cases h
    · exact absurd h readBounds_ne_fault
    · cases h
    · split at h <;> exact absurd h guarded_ne_fault
    · cases h
    · rename_i ops pos _ _ _ _ _ _ _ was
      refine ⟨ops, pos, was, ?_⟩
      cases pos with
      | got r => cases r <;> first | rfl | (exfalso; solve_by_elim)
      | _ => first | rfl | (exfalso; solve_by_elim)

/-! ### One step of the machine -/

/-- What one step of the machine is (R80): nothing but a use of the schedule; a step of a command on its port, issued by
a client's write of CMD or taken in the port's turn; the rejection of a word that is no command; a client's store of an
operand register, of client memory or of the window; a client's load; the reset input. -/
inductive StepDoes (s t : State) : Prop where
  | idle (h : t = { s with inputs := s.inputs.tail })
  | issue (q : PortId) (i : Instr) (free : (s.port q).act = .idle)
      (run : exec i { s with inputs := s.inputs.tail, turn := q } = .next t)
  | turn (q : PortId) (i : Instr) (ops : Latch) (pos : Pos) (busy : (s.port q).act = .busy ops pos)
      (word : decode (s.port q).cmd = .ok i) (run : exec i { s with inputs := s.inputs.tail, turn := q } = .next t)
  | illegal (q : PortId) (w : U32) (free : (s.port q).act = .idle) (word : ∀ i, decode w ≠ .ok i)
      (h : issueIllegal w { s with inputs := s.inputs.tail, turn := q } = .next t)
  | operand (q : PortId) (r : Reg) (v : U64) (notCmd : r ≠ .cmd)
      (h : t = State.setPort { s with inputs := s.inputs.tail } q ((s.port q).write r v))
  | write (a : U64) (n v : Nat) (h : t = State.memWrite { s with inputs := s.inputs.tail } a n v)
  | load (v : U64) (h : t = { s with inputs := s.inputs.tail, loaded := v })
  | reset (h : t = hardReset { s with inputs := s.inputs.tail })

theorem portTurn_does {q : PortId} {s t : State} (h : portTurn q { s with inputs := s.inputs.tail } = .next t) :
    StepDoes s t := by
  unfold portTurn at h
  split at h
  · cases h; exact .idle rfl
  · rename_i ops pos busy
    split at h
    · rename_i i word; exact .turn q i ops pos busy word h
    · cases h

theorem writeCmd_does {q : PortId} {w : U32} {s t : State}
    (h : writeCmd q w { s with inputs := s.inputs.tail } = .next t) : StepDoes s t := by
  unfold writeCmd at h
  split at h
  · cases h; exact .idle rfl
  · rename_i free
    split at h
    · exact .issue q _ free h
    · rename_i e he; exact .illegal q w free (fun i hi => by rw [he] at hi; cases hi) h

theorem blockStore_write {off : Nat} {n : Width} {v : U64} {r : Reg} (h : blockStore off n v = .write r) :
    r ≠ .cmd := by
  unfold blockStore at h
  split at h
  · split at h
    · split at h
      · split at h
        · cases h
        · rename_i hne; cases h; exact hne
      · split at h <;> cases h
    · cases h
  · cases h

theorem runInput_does {x : Input} {s t : State} (h : runInput x { s with inputs := s.inputs.tail } = .next t) :
    StepDoes s t := by
  cases x with
  | turn q => exact portTurn_does h
  | store a n v =>
    simp only [runInput, clientStore] at h
    split at h
    · split at h
      · exact writeCmd_does h
      · rename_i r hr; cases h; exact .operand _ _ v (blockStore_write hr) rfl
      · cases h; exact .idle rfl
      · cases h
    · unfold clientStoreMemory at h
      split at h <;> cases h
      exact .write _ _ _ rfl
  | load a n =>
    simp only [runInput, clientLoad] at h
    split at h
    · split at h <;> cases h
      exact .load _ rfl
    · split at h <;> cases h
      exact .load _ rfl
  | reset => simp only [runInput] at h; cases h; exact .reset rfl

/-- Every step of the machine is one of those `StepDoes` lists. -/
theorem step_does {s t : State} (h : step s = .next t) : StepDoes s t := by
  unfold step at h
  split at h
  · rename_i hi
    have e : s = { s with inputs := s.inputs.tail } := by rw [hi]; cases s; simp_all
    unfold runOn at h
    split at h
    · rw [e] at h; exact portTurn_does h
    · cases h; exact .idle e
  · rename_i x rest hi
    have e : rest = s.inputs.tail := by rw [hi]; rfl
    rw [e] at h; exact runInput_does h

/-- A fault of the machine is a fault of a command's meaning on its port, or a busy port whose CMD is no command. -/
theorem portTurn_fault {q : PortId} {s : State} {r : Fault} (h : portTurn q s = .fault r) :
    ∃ ops pos, (s.port q).act = .busy ops pos
      ∧ ((∀ i, decode (s.port q).cmd ≠ .ok i) ∨ ∃ i, decode (s.port q).cmd = .ok i ∧ posFits i pos = false) := by
  unfold portTurn at h
  split at h
  · cases h
  · rename_i ops pos busy
    refine ⟨ops, pos, busy, ?_⟩
    split at h
    · rename_i i word
      obtain ⟨ops', pos', was, fits⟩ := exec_fault h
      have was : (s.port q).act = .busy ops' pos' := was
      rw [busy] at was; cases was
      exact .inr ⟨i, word, fits⟩
    · rename_i e he; exact .inl fun i hi => by rw [he] at hi; cases hi

end Sys2Proof.Machine
end

