-- ==== Sys2Proof/Tests/Slice0.lean ====
section
/-! SUPPORT. Tests: words written out from R104, the WellFormed smoke tests, one small step per command with the values
of the spec's own examples, and a witness for the hypotheses of every statement. -/

namespace Sys2Proof.Tests

open Sys2Proof Sys2Proof.Machine

-- Elaborated one after another: kernel evaluations left waiting side by side take one thread, and its stack, each.
set_option Elab.async false

/-! ### Helpers -/

/-- The answer is a next state and it passes the test. -/
def goesTo (r : Res) (p : State → Bool) : Bool :=
  match r with
  | .next t => p t
  | _ => false

/-- The port `q`, about to act, holds these operand registers and is idle. -/
def idleAt (q : PortId) (count : U32) (addr aux : U64) (s : State) : State :=
  { s.setPort q { Port.reset with count := count, addr := addr, aux := aux } with turn := q }

/-- The port `q`, about to act, is in command `i` at a position. -/
def busyAt (q : PortId) (i : Instr) (ops : Latch) (pos : Pos) (s : State) : State :=
  { s.setPort q { Port.reset with cmd := encode i, act := .busy ops pos } with turn := q }

def cfgB : PortId := ⟨.b, .cfg⟩
def prodB : PortId := ⟨.b, .prod⟩
def consB : PortId := ⟨.b, .cons⟩
def cfgF : PortId := ⟨.f, .cfg⟩
def prodF : PortId := ⟨.f, .prod⟩
def consF : PortId := ⟨.f, .cons⟩
def cfgT : PortId := ⟨.t, .cfg⟩
def prodT : PortId := ⟨.t, .prod⟩
def consT : PortId := ⟨.t, .cons⟩

/-- R165's example: `B.CAP = 8`, `B.RPOS = 6`, `B.WPOS = 2`, `B.ST[6,7,0,1] = AA BB CC DD`. -/
def ringB : State :=
  { State.reset with
    b := {
      cap := 8, mask := 7, rpos := 6, wpos := 2, gen := 1
      st := [(0, 0xCC), (1, 0xDD), (6, 0xAA), (7, 0xBB)] } }

/-- An empty ring of eight bytes with both cursors at 6 (R167's example), and the source bytes `AA BB CC DD`. -/
def emptyB : State :=
  { State.reset with
    b := { cap := 8, mask := 7, rpos := 6, wpos := 6, gen := 1, st := [] }
    cm := [(0x2000, 0xAA), (0x2001, 0xBB), (0x2002, 0xCC), (0x2003, 0xDD)] }

/-- A two-entry buffer list at 0x4000: buffers at 0x3000 and 0x3100, 16 bytes each. -/
def withList (s : State) : State :=
  (((s.memWrite 0x4000 8 0x3000).memWrite 0x4008 8 16).memWrite 0x4018 8 0x3100).memWrite 0x4020 8 16

/-- The entries `withList` lays out. -/
def twoEntries : List Entry := [{ ptr := 0x3000, capb := 16 }, { ptr := 0x3100, capb := 16 }]

/-- R215's example: `F.CH = 2`, `F.BPF = 2`, `F.CAP = 4`, `F.RPTR = 3`, `F.WPTR = 1`; channel 0's region holds frame `A`
at position 3 and frame `B` at position 0. -/
def ringF : State :=
  withList { State.reset with
    f := {
      fs := { ch := 2, bpf := 2, cap := 4, mask := 3, st := zeroPutLE (pointerTable 4 2 2) 16 8 0xA1A000000000B1B0 }
      rptr := 3
      wptr := 1 } }

/-- Unit T of eight frames, one channel, one byte a frame, `10 11 … 17` at times 0 to 7, bounds `(0, 8)` (part 4, I2). -/
def ringT : State :=
  withList { State.reset with
    t := {
      fs := { ch := 1, bpf := 1, cap := 8, mask := 7, st := zeroPutLE (pointerTable 8 1 1) 8 8 0x1716151413121110 }
      tbcnt := 1
      tbq := (Vector.replicate 8 Slot.reset).set 1 { start := 0, stop := 8, upd := 1 } } }

/-- Unit T of eight frames with bounds `(0, 4)` (R250's example). -/
def halfT : State := { ringT with t := { ringT.t with tbq := ringT.t.tbq.set 1 { start := 0, stop := 4, upd := 1 } } }

def ops0 : Latch := { count := 0, addr := 0, aux := 0 }

/-! ### Decoding: words written out bit by bit from R100 and R104 -/

theorem test_words_b : decode 0b00000000000000000000000000000001 = .ok .allocB
    ∧ decode 0b00000000000000000000000000000010 = .ok .deallocB ∧ decode 0b00000000000000000000000000000011 = .ok .resetB
    ∧ decode 0b00000000000000000000000000000100 = .ok .availrB ∧ decode 0b00000000000000000000000000000101 = .ok .availwB
    ∧ decode 0b00000000000000000000000000000110 = .ok (.readB false)
    ∧ decode 0b00000000000000000000010000000110 = .ok (.readB true)
    ∧ decode 0b00000000000000000000010000000111 = .ok (.peekB true)
    ∧ decode 0b00000000000000000000000000001000 = .ok (.writeB false)
    ∧ decode 0b00000000000000000000000000001001 = .ok .advrB ∧ decode 0b00000000000000000000000000001010 = .ok .advwB
    ∧ decode 0b00000000000000000000000000001011 = .ok .rvecB
    ∧ decode 0b00000000000000000000000000001100 = .ok .wvecB := by decide

theorem test_words_f : decode 0b00000000000000000000000100000001 = .ok .allocF
    ∧ decode 0b00000000000000000000000100000010 = .ok .deallocF ∧ decode 0b00000000000000000000000100000011 = .ok .resetF
    ∧ decode 0b00000000000000000000000100000100 = .ok .availrF ∧ decode 0b00000000000000000000000100000101 = .ok .availwF
    ∧ decode 0b00000000000000000000010100000110 = .ok (.readF true)
    ∧ decode 0b00000000000000000000000100001000 = .ok (.writeF false) := by decide

theorem test_words_t : decode 0b00000000000000000000001000000001 = .ok .allocT
    ∧ decode 0b00000000000000000000001000000010 = .ok .deallocT ∧ decode 0b00000000000000000000001000000011 = .ok .resetT
    ∧ decode 0b00000000000000000000001000000110 = .ok .readT ∧ decode 0b00000000000000000000001000001000 = .ok .writeT
    ∧ decode 0b00000000000000000000001000001101 = .ok .gettbT := by decide

/-- R105, R110: PEEK with UNIT 1, the zero word, UNIT 3, a bit of `[31:11]`, AP where there is none. -/
theorem test_illegal_words : decode 0x00000107 = .error .noSuchCommand ∧ decode 0 = .error .noSuchCommand
    ∧ decode 0x00000301 = .error .unitReserved ∧ decode 0x00000801 = .error .zeroFieldSet
    ∧ decode 0x00000401 = .error .apNotAllowed ∧ decode 0x00000606 = .error .apNotAllowed := by decide

theorem test_bytes_little_endian : decodeBytes [0x06, 0x04, 0x00, 0x00] = .ok (.readB true)
    ∧ decodeTableWord 32 0x00000506 = some (.readF true) ∧ decodeBytes [0x06, 0x04] = .error .notOneWord := by decide

/-! ### WellFormed: each check refuses an ill-formed term -/

theorem test_wellFormed_wrong_unit : Instr.wellFormedOn consF (.readB false) = false := by decide
theorem test_wellFormed_wrong_role : Instr.wellFormedOn prodB (.readB false) = false := by decide
theorem test_wellFormed_cfg_only : Instr.wellFormedOn consT .allocT = false ∧ Instr.wellFormedOn cfgT .allocT = true := by
  decide
theorem test_platform_sample : Platform.sample.wellFormed = true := by decide
theorem test_platform_blocks_overlap :
    ({ Platform.sample with portT := { Platform.sample.portT with cons := 0x1270 } }).wellFormed = false := by decide
theorem test_platform_block_in_window : ({ Platform.sample with winBase := 0x0FF0 }).wellFormed = false := by decide
theorem test_platform_block_past_end :
    ({ Platform.sample with portB := { Platform.sample.portB with cfg := 0xFFFFFFFFFFFFFFD0 } }).wellFormed = false := by
  decide
theorem test_platform_block_backed :
    ({ Platform.sample with backed := [{ base := 0x1000, size := 1 }] }).wellFormed = false := by decide

/-! ### One step of each command -/

/-- R160: `CFG: ALLOC.B 5` gives capacity 8. -/
theorem test_allocB : goesTo (exec .allocB (idleAt cfgB 5 0 0 State.reset)) (fun t =>
    t.b.cap == 8 && t.b.mask == 7 && t.cur.ret == 1 && t.cur.res0 == 8 && t.cur.cmd == 1) = true := by decide +kernel
/-- P5 line 5: `CFG: ALLOC.B 1` on an allocated unit is E_CONFIG and leaves it deallocated. -/
theorem test_allocB_one : goesTo (exec .allocB (idleAt cfgB 1 0 0 ringB)) (fun t =>
    t.b.cap == 0 && t.cur.ret == 0 && t.cur.status == 5) = true := by decide +kernel
theorem test_deallocB : goesTo (exec .deallocB (idleAt cfgB 0 0 0 ringB)) (fun t =>
    t.b.cap == 0 && t.b.mask == 0 && t.cur.ret == 1) = true := by decide +kernel
theorem test_resetB : goesTo (exec .resetB (idleAt cfgB 0 0 0 ringB)) (fun t =>
    t.b.rpos == 0 && t.b.wpos == 0 && t.b.cap == 8 && t.b.byte 6 == 0xAA) = true := by decide +kernel
/-- R163, R164: with `RPOS 6`, `WPOS 2` four bytes can be read and three written. -/
theorem test_availrB : goesTo (exec .availrB (busyAt consB .availrB ops0 .start ringB)) (fun t => t.cur.ret == 4) = true := by decide +kernel
theorem test_availwB : goesTo (exec .availwB (busyAt prodB .availwB ops0 .start ringB)) (fun t => t.cur.ret == 3) = true := by decide +kernel
/-- R165: byte 2 of the run from position 6 is `B.ST[0] = CC`. -/
theorem test_readB_wraps : goesTo (exec (.readB false)
    (busyAt consB (.readB false) { ops0 with count := 3, addr := 0x2100 } (.xfer 6 3 2) ringB))
    (fun t => t.clientByte 0x2102 == 0xCC && t.b.rpos == 6) = true := by decide +kernel
theorem test_readB_publish : goesTo (exec (.readB false)
    (busyAt consB (.readB false) { ops0 with count := 3, addr := 0x2100 } (.xfer 6 3 3) ringB))
    (fun t => t.b.rpos == 1 && t.cur.ret == 3 && t.cur.status == 0) = true := by decide +kernel
theorem test_peekB_publish : goesTo (exec (.peekB false)
    (busyAt consB (.peekB false) { ops0 with count := 3, addr := 0x2100 } (.xfer 6 3 3) ringB))
    (fun t => t.b.rpos == 6 && t.cur.ret == 3) = true := by decide +kernel
/-- R167: byte 2 goes to `B.ST[0]`, and the cursor to 2. -/
theorem test_writeB_wraps : goesTo (exec (.writeB false)
    (busyAt prodB (.writeB false) { ops0 with count := 4, addr := 0x2000 } (.xfer 6 4 2) emptyB))
    (fun t => t.b.byte 0 == 0xCC) = true := by decide +kernel
theorem test_writeB_publish : goesTo (exec (.writeB false)
    (busyAt prodB (.writeB false) { ops0 with count := 4, addr := 0x2000 } (.xfer 6 4 4) emptyB))
    (fun t => t.b.wpos == 2 && t.cur.ret == 4 && t.b.rpos == 6) = true := by decide +kernel
/-- R168, R169: `ADVR.B 3` from 6 gives 1, `ADVW.B 2` from 2 gives 4. -/
theorem test_advrB : goesTo (exec .advrB (busyAt consB .advrB { ops0 with count := 3 } .start ringB))
    (fun t => t.b.rpos == 1 && t.b.wpos == 2 && t.cur.ret == 1) = true := by decide +kernel
theorem test_advwB : goesTo (exec .advwB (busyAt prodB .advwB { ops0 with count := 2 } .start ringB))
    (fun t => t.b.wpos == 4 && t.b.rpos == 6) = true := by decide +kernel
/-- R170: spans `(WIN_BASE_B + 6, 2)` and `(WIN_BASE_B, 2)`. -/
theorem test_rvecB : goesTo (exec .rvecB (busyAt consB .rvecB ops0 .start ringB))
    (fun t => t.cur.res0 == 0x100006 && t.cur.res1 == 2 && t.cur.res2 == 0x100000 && t.cur.res3 == 2) = true := by decide +kernel
/-- R171's numbers at `RPOS = WPOS = 6`: five bytes after the wrap, two before. -/
theorem test_wvecB : goesTo (exec .wvecB (busyAt prodB .wvecB ops0 .start emptyB))
    (fun t => t.cur.res0 == 0x100006 && t.cur.res1 == 2 && t.cur.res2 == 0x100000 && t.cur.res3 == 5) = true := by decide +kernel

/-- R210: `ALLOC.F 5, 2, 4`: capacity 8, `base_F(1) = 48` in the pointer table. -/
theorem test_allocF : goesTo (exec .allocF (idleAt cfgF 5 0 0x0000000400000002 State.reset)) (fun t =>
    t.f.fs.cap == 8 && t.f.fs.mask == 7 && t.cur.res0 == 8 && t.f.fs.byte 0 == 16 && t.f.fs.byte 8 == 48) = true := by decide +kernel
/-- P5 line 9: an interleaved format is E_CONFIG. -/
theorem test_allocF_interleaved : goesTo (exec .allocF (idleAt cfgF 4 1 0x0000000200000002 ringF)) (fun t =>
    t.f.fs.cap == 0 && t.cur.status == 5) = true := by decide +kernel
theorem test_deallocF : goesTo (exec .deallocF (idleAt cfgF 0 0 0 ringF)) (fun t => t.f.fs.cap == 0 && t.cur.ret == 1) = true := by decide +kernel
theorem test_resetF : goesTo (exec .resetF (idleAt cfgF 0 0 0 ringF)) (fun t =>
    t.f.rptr == 0 && t.f.wptr == 0 && t.f.fs.cap == 4 && t.f.fs.byte 22 == 0xA0) = true := by decide +kernel
/-- R213, R214 with `CAP 4`, `RPTR 3`, `WPTR 1`: two frames to read, one to write. -/
theorem test_availrF : goesTo (exec .availrF (busyAt prodF .availrF ops0 .start ringF)) (fun t => t.cur.ret == 2) = true := by decide +kernel
theorem test_availwF : goesTo (exec .availwF (busyAt consF .availwF ops0 .start ringF)) (fun t => t.cur.ret == 1) = true := by decide +kernel
/-- R215: byte 2 of channel 0 is `B0`, frame 1 wrapped to position 0. -/
theorem test_readF_wraps : goesTo (exec (.readF false)
    (busyAt consF (.readF false) { ops0 with count := 2, addr := 0x4000 } (.move 3 2 twoEntries 0 2) ringF))
    (fun t => t.clientByte 0x3002 == 0xB0) = true := by decide +kernel
/-- R215: both entries report 4 bytes. -/
theorem test_readF_report : goesTo (exec (.readF false)
    (busyAt consF (.readF false) { ops0 with count := 2, addr := 0x4000 } (.move 3 2 twoEntries 1 4) ringF))
    (fun t => t.memRead 0x4028 8 == 4 && t.f.rptr == 3) = true := by decide +kernel
/-- R216: the first byte of channel 1 goes to region offset 6 of the region at 24. -/
theorem test_writeF_wraps : goesTo (exec (.writeF false)
    (busyAt prodF (.writeF false) { ops0 with count := 1, addr := 0x4000 } (.move 3 1 twoEntries 1 0)
      (ringF.memWrite 0x3100 1 0x77)))
    (fun t => t.f.fs.byte 30 == 0x77 && t.f.wptr == 1) = true := by decide +kernel

/-- R247: `ALLOC.T 5, 1, 4`: capacity 8, `base_T(0) = 8`, bounds `(0, 0)`. -/
theorem test_allocT : goesTo (exec .allocT (idleAt cfgT 5 0 0x0000000400000001 ringT)) (fun t =>
    t.t.fs.cap == 8 && t.t.fs.byte 0 == 8 && t.t.tbcnt == 0 && t.t.bounds == (0, 0) && t.cur.res0 == 8) = true := by decide +kernel
theorem test_deallocT : goesTo (exec .deallocT (idleAt cfgT 0 0 0 ringT)) (fun t =>
    t.t.fs.cap == 0 && t.t.tbcnt == 0 && t.t.bounds == (0, 0)) = true := by decide +kernel
theorem test_resetT : goesTo (exec .resetT (idleAt cfgT 0 0 0 ringT)) (fun t =>
    t.t.bounds == (0, 0) && t.t.fs.cap == 8 && t.t.fs.byte 8 == 0x10) = true := by decide +kernel
theorem test_gettbT : goesTo (execTimes 6 .gettbT (busyAt consT .gettbT ops0 .start ringT)) (fun t =>
    t.cur.ret == 1 && t.cur.res0 == 0 && t.cur.res1 == 8) = true := by decide +kernel
/-- R250's example: `WRITE.T list, 6, 4` against `(0, 4)` is an overrun: `ns = 2`, `ne = 4`. -/
theorem test_writeT_overrun : goesTo (exec .writeT
    (busyAt prodT .writeT { count := 6, addr := 0x4000, aux := 4 } (.bounds twoEntries) halfT))
    (fun t => t.cur.act == .busy { count := 6, addr := 0x4000, aux := 4 } (.pub twoEntries 2 4 false .upd)) = true := by decide +kernel
/-- I2: time 8 goes to position 0. -/
theorem test_writeT_position : goesTo (exec .writeT
    (busyAt prodT .writeT { count := 2, addr := 0x4000, aux := 8 } (.fill twoEntries 2 0 0)
      (ringT.memWrite 0x3000 1 0x28)))
    (fun t => t.t.fs.byte 8 == 0x28) = true := by decide +kernel
/-- R265: `Read([0, 4))` against `(2, 10)` is two frames of silence, then the frames of times 2 and 3. -/
theorem test_readT_clip : clip 7 { count := 4, addr := 0x4000, aux := 0 } 2 10 = { pos := 2, lead := 2, ov := 2 } := by decide +kernel
/-- I2: byte 1 of a read from time 0 is the frame of time 1. -/
theorem test_readT_byte : goesTo (exec .readT
    (busyAt consT .readT { count := 4, addr := 0x4000, aux := 0 } (.out twoEntries { pos := 0, lead := 0, ov := 4 } 0 1) ringT))
    (fun t => t.clientByte 0x3001 == 0x11) = true := by decide +kernel

/-! ### The machine's own step -/

/-- A placed word is fetched and issued by the next step. -/
theorem test_placed_word_runs : goesTo (step (State.reset.withFetchWord 32 0x00000101)) (fun t =>
    t.turn == cfgF && t.cur.cmd == 0x101 && t.cur.status == 5) = true := by decide +kernel
/-- P6: `CM_OK(0x10000)` is false: the step is never taken. -/
theorem test_stuck_port : goesTo (exec (.readB false)
      (busyAt consB (.readB false) { ops0 with count := 3, addr := 0xFFFE } (.xfer 6 3 2) ringB))
    (fun t => t == busyAt consB (.readB false) { ops0 with count := 3, addr := 0xFFFE } (.xfer 6 3 2) ringB)
      = true := by decide +kernel

/-! ### Witnesses: for each statement with hypotheses, a state and operands that meet them, clause by clause -/

/-- A schedule before a state. -/
def withInputs (xs : List Input) (s : State) : State := { s with inputs := xs }

/-- READ.B of the ring of R165's example into 0x2100. -/
def readOps : Latch := { count := 3, addr := 0x2100, aux := 0 }
/-- WRITE.B of the source bytes of `emptyB`. -/
def writeOps : Latch := { count := 4, addr := 0x2000, aux := 0 }
/-- READ.F and WRITE.F of the two-entry list. -/
def listOps (n : U32) : Latch := { count := n, addr := 0x4000, aux := 0 }
/-- READ.T and WRITE.T of the list at a time. -/
def timeOps (n : U32) (t : U64) : Latch := { count := n, addr := 0x4000, aux := t }

theorem witness_DecodeIsEncode : ([] : List Byte).length ≠ 4 ∧ ([1, 2, 3] : List Byte).length ≠ 4
    ∧ ([1, 2, 3, 4, 5] : List Byte).length ≠ 4 := by decide

theorem witness_CommandMap : ∃ r ∈ commandRows, (0x00000406 : U32) &&& r.mask = r.word :=
  ⟨⟨0x06, .b, 0x00000006, true, [.cons], .readB⟩, by simp [commandRows, rowsB], by decide⟩

theorem witness_IllegalWords_issue :
    (State.reset.port consF).act = .idle ∧ ∀ i, decode 0x00000006 = .ok i → unitOf i ≠ consF.unit :=
  ⟨by decide, fun i h => by
    have e : decode 0x00000006 = .ok (.readB false) := by decide
    rw [e] at h; cases h; decide⟩
theorem witness_IllegalWords_classes : opcodeField 0x00000100 = 0 ∧ 0x0E ≤ (opcodeField 0x0000000E).toNat
    ∧ 0x0E ≤ (opcodeField 0x000002FF).toNat ∧ unitField 0x00000301 = 3 ∧ zeroField 0x00000801 ≠ 0
    ∧ zeroField 0x80000001 ≠ 0 := by decide
theorem witness_IllegalWords_ap : apField 0x00000401 = true ∧ opcodeField 0x00000401 ≠ 0x06
    ∧ opcodeField 0x00000401 ≠ 0x07 ∧ opcodeField 0x00000401 ≠ 0x08 ∧ apField 0x00000606 = true
    ∧ unitField 0x00000606 = 2 := by decide
theorem witness_IllegalWords_pairs : unitField 0x00000107 ≠ 0 ∧ opcodeField 0x00000107 = 0x07
    ∧ unitField 0x00000209 ≠ 0 ∧ 0x09 ≤ (opcodeField 0x00000209).toNat ∧ unitField 0x0000010C ≠ 0
    ∧ (opcodeField 0x0000010C).toNat ≤ 0x0C ∧ unitField 0x00000204 = 2 ∧ opcodeField 0x00000204 = 0x04
    ∧ unitField 0x00000205 = 2 ∧ opcodeField 0x00000205 = 0x05 ∧ unitField 0x0000010D ≠ 2
    ∧ opcodeField 0x0000010D = 0x0D := by decide

/-- A busy reader, the schedule naming its turn. -/
def readerTurn : State := withInputs [.turn consB] (busyAt consB (.readB false) readOps (.xfer 6 3 0) ringB)

theorem witness_StepRunsTheCommand :
    (withInputs [.store 0x1000 .w32 1] State.reset).inputs = .store 0x1000 .w32 1 :: []
    ∧ target State.reset.plat 0x1000 = .block cfgB 0 ∧ (State.reset.port cfgB).act = .idle
    ∧ decode ((1 : U64).truncate 32) = .ok .allocB
    ∧ readerTurn.inputs = .turn consB :: [] ∧ (readerTurn.port consB).act = .busy readOps (.xfer 6 3 0)
    ∧ decode (readerTurn.port consB).cmd = .ok (.readB false)
    ∧ (withInputs [] readerTurn).inputs = [] ∧ nextBusy (withInputs [] readerTurn) = some consB := by decide +kernel

theorem witness_RegisterBlocks : Platform.sample.wellFormed = true ∧ 0 < Config.blockBytes ∧ 63 < Config.blockBytes
    ∧ 3 < regBytes .cmd ∧ 7 < regBytes .res3 ∧ State.reset.plat.wellFormed = true
    ∧ decode 0x00000208 = .ok .writeT := by decide

theorem witness_ClientRegisterAccess_offsets : target State.reset.plat 0x1080 = .block consB (regOffset .cmd)
    ∧ target State.reset.plat 0x1084 = .block consB (regOffset .status)
    ∧ target State.reset.plat 0x108C = .block consB (regOffset .count)
    ∧ target State.reset.plat 0x1090 = .block consB (regOffset .addr)
    ∧ target State.reset.plat 0x1098 = .block consB (regOffset .aux)
    ∧ target State.reset.plat 0x10B8 = .block consB (regOffset .res3) := by decide +kernel
theorem witness_ClientRegisterAccess_accesses : widthBytes .w32 = regBytes .status ∧ widthBytes .w64 = regBytes .res3
    ∧ widthBytes .w32 = regBytes .count ∧ widthBytes .w64 = regBytes .addr ∧ widthBytes .w64 = regBytes .aux
    ∧ widthBytes .w8 ≤ regBytes .status ∧ widthBytes .w64 ≤ regBytes .res0 ∧ regWritable .status = false
    ∧ regWritable .res0 = false ∧ widthBytes .w32 = 4 ∧ widthBytes .w16 < 4
    ∧ (readerTurn.port consB).act = .busy readOps (.xfer 6 3 0)
    ∧ (withInputs [.store 0x1080 .w32 9] readerTurn).inputs = .store 0x1080 .w32 9 :: []
    ∧ (withInputs [.load 0x1084 .w32] readerTurn).inputs = .load 0x1084 .w32 :: [] := by decide +kernel

theorem witness_StatusRegister : goesTo (exec (.readB false) (idleAt consB 3 0x2100 0 ringB)) (fun t =>
    decide (t.cur.act ≠ .idle) && decide ((idleAt consB 3 0x2100 0 ringB).cur.act = .idle)) = true := by decide +kernel

theorem all_idle (q : PortId) : (State.reset.port q).act = .idle := by
  obtain ⟨u, r⟩ := q; cases u <;> cases r <;> rfl
theorem witness_ResetInput : (withInputs [.reset] ringB).inputs = .reset :: [] ∧ (∀ q, (State.reset.port q).act = .idle)
    ∧ State.reset.inputs = [] ∧ (ringB.port consB).act = .idle
    ∧ (withInputs [.turn consB] ringB).inputs = .turn consB :: [] := ⟨rfl, all_idle, rfl, rfl, rfl⟩

theorem witness_WindowAccess : ringB.plat.wellFormed = true ∧ ringB.b.sound ringB.plat.storeB = true
    ∧ 0 < min ringB.plat.storeB Config.maxCap ∧ 65535 < min ringB.plat.storeB Config.maxCap ∧ 0 < ringB.b.cap.toNat
    ∧ 7 < ringB.b.cap.toNat ∧ ringB.b.cap.toNat ≤ 8 ∧ ringB.b.cap.toNat ≤ 65535
    ∧ (withInputs [.load (ringB.plat.winBase + BitVec.ofNat 64 7) .w8] ringB).inputs =
        .load (ringB.plat.winBase + BitVec.ofNat 64 7) .w8 :: []
    ∧ (withInputs [.store (ringB.plat.winBase + BitVec.ofNat 64 8) .w8 5] ringB).inputs =
        .store (ringB.plat.winBase + BitVec.ofNat 64 8) .w8 5 :: [] := by decide +kernel

/-- READ.B about to store its third byte at an address that is not backed (P6). -/
def stuckReader : State := busyAt consB (.readB false) { readOps with addr := 0xFFFE } (.xfer 6 3 2) ringB
/-- A platform that backs a register block, against R76. -/
def blockBacked : State :=
  { busyAt consB (.readB false) { readOps with addr := 0x1000 } (.xfer 6 3 0) ringB with
    plat := { Platform.sample with backed := [{ base := 0x1000, size := 64 }] } }

theorem witness_AccessOutcomes_stuck : stuckReader.cur.act = .busy { readOps with addr := 0xFFFE } (.xfer 6 3 2)
    ∧ posFits (.readB false) (.xfer 6 3 2) = true
    ∧ stepAccess (.readB false) stuckReader { readOps with addr := 0xFFFE } (.xfer 6 3 2) = some (0x10000, 1)
    ∧ stuckReader.admits (0x10000 + BitVec.ofNat 64 0) = false := by decide +kernel
theorem witness_AccessOutcomes_block : blockBacked.cur.act = .busy { readOps with addr := 0x1000 } (.xfer 6 3 0)
    ∧ stepAccess (.readB false) blockBacked { readOps with addr := 0x1000 } (.xfer 6 3 0) = some (0x1000, 1)
    ∧ (∀ l, l < 1 → blockBacked.admits (0x1000 + BitVec.ofNat 64 l) = true)
    ∧ blockAt blockBacked.plat (0x1000 + BitVec.ofNat 64 0) ≠ none := by decide +kernel
theorem witness_AccessOutcomes_taken : readerTurn.cur.act = .busy readOps (.xfer 6 3 0)
    ∧ ∀ a n, stepAccess (.readB false) readerTurn readOps (.xfer 6 3 0) = some (a, n) → readerTurn.reachable a n := by
  refine ⟨by decide +kernel, fun a n h => ?_⟩
  have e : stepAccess (.readB false) readerTurn readOps (.xfer 6 3 0) = some (0x2100, 1) := by decide +kernel
  rw [e] at h; cases h
  unfold State.reachable; decide +kernel

theorem witness_ParametersKept : goesTo (step readerTurn) (fun t => t.inputs == []) = true := by decide +kernel

/-- READ.F about to store a byte outside the window. -/
def gatherer : State := busyAt consF (.readF false) (listOps 2) (.move 3 2 twoEntries 0 0) ringF

theorem witness_UnitIndependence : goesTo (exec (.readF false) gatherer) (fun _ => true) = true
    ∧ ∀ ops pos a n, gatherer.cur.act = .busy ops pos → stepAccess (.readF false) gatherer ops pos = some (a, n) →
        gatherer.outsideWindow a n := by
  refine ⟨by decide +kernel, fun ops pos a n h k => ?_⟩
  have e : gatherer.cur.act = .busy (listOps 2) (.move 3 2 twoEntries 0 0) := by decide +kernel
  rw [e] at h; cases h
  have f : stepAccess (.readF false) gatherer (listOps 2) (.move 3 2 twoEntries 0 0) = some (0x3000, 1) := by decide +kernel
  rw [f] at k; cases k
  unfold State.outsideWindow; decide +kernel

theorem witness_PreciseRejections_before : hasPassed .start = false ∧ goesTo
    (exec (.readB false) (busyAt consB (.readB false) readOps .start ringB)) (fun t => decide (t.cur.act ≠ .idle)) = true := by
  decide +kernel
theorem witness_PreciseRejections_after : hasPassed (.xfer 6 3 3) = true ∧ hasPassed (.xfer 6 3 0) = true
    ∧ goesTo (exec (.readB false) (busyAt consB (.readB false) readOps (.xfer 6 3 3) ringB))
        (fun t => decide (t.cur.act = .idle)) = true
    ∧ goesTo (exec (.readB false) readerTurn) (fun t => t.cur.act == .busy readOps (.xfer 6 3 1)) = true := by
  decide +kernel
theorem witness_PreciseRejections_code : isAlloc (.readB false) = false ∧ goesTo
    (exec (.readB false) (busyAt consB (.readB false) { readOps with count := 5 } .start ringB))
    (fun t => decide (t.cur.act = .idle) && decide (t.cur.code ≠ 0)) = true := by decide +kernel

theorem witness_DataIssue : isData .gettbT = true ∧ Instr.wellFormedOn (idleAt prodT 0 0 0 State.reset).turn .gettbT = true
    ∧ (idleAt prodT 0 0 0 State.reset).cur.act = .idle := by decide +kernel

theorem witness_CommonChecks : (idleAt prodT 0 0 0 State.reset).cur.act = .idle
    ∧ unitOf .availrF ≠ (idleAt prodT 0 0 0 State.reset).turn.unit
    ∧ unitOf .readT = (idleAt prodT 0 0 0 State.reset).turn.unit
    ∧ (idleAt prodT 0 0 0 State.reset).turn.role ∉ rolesOf .readT
    ∧ unitOf .resetB = (idleAt cfgB 0 0 0 readerTurn).turn.unit ∧ isData .resetB = false
    ∧ (idleAt cfgB 0 0 0 readerTurn).turn.role ∈ rolesOf .resetB
    ∧ ((idleAt cfgB 0 0 0 readerTurn).port ⟨unitOf .resetB, .cons⟩).act ≠ .idle := by decide +kernel

theorem witness_CommonChecks_word : ∀ i' : Instr, decode 0 ≠ .ok i' := fun _ h =>
  nomatch (show Except.error DecodeError.noSuchCommand = .ok _ from h)

theorem witness_Unallocated : isData .advrB = true ∧ (busyAt consB .advrB ops0 .start State.reset).cur.act = .busy ops0 .start
    ∧ (busyAt consB .advrB ops0 .start State.reset).unitCap (unitOf .advrB) = 0 := by decide +kernel

/-- The CFG port of a unit, idle like the two data ports, with operands. -/
def cfgReady (u : UnitId) (count : U32) (addr aux : U64) (s : State) : State := idleAt ⟨u, .cfg⟩ count addr aux s

theorem witness_AllocB : (cfgReady .b 2 0 0 ringB).cur.act = .idle ∧ (cfgReady .b 2 0 0 ringB).turn = ⟨.b, .cfg⟩
    ∧ ((cfgReady .b 2 0 0 ringB).port ⟨.b, .prod⟩).act = .idle ∧ ((cfgReady .b 2 0 0 ringB).port ⟨.b, .cons⟩).act = .idle
    ∧ 2 ≤ (cfgReady .b 2 0 0 ringB).cur.count.toNat ∧ pow2ceil 2 ≤ (cfgReady .b 2 0 0 ringB).plat.storeB
    ∧ pow2ceil 65536 ≤ (cfgReady .b 65536 0 0 ringB).plat.storeB
    ∧ (cfgReady .b 65537 0 0 ringB).plat.storeB < pow2ceil 65537
    ∧ (cfgReady .b 0x80000000 0 0 ringB).cur.count.toNat ≤ 2 ^ 31
    ∧ (cfgReady .b 1 0 0 ringB).cur.count.toNat < 2 ∧ 2 ^ 31 < (cfgReady .b 0x80000001 0 0 ringB).cur.count.toNat := by
  decide +kernel

theorem witness_DeallocResetB : (cfgReady .b 0 0 0 ringB).cur.act = .idle ∧ (cfgReady .b 0 0 0 ringB).turn = ⟨.b, .cfg⟩
    ∧ ((cfgReady .b 0 0 0 ringB).port ⟨.b, .prod⟩).act = .idle
    ∧ ((cfgReady .b 0 0 0 ringB).port ⟨.b, .cons⟩).act = .idle := by decide +kernel

theorem witness_queries_and_moves_B : (busyAt consB .advrB readOps .start ringB).cur.act = .busy readOps .start
    ∧ ringB.b.cap ≠ 0 ∧ ringB.b.mask = ringB.b.cap - 1 ∧ emptyB.b.rpos = emptyB.b.wpos
    ∧ emptyB.b.mask = emptyB.b.cap - 1 := by decide +kernel

theorem witness_VectorsB : ringB.b.sound ringB.plat.storeB = true ∧ ringB.b.cap ≠ 0
    ∧ (2 : U32).toNat = min (4 : U32).toNat (ringB.b.cap.toNat - (6 : U32).toNat) ∧ 6 = ringB.b.rpos
    ∧ 4 = availR ringB.b.mask ringB.b.rpos ringB.b.wpos
    ∧ (3 : U32).toNat = min (3 : U32).toNat (ringB.b.cap.toNat - (2 : U32).toNat) ∧ 2 = ringB.b.wpos
    ∧ 3 = availW ringB.b.mask ringB.b.rpos ringB.b.wpos
    ∧ (busyAt consB .rvecB ops0 .start ringB).cur.act = .busy ops0 .start := by decide +kernel

theorem witness_TransferPolicy : sampling (.readB false) emptyB = some (false, 0, 6)
    ∧ sampling (.readB false) ringB = some (false, 4, 6) ∧ (4 : U32).toNat < (5 : U32).toNat
    ∧ sampling (.writeB true) ringB = some (true, 3, 2) ∧ sampling (.readF false) ringF = some (false, 2, 3)
    ∧ (2 : U32).toNat ≤ (2 : U32).toNat ∧ ringB.unitCap (unitOf (.readB false)) ≠ 0
    ∧ ringF.unitCap (unitOf (.readF false)) ≠ 0 ∧ unitOf (.readF false) = .f ∧ (listOps 2).addr ≠ 0
    ∧ (busyAt consF (.readF false) (listOps 2) .start ringF).cur.act = .busy (listOps 2) .start := by decide +kernel

theorem witness_CopyBytesB : readerTurn.cur.act = .busy readOps (.xfer 6 3 0) ∧ 0 < (3 : U32).toNat
    ∧ readerTurn.reachable (readOps.addr + BitVec.ofNat 64 0) 1 ∧ Memory.wf readerTurn.cm = true
    ∧ (busyAt consB (.readB false) readOps (.xfer 6 3 2) ringB).cur.act = .busy readOps (.xfer 6 3 2)
    ∧ (busyAt consB (.readB false) readOps (.xfer 6 3 2) ringB).reachable (readOps.addr + BitVec.ofNat 64 2) 1 := by
  unfold State.reachable; decide +kernel

theorem witness_PublishB : (busyAt consB (.readB false) readOps (.xfer 6 3 3) ringB).cur.act = .busy readOps (.xfer 6 3 3)
    ∧ (3 : U32).toNat ≤ 3 := by decide +kernel

/-- READ.B at its sample step. -/
def reader : State := busyAt consB (.readB false) readOps .start ringB

theorem witness_ReadPeekBRun : reader.cur.act = .busy readOps .start ∧ reader.b.sound reader.plat.storeB = true
    ∧ reader.b.cap ≠ 0 ∧ Memory.wf reader.cm = true ∧ availR reader.b.mask reader.b.rpos reader.b.wpos ≠ 0
    ∧ readOps.count.toNat ≤ (availR reader.b.mask reader.b.rpos reader.b.wpos).toNat
    ∧ (3 : U32).toNat = min (availR reader.b.mask reader.b.rpos reader.b.wpos).toNat readOps.count.toNat
    ∧ reader.reachable readOps.addr 3 ∧ reader.outsideWindow readOps.addr 3 := by
  unfold State.reachable State.outsideWindow; decide +kernel

/-- WRITE.B at its sample step. -/
def writer : State := busyAt prodB (.writeB false) writeOps .start emptyB

theorem witness_WriteBRun : writer.cur.act = .busy writeOps .start ∧ writer.b.sound writer.plat.storeB = true
    ∧ writer.b.cap ≠ 0 ∧ availW writer.b.mask writer.b.rpos writer.b.wpos ≠ 0
    ∧ writeOps.count.toNat ≤ (availW writer.b.mask writer.b.rpos writer.b.wpos).toNat
    ∧ (4 : U32).toNat = min (availW writer.b.mask writer.b.rpos writer.b.wpos).toNat writeOps.count.toNat
    ∧ writer.reachable writeOps.addr 4 ∧ writer.outsideWindow writeOps.addr 4 := by
  unfold State.reachable State.outsideWindow; decide +kernel

/-- Both data ports of unit B at their sample steps. -/
def bothB (n : U32) : State :=
  busyAt prodB (.writeB false) { writeOps with count := n } .start
    (busyAt consB (.readB false) { readOps with count := n } .start emptyB)

theorem witness_RoundTripB : (bothB 7).b.sound (bothB 7).plat.storeB = true ∧ (bothB 7).b.cap ≠ 0
    ∧ Memory.wf (bothB 7).cm = true ∧ (bothB 7).b.rpos = (bothB 7).b.wpos
    ∧ (7 : U32).toNat ≤ (bothB 7).b.cap.toNat - 1
    ∧ ((bothB 7).port ⟨.b, .prod⟩).act = .busy { writeOps with count := 7 } .start
    ∧ ((bothB 7).port ⟨.b, .cons⟩).act = .busy { readOps with count := 7 } .start
    ∧ (bothB 7).reachable writeOps.addr 7 ∧ (bothB 7).outsideWindow writeOps.addr 7
    ∧ (bothB 7).reachable readOps.addr 7 ∧ (bothB 7).outsideWindow readOps.addr 7 := by
  unfold State.reachable State.outsideWindow; decide +kernel

theorem witness_capacities : isCapacity 2 = true ∧ isCapacity 8 = true ∧ isCapacity 0x80000000 = true
    ∧ (6 : U32).toNat < (8 : U32).toNat ∧ (2 : U32).toNat < (6 : U32).toNat
    ∧ 0 < (availW (8 - 1) 6 2).toNat ∧ 3 < (availR (8 - 1) 6 2).toNat ∧ (0 : Int) ≤ 0 := by decide

theorem witness_CapacityRounding : 2 ≤ 2 ∧ 2147483648 ≤ 2 ^ 31 ∧ 8 = 2 ^ 3 ∧ 5 ≤ 2 ^ 3 := by decide

theorem witness_WrapSplit : 6 < 8 ∧ 8 ≤ 8 ∧ 7 < 8 ∧ 15 < 8 * 2 := by decide

theorem witness_SideSeparationB : unitOf (.readB false) = .b ∧ rolesOf (.readB false) = [.cons]
    ∧ rolesOf (.writeB false) = [.prod]
    ∧ goesTo (exec (.writeB false) (busyAt prodB (.writeB false) writeOps (.xfer 6 4 2) emptyB))
        (fun t => decide (t.b.cap = 8)) = true
    ∧ ∀ ops pos a n, readerTurn.cur.act = .busy ops pos → stepAccess (.readB false) readerTurn ops pos = some (a, n) →
        readerTurn.outsideWindow a n := by
  refine ⟨by decide, by decide, by decide, by decide +kernel, fun ops pos a n h k => ?_⟩
  have e : readerTurn.cur.act = .busy readOps (.xfer 6 3 0) := by decide +kernel
  rw [e] at h; cases h
  have f : stepAccess (.readB false) readerTurn readOps (.xfer 6 3 0) = some (0x2100, 1) := by decide +kernel
  rw [f] at k; cases k
  unfold State.outsideWindow; decide +kernel
/-- A byte that WRITE.B changes: `B.ST[6]`, which held `AA`. -/
theorem witness_SideSeparationB_change : goesTo
    (exec (.writeB false) (busyAt prodB (.writeB false) { writeOps with addr := 0x2200 } (.xfer 6 4 0) ringB))
    (fun t => decide (t.b.byte 6 ≠ UnitB.byte (busyAt prodB (.writeB false) writeOps (.xfer 6 4 0) ringB).b 6)) = true := by
  decide +kernel

/-- The format word of `ch` channels of `bpf` bytes a frame. -/
def format (ch bpf : U32) : U64 := bpf ++ ch

theorem witness_AllocF : (cfgReady .f 2 0 (format 1 1) ringF).cur.act = .idle
    ∧ (cfgReady .f 2 0 (format 1 1) ringF).turn = ⟨.f, .cfg⟩
    ∧ ((cfgReady .f 2 0 (format 1 1) ringF).port ⟨.f, .prod⟩).act = .idle
    ∧ ((cfgReady .f 2 0 (format 1 1) ringF).port ⟨.f, .cons⟩).act = .idle
    ∧ 1 = ((cfgReady .f 2 0 (format 1 1) ringF).cur.aux.extractLsb' 0 32).toNat
    ∧ 1 = ((cfgReady .f 2 0 (format 1 1) ringF).cur.aux.extractLsb' 32 32).toNat
    ∧ (cfgReady .f 2 0 (format 1 1) ringF).cur.addr.getLsbD 0 = false
    ∧ (cfgReady .f 2 0 (format 1 1) ringF).cur.count.toNat = 2 ∧ (pow2ceil 2 * 1 + 8) * 1 ≤ ringF.plat.storeF
    ∧ (cfgReady .f 4 1 (format 1 1) ringF).cur.addr.getLsbD 0 = true
    ∧ ((cfgReady .f 4 0 (format 0 1) ringF).cur.aux.extractLsb' 0 32).toNat = 0
    ∧ ((cfgReady .f 4 0 (format 1 0) ringF).cur.aux.extractLsb' 32 32).toNat = 0
    ∧ ringF.plat.storeF < (pow2ceil 65536 * 1 + 8) * 1 := by decide +kernel
theorem witness_AllocT : (cfgReady .t 2 0 (format 1 1) ringT).cur.act = .idle
    ∧ (cfgReady .t 2 0 (format 1 1) ringT).turn = ⟨.t, .cfg⟩
    ∧ ((cfgReady .t 2 0 (format 1 1) ringT).port ⟨.t, .prod⟩).act = .idle
    ∧ ((cfgReady .t 2 0 (format 1 1) ringT).port ⟨.t, .cons⟩).act = .idle
    ∧ 1 = ((cfgReady .t 2 0 (format 1 1) ringT).cur.aux.extractLsb' 0 32).toNat
    ∧ 1 = ((cfgReady .t 2 0 (format 1 1) ringT).cur.aux.extractLsb' 32 32).toNat
    ∧ (cfgReady .t 2 0 (format 1 1) ringT).cur.addr.getLsbD 0 = false
    ∧ (cfgReady .t 2 0 (format 1 1) ringT).cur.count.toNat = 2 ∧ (pow2ceil 2 * 1 + 8) * 1 ≤ ringT.plat.storeT
    ∧ (cfgReady .t 1 0 (format 1 1) ringT).cur.count.toNat < 2
    ∧ 2 ^ 31 < (cfgReady .t 0x80000001 0 (format 1 1) ringT).cur.count.toNat
    ∧ ringT.plat.storeT < (pow2ceil 65536 * 1 + 8) * 1 := by decide +kernel

theorem witness_DeallocResetFT : (cfgReady .f 0 0 0 ringF).cur.act = .idle ∧ (cfgReady .f 0 0 0 ringF).turn = ⟨.f, .cfg⟩
    ∧ ((cfgReady .f 0 0 0 ringF).port ⟨.f, .prod⟩).act = .idle ∧ ((cfgReady .f 0 0 0 ringF).port ⟨.f, .cons⟩).act = .idle
    ∧ (cfgReady .t 0 0 0 ringT).cur.act = .idle ∧ (cfgReady .t 0 0 0 ringT).turn = ⟨.t, .cfg⟩
    ∧ ((cfgReady .t 0 0 0 ringT).port ⟨.t, .prod⟩).act = .idle
    ∧ ((cfgReady .t 0 0 0 ringT).port ⟨.t, .cons⟩).act = .idle := by decide +kernel

theorem witness_AvailabilityQueriesF : (busyAt consF .availrF ops0 .start ringF).cur.act = .busy ops0 .start
    ∧ ringF.f.fs.cap ≠ 0 ∧ ringF.f.fs.mask = ringF.f.fs.cap - 1 := by decide +kernel

theorem witness_NullList : usesList .readT = true ∧ usesList (.writeF true) = true
    ∧ (busyAt consT .readT { ops0 with count := 1 } .start ringT).cur.act = .busy { ops0 with count := 1 } .start
    ∧ ringT.unitCap (unitOf .readT) ≠ 0 ∧ ops0.addr = 0 ∧ (1 : U32) ≠ 0 ∧ ringF.unitCap (unitOf (.writeF true)) ≠ 0
    ∧ (busyAt prodF (.writeF true) ops0 .start ringF).cur.act = .busy ops0 .start := by decide +kernel

theorem witness_FetchListRun : usesList (.readF false) = true
    ∧ (busyAt consF (.readF false) (listOps 2) (.fetch 3 2 [] none) ringF).cur.act = .busy (listOps 2) (.fetch 3 2 [] none)
    ∧ ringF.unitChannels (unitOf (.readF false)) ≠ 0
    ∧ ∀ c, c < 2 → (busyAt consF (.readF false) (listOps 2) (.fetch 3 2 [] none) ringF).reachable
        (entryAddr (listOps 2) c) 16 := by
  unfold State.reachable; decide +kernel

theorem witness_ListFits : (busyAt consF (.readF false) (listOps 2) (.fits 3 2 twoEntries) ringF).cur.act =
      .busy (listOps 2) (.fits 3 2 twoEntries)
    ∧ ringF.unitChannels (unitOf (.readF false)) ≠ 0 ∧ 4 = (2 : U32).toNat * ringF.f.fs.bpf.toNat
    ∧ listFits twoEntries 4 = true ∧ listFits twoEntries 16 = true ∧ listFits twoEntries 17 = false
    ∧ usesList .writeT = true ∧ ringT.unitChannels (unitOf .writeT) ≠ 0
    ∧ 17 = (timeOps 17 0).count.toNat * ringT.t.fs.bpf.toNat := by decide +kernel

theorem witness_CopyBytesF_bytes : gatherer.cur.act = .busy (listOps 2) (.move 3 2 twoEntries 0 0)
    ∧ 0 < (2 : U32).toNat * gatherer.f.fs.bpf.toNat ∧ 0 < gatherer.f.fs.ch.toNat
    ∧ gatherer.reachable (bufferAddr twoEntries 0 0) 1 ∧ Memory.wf gatherer.cm = true
    ∧ Memory.wf gatherer.f.fs.st = true := by unfold State.reachable; decide +kernel
theorem witness_CopyBytesF_ends :
    (busyAt consF (.readF false) (listOps 2) (.move 3 2 twoEntries 1 4) ringF).cur.act =
      .busy (listOps 2) (.move 3 2 twoEntries 1 4)
    ∧ 4 = (2 : U32).toNat * ringF.f.fs.bpf.toNat ∧ Memory.canonical ringF.cm = true
    ∧ (busyAt consF (.readF false) (listOps 2) (.move 3 2 twoEntries 1 4) ringF).reachable
        (entryAddr (listOps 2) 1 + 16) 8
    ∧ (busyAt prodF (.writeF false) (listOps 2) (.move 3 2 twoEntries 1 3) ringF).cur.act =
        .busy (listOps 2) (.move 3 2 twoEntries 1 3)
    ∧ 3 + 1 = (2 : U32).toNat * ringF.f.fs.bpf.toNat ∧ 1 + 1 = ringF.f.fs.ch.toNat
    ∧ (busyAt prodF (.writeF false) (listOps 2) (.move 3 2 twoEntries 1 3) ringF).reachable
        (bufferAddr twoEntries 1 3) 1 := by unfold State.reachable; decide +kernel

theorem witness_PublishF : (busyAt consF (.readF false) (listOps 2) (.publish 3 2) ringF).cur.act =
    .busy (listOps 2) (.publish 3 2) := by decide +kernel

/-- The list of `withList` can be read for transfers of up to 16 bytes a channel. -/
theorem list_readable (s : State) (ops : Latch) (n : Nat) (hn : n ≤ 16)
    (he : s.listEntry ops 0 = { ptr := 0x3000, capb := 16 } ∧ s.listEntry ops 1 = { ptr := 0x3100, capb := 16 })
    (ha : ∀ c, c < 2 → s.reachable (entryAddr ops c) 24) (hb : s.reachable 0x3000 16 ∧ s.reachable 0x3100 16) :
    ListReadable s ops 2 n where
  entries := ha
  buffers c hc i hi := by
    obtain rfl | rfl : c = 0 ∨ c = 1 := by omega
    · rw [he.1]; exact hb.1 i (by omega)
    · rw [he.2]; exact hb.2 i (by omega)
  fits c hc := by
    obtain rfl | rfl : c = 0 ∨ c = 1 := by omega
    · rw [he.1]; exact hn
    · rw [he.2]; exact hn

/-- The two buffers of four bytes and the list lie apart. -/
theorem list_apart (s : State) (ops : Latch) (hops : ops.addr = 0x4000)
    (he : s.listEntry ops 0 = { ptr := 0x3000, capb := 16 } ∧ s.listEntry ops 1 = { ptr := 0x3100, capb := 16 }) :
    ListApart s ops 2 4 where
  buffers c c' i j hc hc' hi hj h := by
    obtain rfl | rfl : c = 0 ∨ c = 1 := by omega
    all_goals obtain rfl | rfl : c' = 0 ∨ c' = 1 := by omega
    all_goals
      simp only [he.1, he.2] at h
      first
        | exact ⟨rfl, by bv_omega⟩
        | exact absurd h (by bv_omega)
  list c c' i j hc hc' hi hj h := by
    obtain rfl | rfl : c = 0 ∨ c = 1 := by omega
    all_goals obtain rfl | rfl : c' = 0 ∨ c' = 1 := by omega
    all_goals
      simp only [he.1, he.2, entryAddr, hops, Config.bleBytes] at h hj
      bv_omega

/-- READ.F of two frames at its sample step, and WRITE.F of one. -/
def readerF : State := busyAt consF (.readF false) (listOps 2) .start ringF
def writerF : State := busyAt prodF (.writeF false) (listOps 1) .start ringF

theorem witness_ReadFRun : readerF.cur.act = .busy (listOps 2) .start ∧ readerF.f.fs.cap ≠ 0 ∧ (listOps 2).addr ≠ 0
    ∧ Memory.canonical readerF.cm = true ∧ 2 = readerF.f.fs.ch.toNat ∧ 2 = readerF.f.fs.bpf.toNat
    ∧ availR readerF.f.fs.mask readerF.f.rptr readerF.f.wptr ≠ 0
    ∧ (listOps 2).count.toNat ≤ (availR readerF.f.fs.mask readerF.f.rptr readerF.f.wptr).toNat
    ∧ (2 : U32).toNat = min (availR readerF.f.fs.mask readerF.f.rptr readerF.f.wptr).toNat (listOps 2).count.toNat := by
  decide +kernel
theorem witness_ReadFRun_list : ListReadable readerF (listOps 2) 2 ((2 : U32).toNat * 2)
    ∧ ListApart readerF (listOps 2) 2 ((2 : U32).toNat * 2) :=
  ⟨list_readable _ _ _ (by decide) (by decide +kernel) (by unfold State.reachable; decide +kernel)
      (by unfold State.reachable; decide +kernel),
    list_apart _ _ rfl (by decide +kernel)⟩

theorem witness_WriteFRun : writerF.cur.act = .busy (listOps 1) .start ∧ writerF.f.sound writerF.plat.storeF = true
    ∧ writerF.f.fs.cap ≠ 0 ∧ (listOps 1).addr ≠ 0 ∧ 2 = writerF.f.fs.ch.toNat ∧ 2 = writerF.f.fs.bpf.toNat
    ∧ availW writerF.f.fs.mask writerF.f.rptr writerF.f.wptr ≠ 0
    ∧ (listOps 1).count.toNat ≤ (availW writerF.f.fs.mask writerF.f.rptr writerF.f.wptr).toNat
    ∧ (1 : U32).toNat = min (availW writerF.f.fs.mask writerF.f.rptr writerF.f.wptr).toNat (listOps 1).count.toNat := by
  decide +kernel
theorem witness_WriteFRun_list : ListReadable writerF (listOps 1) 2 ((1 : U32).toNat * 2) :=
  list_readable _ _ _ (by decide) (by decide +kernel) (by unfold State.reachable; decide +kernel)
    (by unfold State.reachable; decide +kernel)

theorem witness_RegionLayout : 1 < 2 ∧ 0 < 4 * 2 ∧ 7 < 4 * 2
    ∧ regionBase 4 2 2 1 + 7 = regionBase 4 2 2 1 + 7 := by decide

theorem witness_ValidateT : (busyAt consT .readT (timeOps 0 0) .start ringT).cur.act = .busy (timeOps 0 0) .start
    ∧ ringT.t.fs.cap ≠ 0 ∧ (timeOps 0 0).count = 0 ∧ ringT.t.fs.cap.toNat < (timeOps 9 0).count.toNat
    ∧ (timeOps 1 0xFFFFFFFFFFFFFFFF).aux.toInt < 0
    ∧ 2 ^ 63 - 1 < (timeOps 1 0x7FFFFFFFFFFFFFFF).aux.toInt + (timeOps 1 0x7FFFFFFFFFFFFFFF).count.toNat
    ∧ (timeOps 8 0x7FFFFFFFFFFFFFF7).aux.toInt + (timeOps 8 0x7FFFFFFFFFFFFFF7).count.toNat ≤ 2 ^ 63 - 1
    ∧ (timeOps 8 0).count.toNat ≤ ringT.t.fs.cap.toNat ∧ (timeOps 8 0).addr ≠ 0 ∧ 0 ≤ (timeOps 8 0).aux.toInt
    ∧ ringT.t.fs.ch ≠ 0 := by decide +kernel

theorem witness_GetTimeBounds : (busyAt consT .gettbT ops0 (.got (some (0, 8))) ringT).cur.act =
      .busy ops0 (.got (some (0, 8)))
    ∧ (busyAt consT .gettbT ops0 (.got none) ringT).cur.act = .busy ops0 (.got none)
    ∧ (busyAt consT .gettbT ops0 .start ringT).cur.act = .busy ops0 .start
    ∧ (ringT.t.slot ringT.t.tbcnt).upd = ringT.t.tbcnt := by decide +kernel

theorem witness_ReadBoundsSteps :
    (busyAt consT .gettbT ops0 (.read [] 0 (.upd 1 0 8)) ringT).cur.act = .busy ops0 (.read [] 0 (.upd 1 0 8))
    ∧ (ringT.t.slot 1).upd = 1 ∧ (ringT.t.slot 2).upd ≠ 2 ∧ 6 + 1 < 8 ∧ 8 ≤ 7 + 1 := by decide +kernel

theorem witness_PublishSteps : ∀ last ∈ [true, false],
    (busyAt prodT .writeT (timeOps 2 8) (.pub twoEntries 2 8 last (.count 2)) ringT).cur.act =
      .busy (timeOps 2 8) (.pub twoEntries 2 8 last (.count 2)) := by decide +kernel

theorem witness_WriterCases : (busyAt prodT .writeT (timeOps 4 4) (.bounds twoEntries) ringT).cur.act =
      .busy (timeOps 4 4) (.bounds twoEntries)
    ∧ 0 = (ringT.t.slot ringT.t.tbcnt).start.toInt ∧ 8 = (ringT.t.slot ringT.t.tbcnt).stop.toInt
    ∧ (timeOps 4 7).aux.toInt < 8 ∧ 8 ≤ (timeOps 0 8).aux.toInt
    ∧ (timeOps 0 8).aux.toInt + (timeOps 0 8).count.toNat - 0 ≤ ringT.t.fs.cap.toNat
    ∧ ringT.t.fs.cap.toNat < (timeOps 1 8).aux.toInt + (timeOps 1 8).count.toNat - 0 := by decide +kernel

theorem witness_WriteTMoves : (busyAt prodT .writeT (timeOps 2 6) (.gap twoEntries 0 4 0 1) halfT).cur.act =
      .busy (timeOps 2 6) (.gap twoEntries 0 4 0 1)
    ∧ Memory.wf halfT.t.fs.st = true ∧ 0 + 1 < ((timeOps 2 6).aux.toInt - 4).toNat * halfT.t.fs.bpf.toNat
    ∧ 1 + 1 = ((timeOps 2 6).aux.toInt - 4).toNat * halfT.t.fs.bpf.toNat ∧ 0 + 1 = halfT.t.fs.ch.toNat
    ∧ (busyAt prodT .writeT (timeOps 2 6) (.fill twoEntries 0 0 1) halfT).cur.act =
        .busy (timeOps 2 6) (.fill twoEntries 0 0 1)
    ∧ (busyAt prodT .writeT (timeOps 2 6) (.fill twoEntries 0 0 1) halfT).reachable (bufferAddr twoEntries 0 1) 1
    ∧ 1 + 1 = (timeOps 2 6).count.toNat * halfT.t.fs.bpf.toNat
    ∧ (busyAt prodT .writeT (timeOps 2 6) .fin halfT).cur.act = .busy (timeOps 2 6) .fin := by
  unfold State.reachable; decide +kernel

theorem witness_ReadTMoves : ∀ j ∈ [0, 3, 4],
    (busyAt consT .readT (timeOps 4 0) (.out twoEntries { pos := 0, lead := 0, ov := 4 } 0 j) ringT).cur.act =
      .busy (timeOps 4 0) (.out twoEntries { pos := 0, lead := 0, ov := 4 } 0 j)
    ∧ (busyAt consT .readT (timeOps 4 0) (.out twoEntries { pos := 0, lead := 0, ov := 4 } 0 j) ringT).reachable
        (bufferAddr twoEntries 0 j) 1
    ∧ (busyAt consT .readT (timeOps 4 0) (.out twoEntries { pos := 0, lead := 0, ov := 4 } 0 j) ringT).reachable
        (entryAddr (timeOps 4 0) 0 + 16) 8
    ∧ 3 < (timeOps 4 0).count.toNat * ringT.t.fs.bpf.toNat ∧ 4 = (timeOps 4 0).count.toNat * ringT.t.fs.bpf.toNat
    ∧ Memory.canonical ringT.cm = true := by
  unfold State.reachable; decide +kernel
theorem witness_ReadTMoves_ends : (busyAt consT .readT (timeOps 4 0) .fin ringT).cur.act = .busy (timeOps 4 0) .fin
    ∧ (busyAt consT .readT (timeOps 4 0) (.got none) ringT).cur.act = .busy (timeOps 4 0) (.got none) := by
  decide +kernel

/-- Unit T with two channels, so that the list of `withList` is its list. -/
def stereoT : State :=
  { ringT with t := { ringT.t with fs := { ringT.t.fs with ch := 2, st := pointerTable 8 2 1 } } }
def writerT : State := busyAt prodT .writeT (timeOps 4 8) .start stereoT
def readerT : State := busyAt consT .readT (timeOps 4 6) .start stereoT

theorem witness_WriteTRun : writerT.cur.act = .busy (timeOps 4 8) .start
    ∧ writerT.t.fs.sound writerT.plat.storeT = true ∧ writerT.t.fs.cap ≠ 0 ∧ (timeOps 4 8).addr ≠ 0
    ∧ 8 = writerT.t.fs.cap.toNat ∧ 2 = writerT.t.fs.ch.toNat ∧ 1 = writerT.t.fs.bpf.toNat
    ∧ 8 = (timeOps 4 8).aux.toInt ∧ 0 = writerT.t.bounds.1 ∧ 8 = writerT.t.bounds.2
    ∧ (timeOps 4 8).count.toNat ≤ 8 := by decide +kernel
theorem witness_WriteTRun_bounds : boundsSound writerT.t.fs.cap 0 8
    ∧ ListReadable writerT (timeOps 4 8) 2 ((timeOps 4 8).count.toNat * 1) :=
  ⟨by unfold boundsSound; decide +kernel,
    list_readable _ _ _ (by decide) (by decide +kernel) (by unfold State.reachable; decide +kernel)
      (by unfold State.reachable; decide +kernel)⟩

/-- A rewind inside the bounds: four frames at time 4 of `(0, 8)`. -/
def rewinderT : State := busyAt prodT .writeT (timeOps 4 4) .start stereoT
/-- A write that fits after a gap, up to the capacity: two frames at time 6 of `(0, 4)`. -/
def gapperT : State := busyAt prodT .writeT (timeOps 2 6) .start { stereoT with t := { stereoT.t with tbq := halfT.t.tbq } }

theorem witness_WriteTRun_rewind : (4 : Int) = (timeOps 4 4).aux.toInt ∧ 0 = rewinderT.t.bounds.1
    ∧ 8 = rewinderT.t.bounds.2 ∧ rewinderT.cur.act = .busy (timeOps 4 4) .start
    ∧ rewinderT.t.fs.sound rewinderT.plat.storeT = true ∧ boundsSound rewinderT.t.fs.cap 0 8
    ∧ ListReadable rewinderT (timeOps 4 4) 2 ((timeOps 4 4).count.toNat * 1) :=
  ⟨by decide +kernel, by decide +kernel, by decide +kernel, by decide +kernel, by decide +kernel,
    by unfold boundsSound; decide +kernel,
    list_readable _ _ _ (by decide) (by decide +kernel) (by unfold State.reachable; decide +kernel)
      (by unfold State.reachable; decide +kernel)⟩
theorem witness_WriteTRun_gap : (6 : Int) = (timeOps 2 6).aux.toInt ∧ 0 = gapperT.t.bounds.1
    ∧ 4 = gapperT.t.bounds.2 ∧ gapperT.cur.act = .busy (timeOps 2 6) .start
    ∧ gapperT.t.fs.sound gapperT.plat.storeT = true ∧ boundsSound gapperT.t.fs.cap 0 4
    ∧ ListReadable gapperT (timeOps 2 6) 2 ((timeOps 2 6).count.toNat * 1) :=
  ⟨by decide +kernel, by decide +kernel, by decide +kernel, by decide +kernel, by decide +kernel,
    by unfold boundsSound; decide +kernel,
    list_readable _ _ _ (by decide) (by decide +kernel) (by unfold State.reachable; decide +kernel)
      (by unfold State.reachable; decide +kernel)⟩

theorem witness_ReadTRun : readerT.cur.act = .busy (timeOps 4 6) .start
    ∧ readerT.t.fs.sound readerT.plat.storeT = true ∧ readerT.t.fs.cap ≠ 0 ∧ (timeOps 4 6).addr ≠ 0
    ∧ (timeOps 4 6).count ≠ 0 ∧ Memory.canonical readerT.cm = true ∧ 6 = (timeOps 4 6).aux.toInt
    ∧ 0 = readerT.t.bounds.1 ∧ 8 = readerT.t.bounds.2 ∧ (readerT.t.slot readerT.t.tbcnt).upd = readerT.t.tbcnt
    ∧ (timeOps 4 6).count.toNat ≤ readerT.t.fs.cap.toNat
    ∧ 2 = readerT.t.fs.ch.toNat ∧ 1 = readerT.t.fs.bpf.toNat := by decide +kernel
theorem witness_ReadTRun_list : boundsSound readerT.t.fs.cap 0 8
    ∧ ListReadable readerT (timeOps 4 6) 2 ((timeOps 4 6).count.toNat * 1)
    ∧ ListApart readerT (timeOps 4 6) 2 ((timeOps 4 6).count.toNat * 1) :=
  ⟨by unfold boundsSound; decide +kernel,
    list_readable _ _ _ (by decide) (by decide +kernel) (by unfold State.reachable; decide +kernel)
      (by unfold State.reachable; decide +kernel),
    list_apart _ _ rfl (by decide +kernel)⟩

/-! The invariants' witness is a state with a WRITE.T in the middle of a publication and a GETTB.T in the middle of an
attempt. -/

/-- WRITE.T has written the first field of publication 2; GETTB.T has read counter 1 and the start. -/
def duet : State :=
  { busyAt prodT .writeT (timeOps 2 8) (.pub twoEntries 2 8 false (.start 2))
      (busyAt consT .gettbT ops0 (.read [] 0 (.stop 1 0)) ringT) with
    t := { ringT.t with tbq := ringT.t.tbq.set 2 { start := 0, stop := 0, upd := 2 } } }

theorem witness_positions : PositionInv duet := by
  rintro ⟨u, r⟩; cases u <;> cases r <;> decide +kernel

theorem duet_busy {q : PortId} {ops : Latch} {pos : Pos} (h : (duet.port q).act = .busy ops pos) :
    (q = prodT ∧ ops = timeOps 2 8 ∧ pos = .pub twoEntries 2 8 false (.start 2))
      ∨ (q = consT ∧ ops = ops0 ∧ pos = .read [] 0 (.stop 1 0)) := by
  have hp : (duet.port prodT).act = .busy (timeOps 2 8) (.pub twoEntries 2 8 false (.start 2)) := by decide +kernel
  have hc : (duet.port consT).act = .busy ops0 (.read [] 0 (.stop 1 0)) := by decide +kernel
  obtain ⟨u, r⟩ := q
  cases u <;> cases r
  case t.prod => exact .inl ⟨rfl, by rw [show (⟨.t, .prod⟩ : PortId) = prodT from rfl, hp] at h; cases h; exact ⟨rfl, rfl⟩⟩
  case t.cons => exact .inr ⟨rfl, by rw [show (⟨.t, .cons⟩ : PortId) = consT from rfl, hc] at h; cases h; exact ⟨rfl, rfl⟩⟩
  all_goals exact absurd h (by rw [show (duet.port _).act = .idle from by decide +kernel]; simp)

theorem witness_MachineKept : MachineInv duet where
  positions := witness_positions
  ranges q ops pos h := by
    rcases duet_busy h with ⟨rfl, rfl, rfl⟩ | ⟨rfl, rfl, rfl⟩ <;> decide +kernel
  storage := ⟨by decide +kernel, by decide +kernel, by decide +kernel, by decide +kernel⟩

theorem witness_BoundsKept : BoundsInv duet where
  current := by unfold boundsSound; decide +kernel
  counter := by decide +kernel
  writer ops pos h _ := by
    rcases duet_busy h with ⟨_, rfl, rfl⟩ | ⟨e, _, _⟩
    · simp only [writerSound, boundsSound, slotProgress]; decide +kernel
    · cases e

theorem witness_SnapshotKept : SnapshotInv duet ∧ NoCounterWrap duet := by
  constructor
  · intro q ops es tries st _ h
    rcases duet_busy h with ⟨_, _, e⟩ | ⟨_, _, e⟩ <;> cases e
    simp only [attemptSound]; decide +kernel
  · intro q ops es tries st c _ h hc
    rcases duet_busy h with ⟨_, _, e⟩ | ⟨_, _, e⟩ <;> cases e
    cases hc; decide +kernel

theorem witness_duet_steps : goesTo (step (withInputs [.turn prodT] duet)) (fun t => t.t.tbcnt == 1) = true
    ∧ goesTo (step (withInputs [.turn consT] duet)) (fun t =>
        (t.port consT).act == .busy ops0 (.read [] 0 (.upd 1 0 8))) = true := by decide +kernel

end Sys2Proof.Tests
end

section
/-! PROOFS for the statements of 10_state.md. First what every step keeps when its parts do, then the facts about ports,
positions, units and the bounds register, then the statements. -/

namespace Sys2Proof.Machine

/-! ### An invariant is kept by a step when its parts keep it -/

/-- The command a step runs on the issuing port: any word on an idle port, the word in CMD on a busy one. -/
def Runs (i : Instr) (s : State) : Prop := s.cur.act = .idle ∨ decode s.cur.cmd = .ok i

/-- A predicate is kept by each of the parts `step_does` takes a step of the machine apart into. -/
structure KeptByParts (Inv : State → Prop) : Prop where
  model : ∀ s xs q v, Inv s → Inv { s with inputs := xs, turn := q, loaded := v }
  command : ∀ i s t, Inv s → Runs i s → exec i s = .next t → Inv t
  illegal : ∀ s w, Inv s → Inv ((s.accept w).reject .illegal)
  operand : ∀ s q r v, Inv s → Inv (s.setPort q ((s.port q).write r v))
  write : ∀ s a n v, Inv s → Inv (s.memWrite a n v)
  reset : ∀ s, Inv s → Inv (hardReset s)

/-- An invariant its parts keep is kept by every step of the machine. -/
theorem KeptByParts.step {Inv : State → Prop} (k : KeptByParts Inv) {s t : State} (hs : Inv s)
    (h : step s = .next t) : Inv t := by
  have rest : ∀ q, Inv { s with inputs := s.inputs.tail, turn := q } := fun q => k.model s _ q s.loaded hs
  cases step_does h with
  | idle h => subst h; exact rest s.turn
  | issue q i free run => exact k.command i _ t (rest q) (.inl free) run
  | turn q i ops pos busy word run => exact k.command i _ t (rest q) (.inr word) run
  | illegal q w free word h => cases h; exact k.illegal _ w (rest q)
  | operand q r v notCmd h => subst h; exact k.operand _ q r v (rest s.turn)
  | write a n v h => subst h; exact k.write _ a n v (rest s.turn)
  | load v h => subst h; exact k.model s _ s.turn v hs
  | reset h => subst h; exact k.reset _ (rest s.turn)

/-! ### A client's write of an operand register (R42) -/

section PortWrite
variable (p : Port) (r : Reg) (v : U64)

@[simp] theorem write_act : (p.write r v).act = p.act := by cases r <;> rfl
@[simp] theorem write_cmd : (p.write r v).cmd = p.cmd := by cases r <;> rfl
@[simp] theorem write_code : (p.write r v).code = p.code := by cases r <;> rfl

end PortWrite

/-! ### A rejection is a completion (R14, R290) -/

@[simp] theorem complete_eq (s : State) (ret : U32) (code : Code) :
    s.complete ret code = s.completeWith ret code 0 0 0 0 := rfl

@[simp] theorem reject_eq (s : State) (code : Code) : s.reject code = s.completeWith 0 code 0 0 0 0 := rfl

/-- A port that is busy after a word was rejected is another port, and as before. -/
theorem port_of_rejected_busy {s : State} {w : U32} {code : Code} {q : PortId} {ops : Latch} {pos : Pos}
    (busy : (((s.accept w).reject code).port q).act = .busy ops pos) :
    ((s.accept w).reject code).port q = s.port q := by
  by_cases own : q = s.turn
  · have idle := congrArg Port.act (cur_completeWith (s.accept w) 0 code 0 0 0 0)
    rw [State.cur, completeWith_turn, accept_turn, ← own] at idle
    rw [reject_eq, idle] at busy; cases busy
  · exact (port_completeWith_ne _ _ _ _ _ _ _ (by rwa [accept_turn])).trans (port_accept_ne s w own)

/-! ### The issue step of each kind of command (R43, R109) -/

/-- On an idle port a data command's step is its issue. -/
theorem exec_data_idle {i : Instr} {s : State} (data : isData i = true) (idle : s.cur.act = .idle) :
    exec i s = issueData i s := by
  cases i with
  | allocB | deallocB | resetB | allocF | deallocF | resetF | allocT | deallocT | resetT => cases data
  | availrB | availwB | advrB | advwB | rvecB | wvecB | availrF | availwF =>
    simp only [exec, execAvailrB, execAvailwB, execAdvrB, execAdvwB, execRvecB, execWvecB, execAvailrF, execAvailwF,
      idle]
  | readB ap | peekB ap | writeB ap | readF ap | writeF ap =>
    simp only [exec, execReadB, execPeekB, execWriteB, execReadF, execWriteF, idle]
  | readT | writeT | gettbT => simp only [exec, execReadT, execWriteT, execGettbT, idle]

/-- The atomic block of a lifecycle command; a data command has none. -/
def cfgBody : Instr → Latch → State → State
  | .allocB => allocBBody
  | .deallocB => deallocBBody
  | .resetB => resetBBody
  | .allocF => allocFBody
  | .deallocF => deallocFBody
  | .resetF => resetFBody
  | .allocT => allocTBody
  | .deallocT => deallocTBody
  | .resetT => resetTBody
  | _ => fun _ s => s

/-- A lifecycle command's step is its issue step, on an idle port only. -/
theorem exec_cfg_next {i : Instr} {s t : State} (cfg : isData i = false) (h : exec i s = .next t) :
    s.cur.act = .idle ∧ issueCfg i (cfgBody i) s = .next t := by
  cases i with
  | allocB | deallocB | resetB | allocF | deallocF | resetF | allocT | deallocT | resetT =>
    simp only [exec, execAllocB, execDeallocB, execResetB, execAllocF, execDeallocF, execResetF, execAllocT,
      execDeallocT, execResetT] at h
    split at h
    · exact ⟨‹_›, h⟩
    · cases h
  | _ => cases cfg

/-- `wellFormedOn` as a statement: the port's unit and its role. -/
theorem wellFormedOn_iff {q : PortId} {i : Instr} :
    i.wellFormedOn q = true ↔ unitOf i = q.unit ∧ q.role ∈ rolesOf i := by
  rw [Instr.wellFormedOn, Bool.and_eq_true, decide_eq_true_iff, decide_eq_true_iff]

theorem unitOf_eq_of_wellFormed {q : PortId} {i : Instr} (wf : i.wellFormedOn q = true) : unitOf i = q.unit :=
  (wellFormedOn_iff.1 wf).1

theorem commonCheck_of_wellFormed {q : PortId} {i : Instr} (h : i.wellFormedOn q = true) : commonCheck q i = none := by
  obtain ⟨unit, role⟩ := wellFormedOn_iff.1 h
  simp [commonCheck, unit, role]

/-- A lifecycle command is rejected with every unit and client memory as before, or runs its block while PROD and CONS
of its unit are idle (R109). -/
theorem exec_cfg_cases {i : Instr} {s t : State} (cfg : isData i = false) (h : exec i s = .next t) :
    (∃ code, t = (s.accept (encode i)).reject code)
      ∨ (unitOf i = s.turn.unit ∧ s.dataBusy (unitOf i) = false
          ∧ t = cfgBody i s.cur.latch (s.accept (encode i))) := by
  obtain ⟨-, h⟩ := exec_cfg_next cfg h
  unfold issueCfg at h
  split at h
  · cases h; exact .inl ⟨_, rfl⟩
  · rename_i accepted
    have own := unitOf_eq_of_wellFormed (commonCheck_none accepted)
    split at h
    · cases h; exact .inl ⟨_, rfl⟩
    · rename_i free; cases h
      exact .inr ⟨own, by rw [own]; simpa using free, rfl⟩

/-! ### Ports in order -/

/-- `portSound` as a statement: the code, and the command of a busy port. -/
theorem portSound_iff {q : PortId} {p : Port} : portSound q p = true ↔ p.code.toNat ≤ 9 ∧
    ∀ ops pos, p.act = .busy ops pos →
      ∃ i, decode p.cmd = .ok i ∧ i.wellFormedOn q = true ∧ posFits i pos = true := by
  unfold portSound
  rw [Bool.and_eq_true, decide_eq_true_iff]
  refine and_congr_right fun _ => ?_
  split
  · simp_all
  · split <;> simp_all

theorem codeNumber_le (c : Code) : (codeNumber c).toNat ≤ 9 := by cases c <;> decide

/-- A port that is idle with a code of R291 is in order. -/
theorem portSound_idle {q : PortId} {p : Port} (idle : p.act = .idle) (code : p.code.toNat ≤ 9) :
    portSound q p = true := portSound_iff.2 ⟨code, fun ops pos h => by rw [idle] at h; cases h⟩

/-- Whether a port is in order is seen in its code, its position and its CMD. -/
theorem portSound_congr {q : PortId} {p p' : Port} (act : p'.act = p.act) (cmd : p'.cmd = p.cmd)
    (code : p'.code = p.code) : portSound q p' = portSound q p := by
  unfold portSound; rw [act, cmd, code]

/-- A data command begins at a position of its own. -/
theorem posFits_start {i : Instr} (data : isData i = true) : posFits i .start = true := by
  cases i <;> first | rfl | cases data

theorem isData_of_posFits {i : Instr} {pos : Pos} (fits : posFits i pos = true) : isData i = true := by
  cases i <;> first | rfl | cases fits

/-- In a machine in order a busy port's CMD holds a command the port accepts, at whose position it stands. -/
theorem PositionInv.busy {s : State} (hs : PositionInv s) {q : PortId} {ops : Latch} {pos : Pos}
    (busy : (s.port q).act = .busy ops pos) :
    ∃ i, decode (s.port q).cmd = .ok i ∧ i.wellFormedOn q = true ∧ posFits i pos = true :=
  (portSound_iff.1 (hs q)).2 ops pos busy

theorem PositionInv.code {s : State} (hs : PositionInv s) (q : PortId) : (s.port q).code.toNat ≤ 9 :=
  (portSound_iff.1 (hs q)).1

/-- The issuing port is read at `turn`, which no step of a command moves. -/
theorem port_turn_of_exec {i : Instr} {s t : State} (h : exec i s = .next t) : t.port s.turn = t.cur := by
  rw [State.cur, (exec_elsewhere h).turn]

/-- A step of a command leaves its own port in order. -/
theorem exec_portSound {i : Instr} {s t : State} (hs : PositionInv s) (hr : Runs i s) (h : exec i s = .next t) :
    portSound s.turn t.cur = true := by
  have code : s.cur.code.toNat ≤ 9 := hs.code s.turn
  cases exec_portStep h with
  | same e => subst e; exact hs t.turn
  | done c act code_eq => exact portSound_idle act (by rw [code_eq]; exact codeNumber_le c)
  | issued idle wf data port =>
    refine portSound_iff.2 ⟨by rw [port]; exact code, fun ops pos busy => ?_⟩
    rw [port] at busy ⊢
    cases busy
    exact ⟨i, decode_encode i, wf, posFits_start data⟩
  | on ops pos pos' was fits port =>
    have word : decode s.cur.cmd = .ok i := hr.resolve_left (by rw [was]; exact nofun)
    obtain ⟨j, hj, wf, -⟩ := hs.busy was
    have e : j = i := Except.ok.inj (hj.symm.trans word)
    subst e
    refine portSound_iff.2 ⟨by rw [port]; exact code, fun ops' p busy => ?_⟩
    rw [port] at busy ⊢
    cases busy
    exact ⟨j, word, wf, fits⟩

theorem exec_keeps_positions {i : Instr} {s t : State} (hs : PositionInv s) (hr : Runs i s) (h : exec i s = .next t) :
    PositionInv t := fun q => by
  by_cases own : q = s.turn
  · rw [own, port_turn_of_exec h]; exact exec_portSound hs hr h
  · rw [(exec_elsewhere h).ports q own]; exact hs q

/-- Writing a port that is in order keeps every port in order. -/
theorem PositionInv.setPort {s : State} (hs : PositionInv s) {q : PortId} {p : Port} (hp : portSound q p = true) :
    PositionInv (s.setPort q p) := fun q' => by
  rw [port_setPort]
  split
  · rename_i e; rw [e]; exact hp
  · exact hs q'

theorem port_resetOn (p : Platform) (q : PortId) : (State.resetOn p).port q = Port.reset := by
  obtain ⟨u, r⟩ := q; cases u <;> cases r <;> rfl

theorem positionInv_resetOn (p : Platform) : PositionInv (State.resetOn p) := fun q => by
  rw [port_resetOn]; exact portSound_idle rfl (by decide)

/-- The reset input leaves every port as after reset. -/
theorem port_hardReset (s : State) (q : PortId) : (hardReset s).port q = Port.reset := port_resetOn s.plat q

theorem positions_keptByParts : KeptByParts PositionInv where
  model s xs q v hs := hs
  command i s t hs hr h := exec_keeps_positions hs hr h
  illegal s w hs := by
    simp only [State.reject, State.complete, State.completeWith, State.accept, setCur_setCur]
    exact hs.setPort (portSound_idle rfl (codeNumber_le _))
  operand s q r v hs := hs.setPort ((portSound_congr (write_act ..) (write_cmd ..) (write_code ..)).trans (hs q))
  write s a n v hs q := by rw [memWrite_port]; exact hs q
  reset s _ q := by rw [port_hardReset]; exact portSound_idle rfl (by decide)

/-! ### A fault of the machine is a fault of a port's turn -/

theorem writeCmd_ne_fault {q : PortId} {w : U32} {s : State} {r : Fault} : writeCmd q w s ≠ .fault r := by
  unfold writeCmd
  split
  · exact nofun
  · rename_i idle
    split
    · intro h
      obtain ⟨ops, pos, busy, -⟩ := exec_fault h
      have busy : (s.port q).act = .busy ops pos := busy
      rw [idle] at busy; cases busy
    · exact nofun

theorem clientStore_ne_fault {a : U64} {n : Width} {v : U64} {s : State} {r : Fault} :
    clientStore a n v s ≠ .fault r := by
  unfold clientStore
  split
  · split
    · exact writeCmd_ne_fault
    all_goals exact nofun
  · unfold clientStoreMemory; split <;> exact nofun

theorem clientLoad_ne_fault {a : U64} {n : Width} {s : State} {r : Fault} : clientLoad a n s ≠ .fault r := by
  unfold clientLoad
  split
  · split <;> exact nofun
  · split <;> exact nofun

theorem step_fault {s : State} {r : Fault} (h : step s = .fault r) :
    ∃ q xs, portTurn q { s with inputs := xs } = .fault r := by
  unfold step at h
  split at h
  · unfold runOn at h
    split at h
    · exact ⟨_, s.inputs, h⟩
    · cases h
  · rename_i x rest hi
    cases x with
    | turn q => exact ⟨q, rest, h⟩
    | store a n v => exact absurd h clientStore_ne_fault
    | load a n => exact absurd h clientLoad_ne_fault
    | reset => cases h

/-- A machine whose ports are in order takes no step into a fault. -/
theorem PositionInv.step_ne_fault {s : State} {r : Fault} (hs : PositionInv s) : step s ≠ .fault r := by
  intro h
  obtain ⟨q, xs, h⟩ := step_fault h
  obtain ⟨ops, pos, busy, bad⟩ := portTurn_fault h
  obtain ⟨i, word, -, fits⟩ := hs.busy (q := q) busy
  rcases bad with none | ⟨j, wordj, misfits⟩
  · exact none i word
  · have e : i = j := Except.ok.inj (word.symm.trans wordj)
    subst e
    rw [fits] at misfits; cases misfits

/-- Settles O56: `PositionInv` is kept by each part of a step, and a fault needs a busy port out of order. -/
theorem positionsKept : Obligations.PositionsKept :=
  ⟨fun _ _ hs h => positions_keptByParts.step hs h, fun _ _ hs => hs.step_ne_fault⟩

end Sys2Proof.Machine
end

section
/-! PROOFS for the statements of 10_state.md about what a step leaves alone (R20, R21), the issue step (R43), the register
blocks (R41 to R45) and reset (R55). -/

namespace Sys2Proof.Machine

/-! ### What a step leaves alone (R20, R21) -/

/-- Settles O13: each part of a step keeps the platform and takes the head of the schedule. -/
theorem parametersKept : Obligations.ParametersKept := by
  intro s t h
  cases step_does h with
  | idle h | load v h | reset h => subst h; exact ⟨rfl, rfl⟩
  | issue q i free run => exact ⟨(exec_elsewhere run).plat, (exec_elsewhere run).inputs⟩
  | turn q i ops pos busy word run => exact ⟨(exec_elsewhere run).plat, (exec_elsewhere run).inputs⟩
  | illegal q w free word h => cases h; simp
  | operand q r v notCmd h => subst h; simp
  | write a n v h => subst h; simp

/-- A write of client bytes outside the window leaves unit B alone. -/
theorem memWrite_b (s : State) (a : U64) (n v : Nat) (h : s.outsideWindow a n) : (s.memWrite a n v).b = s.b := by
  induction n with
  | zero => rfl
  | succ n ih =>
    have last : (s.memWrite a n v).windowOffset (a + BitVec.ofNat 64 n) = none := by
      rw [memWrite_windowOffset]; exact h n (Nat.lt_succ_self n)
    rw [memWrite_succ, setClientByte_b _ _ _ last]
    exact ih fun i hi => h i (Nat.lt_succ_of_lt hi)

theorem setClientByte_b_of_outside (s : State) (a : U64) (v : Byte) (h : s.outsideWindow a 1) :
    (s.setClientByte a v).b = s.b :=
  setClientByte_b s a v (by simpa using h 0 Nat.zero_lt_one)

section Frames
variable {i : Instr} {s t : State}

/-- A command of another unit leaves unit F alone. -/
theorem exec_f_of_foreign (h : exec i s = .next t) (foreign : unitOf i ≠ .f) : t.f = s.f := by
  rcases exec_stepped h with rfl | ⟨u, p, hc, rfl⟩
  · rfl
  · rw [setCur_f]
    cases hc with
    | none | unitB | unitT => rfl
    | client => exact setClientByte_f _ _ _
    | report => exact memWrite_f _ _ _ _
    | unitF u own => exact absurd own foreign

/-- A command of another unit leaves unit T alone. -/
theorem exec_t_of_foreign (h : exec i s = .next t) (foreign : unitOf i ≠ .t) : t.t = s.t := by
  rcases exec_stepped h with rfl | ⟨u, p, hc, rfl⟩
  · rfl
  · rw [setCur_t]
    cases hc with
    | none | unitB | unitF => rfl
    | client => exact setClientByte_t _ _ _
    | report => exact memWrite_t _ _ _ _
    | unitT u own => exact absurd own foreign

theorem unitB_eq_of_control {u u' : UnitB} (cap : u'.cap = u.cap) (mask : u'.mask = u.mask) (rpos : u'.rpos = u.rpos)
    (wpos : u'.wpos = u.wpos) (gen : u'.gen = u.gen) : u' = { u with st := u'.st } := by
  cases u; cases u'; simp_all

/-- A command of another unit leaves the control fields of unit B alone. -/
theorem exec_b_of_foreign (h : exec i s = .next t) (foreign : unitOf i ≠ .b) : t.b = { s.b with st := t.b.st } := by
  rcases exec_stepped h with rfl | ⟨u, p, hc, rfl⟩
  · rfl
  · rw [setCur_b]
    cases hc with
    | none | unitF | unitT => rfl
    | client | report => exact unitB_eq_of_control (by simp) (by simp) (by simp) (by simp) (by simp)
    | unitB u own => exact absurd own foreign

/-- A command of another unit none of whose client bytes lies in the window leaves unit B alone as a whole. -/
theorem exec_b_of_outside (h : exec i s = .next t) (foreign : unitOf i ≠ .b)
    (outside : ∀ ops pos a n, s.cur.act = .busy ops pos → stepAccess i s ops pos = some (a, n) → s.outsideWindow a n) :
    t.b = s.b := by
  rcases exec_stepped h with rfl | ⟨u, p, hc, rfl⟩
  · rfl
  · rw [setCur_b]
    cases hc with
    | none | unitF | unitT => rfl
    | client ops pos a v was access => exact setClientByte_b_of_outside s a v (outside ops pos a 1 was access)
    | report ops pos a v was access => exact memWrite_b s a 8 v (outside ops pos a 8 was access)
    | unitB u own => exact absurd own foreign

end Frames

/-- Settles O14: of the changes a step can make, only a client byte in the window reaches another unit. -/
theorem unitIndependence : Obligations.UnitIndependence := fun _ _ _ h =>
  ⟨exec_f_of_foreign h, exec_t_of_foreign h, exec_b_of_foreign h, exec_b_of_outside h, (exec_elsewhere h).ports⟩

/-! ### Issue (R43) -/

theorem elsewhere_sameUnits_goto_accept (s : State) (w : U32) (l : Latch) (x : Pos) :
    SameElsewhere s ((s.accept w).goto l x) ∧ SameUnits s ((s.accept w).goto l x) :=
  ⟨(elsewhere_accept s w).trans (elsewhere_goto _ l x), by simp, by simp, by simp, by simp,
    fun a => clientByte_congr (by simp) (by simp) (by simp) a⟩

/-- Settles O16: the issue step accepts the word, latches the operands and stands before the first block. -/
theorem dataIssue : Obligations.DataIssue := by
  intro i s data wf idle
  obtain ⟨elsewhere, units⟩ := elsewhere_sameUnits_goto_accept s (encode i) s.cur.latch .start
  refine ⟨_, ?_, elsewhere, units, by simp [Port.latch]⟩
  rw [exec_data_idle data idle, issueData, commonCheck_of_wellFormed wf]

/-! ### The step and the command (R43, R50, R80) -/

theorem portTurn_busy {q : PortId} {s : State} {i : Instr} {ops : Latch} {pos : Pos}
    (busy : (s.port q).act = .busy ops pos) (word : decode (s.port q).cmd = .ok i) :
    portTurn q s = exec i { s with turn := q } := by
  simp only [portTurn, busy, word]

theorem writeCmd_idle {q : PortId} {s : State} {w : U32} {i : Instr} (idle : (s.port q).act = .idle)
    (word : decode w = .ok i) : writeCmd q w s = exec i { s with turn := q } := by
  simp only [writeCmd, idle, word]

theorem writeCmd_busy {q : PortId} {s : State} {w : U32} {ops : Latch} {pos : Pos}
    (busy : (s.port q).act = .busy ops pos) : writeCmd q w s = .next s := by
  simp only [writeCmd, busy]

theorem nextBusy_busy {s : State} {q : PortId} (h : nextBusy s = some q) :
    ∃ ops pos, (s.port q).act = .busy ops pos := by
  unfold nextBusy at h
  have busy := List.find?_some h
  simp only [Port.busy] at busy
  split at busy
  · cases busy
  · exact ⟨_, _, ‹_›⟩

theorem step_of_input {s : State} {x : Input} {rest : List Input} (h : s.inputs = x :: rest) :
    step s = runInput x { s with inputs := rest } := by simp only [step, h]

/-- A client's store to a register block does what `blockStore` says of its offset. -/
theorem step_store {s : State} {a v : U64} {n : Width} {rest : List Input} {q : PortId} {off : Nat}
    (h : s.inputs = .store a n v :: rest) (addr : target s.plat a = .block q off) :
    step s = match blockStore off n v with
      | .issue w => writeCmd q w { s with inputs := rest }
      | .write r => .next (State.setPort { s with inputs := rest } q ((s.port q).write r v))
      | .ignored => .next { s with inputs := rest }
      | .shape => .refused .portAccessShape := by
  simp only [step_of_input h, runInput, clientStore, addr]
  rfl

/-- A 32-bit store at offset 0 writes CMD (R43). -/
theorem blockStore_cmd (v : U64) : blockStore 0 .w32 v = .issue (v.truncate 32) := rfl

/-- Settles O5: each of the three ways to run a command leads to `exec`. -/
theorem stepRunsTheCommand : Obligations.StepRunsTheCommand := by
  refine ⟨fun s a v rest q i hi addr idle word => ?_, fun s rest q i ops pos hi busy word => ?_,
    fun s q i hi next word => ?_⟩
  · rw [step_store hi addr, blockStore_cmd]
    exact writeCmd_idle (s := { s with inputs := rest }) idle word
  · rw [step_of_input hi]
    exact portTurn_busy (s := { s with inputs := rest }) busy word
  · obtain ⟨ops, pos, busy⟩ := nextBusy_busy next
    have run : step s = portTurn q s := by simp only [step, hi, runOn, next]
    rw [run, portTurn_busy busy word]

/-! ### Register blocks (R41, R76) -/

/-- A register covers its own offsets (R41). -/
theorem regAt_regOffset (r : Reg) {j : Nat} (h : j < regBytes r) : regAt (regOffset r + j) = r := by
  cases r <;> simp only [regBytes] at h <;> interval_cases j <;> rfl

theorem regAt_regOffset_self (r : Reg) : regAt (regOffset r) = r := regAt_regOffset r (j := 0) (by cases r <;> decide)

/-- The nine blocks are those of the nine ports. -/
theorem blocks_eq (p : Platform) :
    p.blocks = allPorts.map fun q => { base := (portBase p q).toNat, size := Config.blockBytes } := rfl

theorem mem_allPorts (q : PortId) : q ∈ allPorts := by
  obtain ⟨u, r⟩ := q; cases u <;> cases r <;> decide

theorem range_disjoint_iff {x y : Range} :
    Range.disjoint x y = true ↔ x.base + x.size ≤ y.base ∨ y.base + y.size ≤ x.base := by
  simp [Range.disjoint]

/-- On a platform in order every block lies in the address space. -/
theorem portBase_inSpace {p : Platform} (wf : p.wellFormed = true) (q : PortId) :
    (portBase p q).toNat + Config.blockBytes ≤ 2 ^ 64 := by
  simp only [Platform.wellFormed, Bool.and_eq_true, List.all_cons, blocks_eq, List.all_map, List.all_eq_true] at wf
  obtain ⟨⟨⟨-, space⟩, -⟩, -⟩ := wf
  exact of_decide_eq_true (space q (mem_allPorts q))

/-- The blocks of two ports do not meet. -/
def BlocksApart (p : Platform) (q q' : PortId) : Prop :=
  (portBase p q).toNat + Config.blockBytes ≤ (portBase p q').toNat
    ∨ (portBase p q').toNat + Config.blockBytes ≤ (portBase p q).toNat

/-- On a platform in order the blocks of two different ports do not meet. -/
theorem blocksApart_of_ne {p : Platform} (wf : p.wellFormed = true) {q q' : PortId} (h : q ≠ q') :
    BlocksApart p q q' := by
  simp only [Platform.wellFormed, Bool.and_eq_true, decide_eq_true_iff, List.pairwise_cons, blocks_eq,
    List.pairwise_map, range_disjoint_iff] at wf
  obtain ⟨⟨-, -, apart⟩, -⟩ := wf
  have apart : allPorts.Pairwise (BlocksApart p) := apart
  have : Std.Symm (BlocksApart p) := ⟨fun _ _ => Or.symm⟩
  exact apart.forall (mem_allPorts q) (mem_allPorts q') h

/-- The distance from a block's base to an address of the address space, as numbers. -/
theorem sub_base_lt_iff {a b : U64} (h : b.toNat + Config.blockBytes ≤ 2 ^ 64) :
    (a - b).toNat < Config.blockBytes ↔ b.toNat ≤ a.toNat ∧ a.toNat < b.toNat + Config.blockBytes := by
  simp only [Config.blockBytes] at *
  bv_omega

/-- A client address inside a port's block names that port and the byte of its block (R41, R76). -/
theorem target_block {p : Platform} (wf : p.wellFormed = true) (q : PortId) {off : Nat} (h : off < Config.blockBytes) :
    target p (portBase p q + BitVec.ofNat 64 off) = .block q off := by
  have space := portBase_inSpace wf
  have diff : (portBase p q + BitVec.ofNat 64 off - portBase p q).toNat = off := by
    simp only [Config.blockBytes] at h; bv_omega
  have base : (portBase p q + BitVec.ofNat 64 off).toNat = (portBase p q).toNat + off := by
    have := space q
    simp only [Config.blockBytes] at h this; bv_omega
  have found : blockAt p (portBase p q + BitVec.ofNat 64 off) = some q := by
    unfold blockAt
    cases hf : allPorts.find? _ with
    | none =>
      have := List.find?_eq_none.1 hf q (mem_allPorts q)
      rw [diff] at this; simp [h] at this
    | some q' =>
      have inBlock := List.find?_some hf
      rw [decide_eq_true_iff, sub_base_lt_iff (space q'), base] at inBlock
      by_contra ne
      rcases blocksApart_of_ne wf (q := q') (q' := q) fun e => ne (congrArg some e) with apart | apart <;> omega
  simp only [target, found, diff]

/-- The port a command's word is put to accepts it (R104). -/
theorem wellFormedOn_portFor (i : Instr) : i.wellFormedOn (portFor i) = true := by cases i <;> rfl

/-- Placing a word makes the port idle and puts the store to its CMD first. -/
theorem withFetchWord_eq {s : State} {w : U32} {i : Instr} (word : decode w = .ok i) :
    s.withFetchWord 32 w.toNat =
      { s.setPort (portFor i) { s.port (portFor i) with act := .idle } with
        inputs := .store (portBase s.plat (portFor i)) .w32 (w.zeroExtend 64) :: s.inputs } := by
  have e : BitVec.ofNat 32 (w.toNat % 2 ^ 32) = w := by
    rw [Nat.mod_eq_of_lt w.isLt, BitVec.ofNat_toNat, BitVec.setWidth_eq]
  simp only [State.withFetchWord, e, placeCommand, portForWord, word]

theorem truncate_zeroExtend (w : U32) : (w.zeroExtend 64).truncate 32 = w := by
  simp [BitVec.truncate, BitVec.zeroExtend]

/-- The step after placing a word issues it on the port made idle (log 3). -/
theorem step_withFetchWord {s : State} {w : U32} {i : Instr} (wf : s.plat.wellFormed = true) (word : decode w = .ok i) :
    step (s.withFetchWord 32 w.toNat) =
      exec i { s.setPort (portFor i) { s.port (portFor i) with act := .idle } with turn := portFor i } := by
  have here : target s.plat (portBase s.plat (portFor i)) = .block (portFor i) 0 := by
    simpa using target_block wf (portFor i) (off := 0) (by decide)
  have run := stepRunsTheCommand.1 (s.withFetchWord 32 w.toNat) (portBase s.plat (portFor i)) (w.zeroExtend 64) s.inputs
    (portFor i) i (by rw [withFetchWord_eq word]) (by rw [withFetchWord_eq word]; simpa using here)
    (by rw [withFetchWord_eq word]; exact congrArg Port.act (port_setPort_same ..))
    (by rw [truncate_zeroExtend]; exact word)
  rw [run, withFetchWord_eq word]
  congr 1
  rw [← setPort_inputs s (portFor i) { s.port (portFor i) with act := .idle }]

/-- Settles O6: blocks that do not meet, offsets that a register covers, and the placed word. -/
theorem registerBlocks : Obligations.RegisterBlocks :=
  ⟨fun _ q _ wf h => target_block wf q h, fun r _ h => regAt_regOffset r h,
    fun _ _ i wf word => ⟨wellFormedOn_portFor i, step_withFetchWord wf word⟩⟩

/-! ### Client accesses of registers (R41 to R44, R48) -/

section BlockStore
variable {r : Reg} {n : Width} {v : U64}

/-- A store of a whole operand register writes it (R42). -/
theorem blockStore_operand (whole : widthBytes n = regBytes r) (writable : regWritable r = true) (ne : r ≠ .cmd) :
    blockStore (regOffset r) n v = .write r := by
  simp [blockStore, regAt_regOffset_self, whole, writable, ne]

/-- A store inside a read-only register is ignored (R41). -/
theorem blockStore_readOnly (inside : widthBytes n ≤ regBytes r) (readOnly : regWritable r = false) :
    blockStore (regOffset r) n v = .ignored := by
  simp [blockStore, regAt_regOffset_self, inside, readOnly]

/-- A 32-bit store to CMD is a command (R43). -/
theorem blockStore_issue (whole : widthBytes n = 4) : blockStore (regOffset .cmd) n v = .issue (v.truncate 32) := by
  cases n with
  | w32 => rfl
  | w8 | w16 | w64 => cases whole

/-- A narrower store to CMD is ignored (R43). -/
theorem blockStore_narrow (narrow : widthBytes n < 4) : blockStore (regOffset .cmd) n v = .ignored := by
  cases n with
  | w8 | w16 => rfl
  | w32 | w64 => exact absurd narrow (by decide)

end BlockStore

/-- A load of a whole register returns it (R48). -/
theorem step_load {s : State} {a : U64} {n : Width} {rest : List Input} {q : PortId} {r : Reg}
    (h : s.inputs = .load a n :: rest) (addr : target s.plat a = .block q (regOffset r))
    (whole : widthBytes n = regBytes r) :
    step s = .next { s with inputs := rest, loaded := (s.port q).read r } := by
  simp only [step_of_input h, runInput, clientLoad, addr, regAt_regOffset_self, whole, and_self, if_true]
  rfl

/-- A store of a whole operand register writes that port's register and nothing else (R42, R44). -/
theorem step_operand {s : State} {a v : U64} {n : Width} {rest : List Input} {q : PortId} {r : Reg}
    (h : s.inputs = .store a n v :: rest) (addr : target s.plat a = .block q (regOffset r))
    (whole : widthBytes n = regBytes r) (writable : regWritable r = true) (ne : r ≠ .cmd) :
    ∃ t, step s = .next t ∧ SameUnits s t ∧ t.port q = (s.port q).write r v ∧ ∀ q', q' ≠ q → t.port q' = s.port q' := by
  refine ⟨_, by rw [step_store h addr, blockStore_operand whole writable ne], ⟨by simp, by simp, by simp, by simp, ?_⟩,
    by simp, fun q' hq' => by rw [port_setPort_ne _ _ hq', port_with_inputs]⟩
  exact fun x => clientByte_congr (by simp) (by simp) (by simp) x

/-- Settles O7: each access is an entry of `blockStore`'s table at the register's own offset. -/
theorem clientRegisterAccess : Obligations.ClientRegisterAccess := by
  intro s a rest q r n addr
  refine ⟨fun whole h => step_load h addr whole, ?_, ?_, ?_, ?_, ?_, ?_⟩
  · rintro v whole h rfl; exact step_operand h addr whole rfl nofun
  · rintro v whole h rfl; exact step_operand h addr whole rfl nofun
  · rintro v whole h rfl; exact step_operand h addr whole rfl nofun
  · intro v inside h readOnly; rw [step_store h addr, blockStore_readOnly inside readOnly]
  · rintro v ops pos whole h rfl busy
    rw [step_store h addr, blockStore_issue whole]
    exact writeCmd_busy (s := { s with inputs := rest }) busy
  · rintro v narrow h rfl; rw [step_store h addr, blockStore_narrow narrow]

/-! ### STATUS (R45) -/

theorem status_code (p : Port) : p.status.extractLsb' 0 8 = p.code := by
  ext k hk
  have low : (0x80000000#32).getLsbD k = false := by interval_cases k <;> rfl
  cases hb : p.busy <;> simp [Port.status, hb, low, hk] <;> omega

theorem status_reserved (p : Port) : p.status.extractLsb' 8 23 = 0 := by
  ext k hk
  have low : (0x80000000#32).getLsbD (8 + k) = false := by interval_cases k <;> rfl
  cases hb : p.busy <;> simp [Port.status, hb, low]

theorem status_busy (p : Port) : p.status.getLsbD 31 = p.busy := by
  cases hb : p.busy <;> simp [Port.status, hb]

theorem busy_iff (p : Port) : p.busy = true ↔ p.act ≠ .idle := by
  unfold Port.busy; split <;> simp_all

/-- Settles O8: the bits of STATUS, and `exec_portStep` for what a step leaves of CODE. -/
theorem statusRegister : Obligations.StatusRegister := by
  refine ⟨fun p => ⟨status_code p, status_reserved p, by rw [status_busy]; exact busy_iff p⟩, fun i s t h => ?_⟩
  cases exec_portStep h with
  | same e => subst e; exact ⟨fun _ => rfl, fun idle busy => absurd idle busy⟩
  | done c act code_eq => exact ⟨fun busy => absurd act busy, fun _ busy => absurd act busy⟩
  | issued idle wf data port => exact ⟨fun _ => by rw [port], fun _ _ => data⟩
  | on ops pos pos' was fits port =>
    exact ⟨fun _ => by rw [port], fun idle => by rw [was] at idle; cases idle⟩

/-! ### Reset (R55) -/

/-- Settles O9: every port after reset is `Port.reset`, every slot `Slot.reset`. -/
theorem resetState : Obligations.ResetState := by
  refine ⟨rfl, rfl, rfl, rfl, rfl, rfl, rfl, rfl, fun i => ?_, fun q => ?_⟩
  · simp [State.reset, State.resetOn, UnitT.reset, Slot.reset]
  · rw [State.reset, port_resetOn]
    exact ⟨rfl, rfl, fun r => by cases r <;> rfl⟩

end Sys2Proof.Machine
end

section
/-! PROOFS for O57: the data model's invariants (R22 to R32, R62) are kept by every operation a step is made of, and by
every step of every command. -/

namespace Sys2Proof.Machine

/-! ### Masked cursors and capacities (R130, R131, R135) -/

/-- A masked advance stays below the capacity. -/
theorem adv_le_mask (mask p n : U32) : (adv mask p n).toNat ≤ mask.toNat := by
  rw [adv, BitVec.toNat_and]; exact Nat.and_le_right

/-- Doubling from a power of two gives a power of two, at most `fuel` doublings later. -/
theorem pow2From_eq (n k fuel : Nat) : ∃ m, k ≤ m ∧ m ≤ k + fuel ∧ pow2From n (2 ^ (k + 1)) fuel = 2 ^ (m + 1) := by
  induction fuel generalizing k with
  | zero => exact ⟨k, Nat.le_refl _, Nat.le_refl _, rfl⟩
  | succ fuel ih =>
    simp only [pow2From]
    split
    · exact ⟨k, Nat.le_refl _, by omega, rfl⟩
    · obtain ⟨m, lo, hi, e⟩ := ih (k + 1)
      exact ⟨m, by omega, by omega, by rw [← e, Nat.pow_succ' (n := k + 1)]⟩

/-- `pow2ceil` answers one of 2, 4, …, `2^31` (R130). -/
theorem pow2ceil_eq (n : Nat) : ∃ m, m < 31 ∧ pow2ceil n = 2 ^ (m + 1) := by
  obtain ⟨m, -, hi, e⟩ := pow2From_eq n 0 30
  exact ⟨m, by omega, e⟩

theorem pow2ceil_toNat (n : Nat) : (BitVec.ofNat 32 (pow2ceil n)).toNat = pow2ceil n := by
  obtain ⟨m, hm, e⟩ := pow2ceil_eq n
  rw [BitVec.toNat_ofNat, e]
  exact Nat.mod_eq_of_lt (Nat.pow_lt_pow_right (by decide) (by omega))

theorem isCapacity_pow2ceil (n : Nat) : isCapacity (BitVec.ofNat 32 (pow2ceil n)) = true := by
  obtain ⟨m, hm, e⟩ := pow2ceil_eq n
  rw [isCapacity, List.any_eq_true]
  exact ⟨m, List.mem_range.2 hm, by rw [pow2ceil_toNat, e, decide_eq_true_iff]⟩

theorem isCapacity_ne_zero {c : U32} (h : isCapacity c = true) : c ≠ 0 := by
  rintro rfl; revert h; decide

/-! ### Unit B in order (R22 to R26) -/

/-- What `UnitB.sound` asks of an allocated unit. -/
structure UnitB.InOrder (store : Nat) (u : UnitB) : Prop where
  cap : isCapacity u.cap = true
  pool : u.cap.toNat ≤ store
  mask : u.mask = u.cap - 1
  rpos : u.rpos.toNat ≤ u.mask.toNat
  wpos : u.wpos.toNat ≤ u.mask.toNat
  wf : Memory.wf u.st = true
  below : Memory.below u.st u.cap.toNat = true

theorem UnitB.sound_iff {store : Nat} {u : UnitB} :
    u.sound store = true ↔ u = UnitB.reset u.gen ∨ u.InOrder store := by
  unfold UnitB.sound
  split
  · rename_i free
    rw [decide_eq_true_iff]
    exact ⟨.inl, fun h => h.resolve_right fun h => isCapacity_ne_zero h.cap free⟩
  · rename_i used
    simp only [Bool.and_eq_true, decide_eq_true_iff]
    constructor
    · rintro ⟨⟨⟨⟨⟨⟨cap, pool⟩, mask⟩, rpos⟩, wpos⟩, wf⟩, below⟩
      exact .inr ⟨cap, pool, mask, rpos, wpos, wf, below⟩
    · intro h
      obtain ⟨cap, pool, mask, rpos, wpos, wf, below⟩ := h.resolve_left fun e => used (by rw [e]; rfl)
      exact ⟨⟨⟨⟨⟨⟨cap, pool⟩, mask⟩, rpos⟩, wpos⟩, wf⟩, below⟩

section UnitB
variable {store : Nat} {u : UnitB}

theorem UnitB.inOrder_of_sound (h : u.sound store = true) (used : u.cap ≠ 0) : u.InOrder store :=
  (UnitB.sound_iff.1 h).resolve_left fun e => used (by rw [e]; rfl)

theorem UnitB.sound_reset (store gen : Nat) : (UnitB.reset gen).sound store = true := UnitB.sound_iff.2 (.inl rfl)

theorem UnitB.sound_setByte (h : u.sound store = true) {i : Nat} (hi : i < u.cap.toNat) (v : Byte) :
    (u.setByte i v).sound store = true :=
  have k := UnitB.inOrder_of_sound h (by rintro e; rw [e] at hi; exact absurd hi (Nat.not_lt_zero i))
  UnitB.sound_iff.2 (.inr { k with wf := memPut_wf _ _ k.wf, below := memPut_below _ k.below hi })

theorem UnitB.sound_with_rpos (h : u.sound store = true) (used : u.cap ≠ 0) (p n : U32) :
    UnitB.sound store { u with rpos := adv u.mask p n } = true :=
  UnitB.sound_iff.2 (.inr { UnitB.inOrder_of_sound h used with rpos := adv_le_mask _ _ _ })

theorem UnitB.sound_with_wpos (h : u.sound store = true) (used : u.cap ≠ 0) (p n : U32) :
    UnitB.sound store { u with wpos := adv u.mask p n } = true :=
  UnitB.sound_iff.2 (.inr { UnitB.inOrder_of_sound h used with wpos := adv_le_mask _ _ _ })

/-- RESET.B's block keeps the unit in order (R162). -/
theorem UnitB.sound_cursors_zero (h : u.sound store = true) :
    UnitB.sound store { u with rpos := 0, wpos := 0 } = true := by
  rcases UnitB.sound_iff.1 h with e | k
  · rw [e]; exact UnitB.sound_reset store u.gen
  · exact UnitB.sound_iff.2 (.inr { k with rpos := Nat.zero_le _, wpos := Nat.zero_le _ })

/-- A successful ALLOC.B leaves the unit in order (R160). -/
theorem UnitB.sound_allocated (u : UnitB) {n : Nat} (fits : pow2ceil n ≤ store) :
    (u.allocated (pow2ceil n)).sound store = true :=
  UnitB.sound_iff.2 (.inr {
    cap := isCapacity_pow2ceil n
    pool := by rw [UnitB.allocated, pow2ceil_toNat]; exact fits
    mask := rfl
    rpos := Nat.zero_le _
    wpos := Nat.zero_le _
    wf := rfl
    below := rfl })

end UnitB

/-! ### The storage of units F and T in order (R27 to R32, R62) -/

/-- What `FrameStore.sound` asks of an allocated unit. -/
structure FrameStore.InOrder (store : Nat) (fs : FrameStore) : Prop where
  cap : isCapacity fs.cap = true
  mask : fs.mask = fs.cap - 1
  ch : 1 ≤ fs.ch.toNat
  bpf : 1 ≤ fs.bpf.toNat
  pool : frameAllocSize fs.cap.toNat fs.ch.toNat fs.bpf.toNat ≤ store
  canonical : Memory.canonical fs.st = true
  below : Memory.below fs.st (frameAllocSize fs.cap.toNat fs.ch.toNat fs.bpf.toNat) = true

theorem FrameStore.sound_iff {store : Nat} {fs : FrameStore} :
    fs.sound store = true ↔ fs = FrameStore.reset ∨ fs.InOrder store := by
  unfold FrameStore.sound
  split
  · rename_i free
    rw [decide_eq_true_iff]
    exact ⟨.inl, fun h => h.resolve_right fun h => isCapacity_ne_zero h.cap free⟩
  · rename_i used
    simp only [Bool.and_eq_true, decide_eq_true_iff]
    constructor
    · rintro ⟨⟨⟨⟨⟨⟨cap, mask⟩, ch⟩, bpf⟩, pool⟩, canonical⟩, below⟩
      exact .inr ⟨cap, mask, ch, bpf, pool, canonical, below⟩
    · intro h
      obtain ⟨cap, mask, ch, bpf, pool, canonical, below⟩ := h.resolve_left fun e => used (by rw [e]; rfl)
      exact ⟨⟨⟨⟨⟨⟨cap, mask⟩, ch⟩, bpf⟩, pool⟩, canonical⟩, below⟩

/-- The offset of any byte of a channel lies inside the allocation (R62, R63). -/
theorem FrameStore.offset_lt {fs : FrameStore} (cap : fs.cap ≠ 0) (bpf : 1 ≤ fs.bpf.toNat) {c : Nat}
    (hc : c < fs.ch.toNat) (p : U32) (i : Nat) :
    fs.offset c p i < frameAllocSize fs.cap.toNat fs.ch.toNat fs.bpf.toNat := by
  have capPos : 0 < fs.cap.toNat := by
    rw [Nat.pos_iff_ne_zero]; exact fun e => cap (BitVec.eq_of_toNat_eq e)
  have inRegion := Nat.mod_lt (p.toNat * fs.bpf.toNat + i) (Nat.mul_pos capPos bpf)
  have regions : (c + 1) * (fs.cap.toNat * fs.bpf.toNat) ≤ fs.ch.toNat * (fs.cap.toNat * fs.bpf.toNat) :=
    Nat.mul_le_mul_right _ hc
  simp only [FrameStore.offset, regionBase, ringOffset, frameAllocSize]
  calc Config.ptrBytes * fs.ch.toNat + c * fs.cap.toNat * fs.bpf.toNat
        + (p.toNat * fs.bpf.toNat + i) % (fs.cap.toNat * fs.bpf.toNat)
      < Config.ptrBytes * fs.ch.toNat + c * fs.cap.toNat * fs.bpf.toNat + fs.cap.toNat * fs.bpf.toNat := by omega
    _ = Config.ptrBytes * fs.ch.toNat + (c + 1) * (fs.cap.toNat * fs.bpf.toNat) := by ring
    _ ≤ Config.ptrBytes * fs.ch.toNat + fs.ch.toNat * (fs.cap.toNat * fs.bpf.toNat) := by omega
    _ = (fs.cap.toNat * fs.bpf.toNat + Config.ptrBytes) * fs.ch.toNat := by ring

section FrameStore
variable {store : Nat} {fs : FrameStore}

theorem FrameStore.inOrder_of_sound (h : fs.sound store = true) (used : fs.cap ≠ 0) : fs.InOrder store :=
  (FrameStore.sound_iff.1 h).resolve_left fun e => used (by rw [e]; rfl)

theorem FrameStore.sound_reset (store : Nat) : FrameStore.reset.sound store = true := FrameStore.sound_iff.2 (.inl rfl)

theorem FrameStore.sound_setByte (h : fs.sound store = true) (used : fs.cap ≠ 0) {c : Nat} (hc : c < fs.ch.toNat)
    (p : U32) (i : Nat) (v : Byte) : (fs.setByte (fs.offset c p i) v).sound store = true :=
  have k := FrameStore.inOrder_of_sound h used
  FrameStore.sound_iff.2 (.inr { k with
    canonical := zeroPut_canonical _ _ k.canonical
    below := zeroPut_below _ k.below (FrameStore.offset_lt used k.bpf hc p i) })

/-- ALLOC.F and ALLOC.T hand out a storage in order (R210, R247). -/
theorem allocFrames_sound {ops : Latch} (h : allocFrames store ops = .ok fs) : fs.sound store = true := by
  unfold allocFrames at h
  split at h
  · rename_i accepted
    split at h
    · rename_i fits
      cases h
      simp only [Bool.and_eq_true, Latch.fmtOk, decide_eq_true_iff] at accepted
      obtain ⟨⟨⟨-, ch⟩, bpf⟩, -⟩ := accepted
      refine FrameStore.sound_iff.2 (.inr ?_)
      have size : Config.ptrBytes * ops.fmtCh.toNat
          ≤ frameAllocSize (pow2ceil ops.count.toNat) ops.fmtCh.toNat ops.fmtBpf.toNat :=
        Nat.mul_le_mul_right _ (Nat.le_add_left _ _)
      refine { cap := isCapacity_pow2ceil _, mask := rfl, ch := ch, bpf := bpf, pool := ?_,
               canonical := pointerTable_canonical _ _ _, below := ?_ }
      · simpa only [pow2ceil_toNat] using fits
      · simp only [pow2ceil_toNat, Memory.below_iff]
        exact fun c hc => Nat.lt_of_lt_of_le ((Memory.below_iff _ _).1 (pointerTable_below _ _ _) c hc) size
    · cases h
  · cases h

end FrameStore

theorem UnitF.sound_iff {store : Nat} {u : UnitF} : u.sound store = true ↔
    u.fs.sound store = true ∧ u.rptr.toNat ≤ u.fs.mask.toNat ∧ u.wptr.toNat ≤ u.fs.mask.toNat := by
  simp [UnitF.sound, and_assoc]

theorem UnitF.sound_reset (store : Nat) : UnitF.reset.sound store = true :=
  UnitF.sound_iff.2 ⟨FrameStore.sound_reset store, Nat.le_refl _, Nat.le_refl _⟩

/-! ### The units and memories in order -/

/-- The storage invariant reads the platform, the units and client memory only. -/
theorem StorageInv.congr {s t : State} (h : StorageInv s) (plat : t.plat = s.plat) (b : t.b = s.b) (f : t.f = s.f)
    (tt : t.t = s.t) (cm : t.cm = s.cm) : StorageInv t :=
  ⟨by rw [plat, b]; exact h.b, by rw [plat, f]; exact h.f, by rw [plat, tt]; exact h.t, by rw [cm]; exact h.cm⟩

section Storage
variable {s : State}

theorem StorageInv.setPort (h : StorageInv s) (q : PortId) (p : Port) : StorageInv (s.setPort q p) :=
  h.congr (by simp) (by simp) (by simp) (by simp) (by simp)

theorem StorageInv.setCur (h : StorageInv s) (p : Port) : StorageInv (s.setCur p) := h.setPort _ p

theorem StorageInv.with_b (h : StorageInv s) {u : UnitB} (hu : u.sound s.plat.storeB = true) :
    StorageInv { s with b := u } := ⟨hu, h.f, h.t, h.cm⟩

theorem StorageInv.with_f (h : StorageInv s) {u : UnitF} (hu : u.sound s.plat.storeF = true) :
    StorageInv { s with f := u } := ⟨h.b, hu, h.t, h.cm⟩

theorem StorageInv.with_t (h : StorageInv s) {u : UnitT} (hu : u.fs.sound s.plat.storeT = true) :
    StorageInv { s with t := u } := ⟨h.b, h.f, hu, h.cm⟩

theorem windowOffset_lt_cap {a : U64} {i : Nat} (h : s.windowOffset a = some i) : i < s.b.cap.toNat := by
  simp only [State.windowOffset] at h
  split at h
  · cases h; assumption
  · cases h

/-- A client byte lands in client memory or inside the storage the window shows (R66). -/
theorem StorageInv.setClientByte (h : StorageInv s) (a : U64) (v : Byte) : StorageInv (s.setClientByte a v) := by
  unfold State.setClientByte
  split
  · rename_i i inWindow
    exact h.with_b (UnitB.sound_setByte h.b (windowOffset_lt_cap inWindow) v)
  · exact ⟨h.b, h.f, h.t, zeroPut_canonical _ _ h.cm⟩

theorem StorageInv.memWrite (h : StorageInv s) (a : U64) (n v : Nat) : StorageInv (s.memWrite a n v) := by
  induction n with
  | zero => exact h
  | succ n ih => rw [memWrite_succ]; exact ih.setClientByte _ _

end Storage

theorem storageInv_resetOn (p : Platform) : StorageInv (State.resetOn p) :=
  ⟨UnitB.sound_reset _ 0, UnitF.sound_reset _, FrameStore.sound_reset _, rfl⟩

/-- The block of every lifecycle command leaves the units in order (R160 to R162, R210 to R212, R247 to R249). -/
theorem StorageInv.cfgBody {s : State} (h : StorageInv s) (i : Instr) (l : Latch) : StorageInv (cfgBody i l s) := by
  cases i with
  | allocB =>
    simp only [Machine.cfgBody, allocBBody]
    split
    · split
      · rename_i fits; exact (h.with_b (UnitB.sound_allocated _ fits)).setCur _
      · exact (h.with_b (UnitB.sound_reset _ s.b.gen)).setCur _
    · exact (h.with_b (UnitB.sound_reset _ s.b.gen)).setCur _
  | deallocB => exact (h.with_b (UnitB.sound_reset _ s.b.gen)).setCur _
  | resetB => exact (h.with_b (UnitB.sound_cursors_zero h.b)).setCur _
  | allocF =>
    simp only [Machine.cfgBody, allocFBody]
    split
    · rename_i fs granted
      exact (h.with_f (UnitF.sound_iff.2 ⟨allocFrames_sound granted, Nat.zero_le _, Nat.zero_le _⟩)).setCur _
    · exact (h.with_f (UnitF.sound_reset _)).setCur _
  | deallocF => exact (h.with_f (UnitF.sound_reset _)).setCur _
  | resetF =>
    have zero : UnitF.sound s.plat.storeF { s.f with rptr := 0, wptr := 0 } = true :=
      UnitF.sound_iff.2 ⟨(UnitF.sound_iff.1 h.f).1, Nat.zero_le _, Nat.zero_le _⟩
    exact (h.with_f zero).setCur _
  | allocT =>
    simp only [Machine.cfgBody, allocTBody]
    split
    · rename_i fs granted; exact (h.with_t (allocFrames_sound granted)).setCur _
    · exact (h.with_t (FrameStore.sound_reset _)).setCur _
  | deallocT => exact (h.with_t (FrameStore.sound_reset _)).setCur _
  | resetT => exact (h.with_t (u := { UnitT.reset with fs := s.t.fs }) h.t).setCur _
  | _ => exact h

/-! ### Positions in range -/

/-- The range of a position of a command depends on the capacity and the channels of the command's unit only. -/
theorem posInRange_congr {i : Instr} {s t : State} {pos : Pos} (fits : posFits i pos = true)
    (cap : t.unitCap (unitOf i) = s.unitCap (unitOf i))
    (ch : t.unitChannels (unitOf i) = s.unitChannels (unitOf i)) :
    posInRange t (unitOf i) pos = posInRange s (unitOf i) pos := by
  cases pos with
  | start => rfl
  | move p k es c j =>
    have unit : unitOf i = .f := by cases i <;> first | rfl | cases fits
    rw [unit] at cap ch ⊢
    have ch : t.f.fs.ch = s.f.fs.ch := ch
    simp only [posInRange, cap, ch]
  | gap es cs ce c j | fill es cs c j | out es w c j =>
    have unit : unitOf i = .t := by cases i <;> first | rfl | cases fits
    rw [unit] at cap ch ⊢
    have ch : t.t.fs.ch = s.t.fs.ch := ch
    simp only [posInRange, cap, ch]
  | _ => simp only [posInRange, cap]

/-- Past its first block a command works on an allocated unit. -/
theorem unitCap_ne_zero {s : State} {u : UnitId} {pos : Pos} (h : posInRange s u pos = true) (past : pos ≠ .start) :
    s.unitCap u ≠ 0 := by
  cases pos with
  | start => exact absurd rfl past
  | move | gap | fill | out => exact of_decide_eq_true (Bool.and_eq_true_iff.1 h).1
  | _ => exact of_decide_eq_true h

section Positions
variable {s : State}

theorem posInRange_channel {u : UnitId} {c n : Nat} (used : s.unitCap u ≠ 0) (hc : c < n) :
    (decide (s.unitCap u ≠ 0) && decide (c < n)) = true :=
  Bool.and_eq_true_iff.2 ⟨decide_eq_true used, decide_eq_true hc⟩

theorem posInRange_fetchPos {u : UnitId} (used : s.unitCap u ≠ 0) (ch p k : U32) (es : List Entry) :
    posInRange s u (fetchPos ch p k es) = true := by
  unfold fetchPos; split <;> exact decide_eq_true used

theorem posInRange_gatherPosF (used : s.f.fs.cap ≠ 0) (p k : U32) (es : List Entry) (c : Nat) :
    posInRange s .f (gatherPosF s.f.fs.ch p k es c) = true := by
  unfold gatherPosF
  split
  · exact posInRange_channel (u := .f) used ‹_›
  · exact decide_eq_true used

theorem posInRange_scatterPosF (used : s.f.fs.cap ≠ 0) (n : Nat) (p k : U32) (es : List Entry) (c i : Nat) :
    posInRange s .f (scatterPosF s.f.fs.ch n p k es c i) = true := by
  unfold scatterPosF
  split
  · exact decide_eq_true used
  · split
    · exact posInRange_channel (u := .f) used ‹_›
    · exact decide_eq_true used

theorem posInRange_fillPos (used : s.t.fs.cap ≠ 0) (n : Nat) (es : List Entry) (cs ce : Int) (c i : Nat) :
    posInRange s .t (fillPos s.t.fs.ch n es cs ce c i) = true := by
  unfold fillPos
  split
  · exact decide_eq_true used
  · split
    · exact posInRange_channel (u := .t) used ‹_›
    · exact decide_eq_true used

theorem posInRange_gapPos (used : s.t.fs.cap ≠ 0) (ops : Latch) (es : List Entry) (cs ce : Int) (c i : Nat) :
    posInRange s .t (gapPos s.t.fs ops es cs ce c i) = true := by
  unfold gapPos
  split
  · exact posInRange_fillPos used ..
  · split
    · exact posInRange_channel (u := .t) used ‹_›
    · exact posInRange_fillPos used ..

theorem posInRange_adjustBounds (used : s.t.fs.cap ≠ 0) (ops : Latch) (es : List Entry) (cs ce : Int) :
    posInRange s .t (adjustBounds s.t.fs ops es cs ce) = true := by
  unfold adjustBounds
  split
  · exact decide_eq_true used
  · split
    · exact posInRange_gapPos used ..
    · exact decide_eq_true used

theorem posInRange_afterPublish (used : s.t.fs.cap ≠ 0) (ops : Latch) (es : List Entry) (cs ce : Int) (last : Bool) :
    posInRange s .t (afterPublish s.t.fs ops es cs ce last) = true := by
  unfold afterPublish
  split
  · exact decide_eq_true used
  · exact posInRange_gapPos used ..

theorem posInRange_outPos (used : s.t.fs.cap ≠ 0) (es : List Entry) (w : Clip) (c : Nat) :
    posInRange s .t (outPos s.t.fs.ch es w c) = true := by
  unfold outPos
  split
  · exact posInRange_channel (u := .t) used ‹_›
  · exact decide_eq_true used

end Positions

/-! ### One step of a data command -/

/-- After a step of a command of unit `u` the units and memories are in order, and where the port stands is in range of
the unit as it was. -/
structure Tidy (u : UnitId) (s t : State) : Prop where
  storage : StorageInv t
  range : ∀ ops pos, t.cur.act = .busy ops pos → posInRange s u pos = true

section Tidy
variable {u : UnitId} {s v t : State}

theorem Tidy.complete (h : StorageInv v) (ret : U32) (code : Code) (r0 r1 r2 r3 : U64) :
    Tidy u s (v.completeWith ret code r0 r1 r2 r3) :=
  ⟨h.setCur _, fun ops pos busy => by rw [cur_completeWith] at busy; cases busy⟩

theorem Tidy.goto (h : StorageInv v) {ops : Latch} {pos : Pos} (hp : posInRange s u pos = true) :
    Tidy u s (v.goto ops pos) :=
  ⟨h.setCur _, fun ops' pos' busy => by rw [cur_goto] at busy; cases busy; exact hp⟩

theorem Tidy.issueData {i : Instr} (hs : StorageInv s) (h : issueData i s = .next t) : Tidy u s t := by
  unfold Machine.issueData at h
  split at h <;> cases h
  · exact .complete (hs.setCur _) ..
  · exact .goto (hs.setCur _) rfl

theorem Tidy.guarded {a : U64} {n : Nat} (h : guarded s a n v = .next t) (stay : Tidy u s s) (go : Tidy u s v) :
    Tidy u s t := by
  rcases guarded_next h with rfl | rfl <;> assumption

theorem Tidy.fetchStep {ch p k : U32} {ops : Latch} {es : List Entry} {ptr : Option U64} (stay : Tidy u s s)
    (used : s.unitCap u ≠ 0) (h : fetchStep ch ops p k es ptr s = .next t) : Tidy u s t := by
  unfold Machine.fetchStep at h
  split at h
  · exact .guarded h stay (.goto stay.storage (decide_eq_true used))
  · exact .guarded h stay (.goto stay.storage (posInRange_fetchPos used ..))

theorem Tidy.readBounds {ops : Latch} {es : List Entry} {tries : Nat} {st : ReadStage}
    {done : Option (U64 × U64) → State → State} (hs : StorageInv s) (used : s.unitCap u ≠ 0)
    (hd : ∀ r, Tidy u s (done r s)) (h : readBounds ops es tries st done s = .next t) : Tidy u s t := by
  unfold Machine.readBounds at h
  split at h
  · cases h; exact .goto hs (decide_eq_true used)
  · cases h; exact hd _
  · split at h <;> cases h
    · exact .goto hs (decide_eq_true used)
    · exact hd _

theorem Tidy.sampleB {ap : Bool} {avail p : U32} {ops : Latch} (hs : StorageInv s) :
    Tidy .b s (sampleB ap avail p ops s) := by
  unfold Machine.sampleB
  split
  · exact .complete hs ..
  · rename_i used
    split
    · exact .complete hs ..
    · exact .goto hs (decide_eq_true used)

theorem Tidy.sampleF {ap : Bool} {avail p : U32} {ops : Latch} (hs : StorageInv s) :
    Tidy .f s (sampleF ap avail p ops s) := by
  unfold Machine.sampleF
  split
  · exact .complete hs ..
  · rename_i used
    split
    · exact .complete hs ..
    · split
      · exact .complete hs ..
      · exact .goto hs (posInRange_fetchPos (s := s) (u := .f) used ..)

theorem Tidy.validateWriteT {ops : Latch} (hs : StorageInv s) : Tidy .t s (validateWriteT ops s) := by
  unfold Machine.validateWriteT
  split
  · exact .complete hs ..
  · rename_i used
    split
    · exact .complete hs ..
    · split
      · exact .goto hs (posInRange_fetchPos (s := s) (u := .t) used ..)
      · exact .complete hs ..

theorem Tidy.validateReadT {ops : Latch} (hs : StorageInv s) : Tidy .t s (validateReadT ops s) := by
  unfold Machine.validateReadT
  split
  · exact .complete hs ..
  · rename_i used
    split
    · exact .complete hs ..
    · split
      · exact .complete hs ..
      · split
        · exact .goto hs (posInRange_fetchPos (s := s) (u := .t) used ..)
        · exact .complete hs ..

/-- One byte into the ring lands inside the storage of unit B (R142, R143). -/
theorem StorageInv.copyB (hs : StorageInv s) (used : s.b.cap ≠ 0) (p : U32) (i : Nat) (x : Byte) :
    StorageInv { s with b := s.b.setByte (s.b.offset p i) x } := by
  have capPos : 0 < s.b.cap.toNat := by
    rw [Nat.pos_iff_ne_zero]; exact fun e => used (BitVec.eq_of_toNat_eq e)
  refine hs.with_b (UnitB.sound_setByte hs.b ?_ x)
  simpa only [UnitB.offset, ringOffset, Nat.mul_one] using Nat.mod_lt _ capPos

theorem StorageInv.copyF (hs : StorageInv s) (used : s.f.fs.cap ≠ 0) {c : Nat} (hc : c < s.f.fs.ch.toNat) (p : U32)
    (i : Nat) (x : Byte) : StorageInv { s with f := { s.f with fs := s.f.fs.setByte (s.f.fs.offset c p i) x } } :=
  have ⟨fs, rptr, wptr⟩ := UnitF.sound_iff.1 hs.f
  hs.with_f (UnitF.sound_iff.2 ⟨FrameStore.sound_setByte fs used hc p i x, rptr, wptr⟩)

theorem StorageInv.copyT (hs : StorageInv s) (used : s.t.fs.cap ≠ 0) {c : Nat} (hc : c < s.t.fs.ch.toNat) (p : U32)
    (i : Nat) (x : Byte) : StorageInv (setByteT s (s.t.fs.offset c p i) x) :=
  hs.with_t (FrameStore.sound_setByte hs.t used hc p i x)

theorem StorageInv.publishRptr (hs : StorageInv s) (p k : U32) :
    StorageInv { s with f := { s.f with rptr := adv s.f.fs.mask p k } } :=
  have ⟨fs, _, wptr⟩ := UnitF.sound_iff.1 hs.f
  hs.with_f (UnitF.sound_iff.2 ⟨fs, adv_le_mask _ _ _, wptr⟩)

theorem StorageInv.publishWptr (hs : StorageInv s) (p k : U32) :
    StorageInv { s with f := { s.f with wptr := adv s.f.fs.mask p k } } :=
  have ⟨fs, rptr, _⟩ := UnitF.sound_iff.1 hs.f
  hs.with_f (UnitF.sound_iff.2 ⟨fs, rptr, adv_le_mask _ _ _⟩)

end Tidy

/-- The channel of a position at a byte exists. -/
theorem channel_lt {s : State} {u : UnitId} {c n : Nat} (h : (decide (s.unitCap u ≠ 0) && decide (c < n)) = true) :
    c < n := of_decide_eq_true (Bool.and_eq_true_iff.1 h).2

/-- A step of a data command from a position in range keeps the units in order and stays in range. -/
theorem exec_data_tidy {i : Instr} {s t : State} (data : isData i = true) (hs : StorageInv s)
    (hr : ∀ ops pos, s.cur.act = .busy ops pos → posInRange s (unitOf i) pos = true) (h : exec i s = .next t) :
    Tidy (unitOf i) s t := by
  have stay : Tidy (unitOf i) s s := ⟨hs, hr⟩
  have used : ∀ {ops pos}, s.cur.act = .busy ops pos → pos ≠ .start → s.unitCap (unitOf i) ≠ 0 :=
    fun was past => unitCap_ne_zero (hr _ _ was) past
  cases i with
  | allocB | deallocB | resetB | allocF | deallocF | resetF | allocT | deallocT | resetT => cases data
  | availrB | availwB | rvecB | wvecB | availrF | availwF =>
    simp only [exec, execAvailrB, execAvailwB, execRvecB, execWvecB, execAvailrF, execAvailwF] at h
    split at h
    · exact .issueData hs h
    · split at h <;> cases h <;> exact .complete hs ..
    · cases h
  | advrB =>
    simp only [exec, execAdvrB] at h; split at h
    · exact .issueData hs h
    · split at h
      · cases h; exact .complete hs ..
      · rename_i used; cases h; exact .complete (hs.with_b (UnitB.sound_with_rpos hs.b used ..)) ..
    · cases h
  | advwB =>
    simp only [exec, execAdvwB] at h; split at h
    · exact .issueData hs h
    · split at h
      · cases h; exact .complete hs ..
      · rename_i used; cases h; exact .complete (hs.with_b (UnitB.sound_with_wpos hs.b used ..)) ..
    · cases h
  | readB ap =>
    simp only [exec, execReadB] at h; split at h
    · exact .issueData hs h
    · cases h; exact .sampleB hs
    · rename_i was
      split at h
      · exact .guarded h stay (.goto (hs.setClientByte ..) (hr _ _ was :))
      · cases h; exact .complete (hs.with_b (UnitB.sound_with_rpos hs.b (used was nofun) ..)) ..
    · cases h
  | peekB ap =>
    simp only [exec, execPeekB] at h; split at h
    · exact .issueData hs h
    · cases h; exact .sampleB hs
    · rename_i was
      split at h
      · exact .guarded h stay (.goto (hs.setClientByte ..) (hr _ _ was :))
      · cases h; exact .complete hs ..
    · cases h
  | writeB ap =>
    simp only [exec, execWriteB] at h; split at h
    · exact .issueData hs h
    · cases h; exact .sampleB hs
    · rename_i was
      split at h
      · exact .guarded h stay (.goto (hs.copyB (used was nofun) ..) (hr _ _ was :))
      · cases h; exact .complete (hs.with_b (UnitB.sound_with_wpos hs.b (used was nofun) ..)) ..
    · cases h
  | readF ap =>
    simp only [exec, execReadF] at h; split at h
    · exact .issueData hs h
    · cases h; exact .sampleF hs
    · rename_i was; exact .fetchStep stay (used was nofun) h
    · rename_i was
      split at h <;> cases h
      · exact .goto hs (posInRange_gatherPosF (used was nofun) ..)
      · exact .complete hs ..
    · rename_i was
      split at h
      · exact .guarded h stay (.goto (hs.setClientByte ..) (hr _ _ was :))
      · exact .guarded h stay (.goto (hs.memWrite ..) (posInRange_gatherPosF (used was nofun) ..))
    · cases h; exact .complete (hs.publishRptr ..) ..
    · cases h
  | writeF ap =>
    simp only [exec, execWriteF] at h; split at h
    · exact .issueData hs h
    · cases h; exact .sampleF hs
    · rename_i was; exact .fetchStep stay (used was nofun) h
    · rename_i was
      split at h <;> cases h
      · exact .goto hs (posInRange_scatterPosF (used was nofun) ..)
      · exact .complete hs ..
    · rename_i was
      exact .guarded h stay
        (.goto (hs.copyF (used was nofun) (channel_lt (hr _ _ was)) ..) (posInRange_scatterPosF (used was nofun) ..))
    · cases h; exact .complete (hs.publishWptr ..) ..
    · cases h
  | gettbT =>
    simp only [exec, execGettbT] at h; split at h
    · exact .issueData hs h
    · split at h
      · cases h; exact .complete hs ..
      · rename_i used; cases h; exact .goto hs (decide_eq_true used)
    · rename_i was
      exact .readBounds hs (used was nofun) (fun r => .goto (pos := .got r) hs (decide_eq_true (used was nofun))) h
    · cases h; unfold finishGettb; split <;> exact .complete hs ..
    · cases h
  | writeT =>
    simp only [exec, execWriteT] at h; split at h
    · exact .issueData hs h
    · cases h; exact .validateWriteT hs
    · rename_i was; exact .fetchStep stay (used was nofun) h
    · rename_i was
      split at h <;> cases h
      · exact .goto hs (decide_eq_true (used was nofun))
      · exact .complete hs ..
    · rename_i was; cases h; exact .goto hs (posInRange_adjustBounds (used was nofun) ..)
    · rename_i was
      cases h
      refine .goto (hs.with_t (by rw [publishStep_fs]; exact hs.t)) ?_
      split
      · exact decide_eq_true (used was nofun)
      · exact posInRange_afterPublish (used was nofun) ..
    · rename_i was
      cases h
      exact .goto (hs.copyT (used was nofun) (channel_lt (hr _ _ was)) ..) (posInRange_gapPos (used was nofun) ..)
    · rename_i was
      exact .guarded h stay
        (.goto (hs.copyT (used was nofun) (channel_lt (hr _ _ was)) ..) (posInRange_fillPos (used was nofun) ..))
    · cases h; exact .complete hs ..
    · cases h
  | readT =>
    simp only [exec, execReadT] at h; split at h
    · exact .issueData hs h
    · cases h; exact .validateReadT hs
    · rename_i was; exact .fetchStep stay (used was nofun) h
    · rename_i was
      split at h <;> cases h
      · exact .goto hs (decide_eq_true (used was nofun))
      · exact .complete hs ..
    · rename_i was
      refine .readBounds hs (used was nofun) (fun r => ?_) h
      unfold afterReadBounds
      split
      · exact .goto hs (posInRange_outPos (used was nofun) ..)
      · exact .goto hs (decide_eq_true (used was nofun))
    · cases h; exact .complete hs ..
    · rename_i was
      split at h
      · exact .guarded h stay (.goto (hs.setClientByte ..) (hr _ _ was :))
      · exact .guarded h stay (.goto (hs.memWrite ..) (posInRange_outPos (used was nofun) ..))
    · cases h; exact .complete hs ..
    · cases h

/-! ### Lifecycle commands find their unit's ports idle (R109) -/

/-- Only PROD and CONS ports can be busy: a CFG port accepts lifecycle commands alone, which have no position. -/
theorem role_of_posFits {q : PortId} {i : Instr} {pos : Pos} (fits : posFits i pos = true)
    (wf : i.wellFormedOn q = true) : q.role = .prod ∨ q.role = .cons := by
  have data := isData_of_posFits fits
  have accepts := (wellFormedOn_iff.1 wf).2
  cases i <;> simp_all [rolesOf, isData]

theorem PositionInv.dataBusy {s : State} (hs : PositionInv s) {q : PortId} {ops : Latch} {pos : Pos}
    (busy : (s.port q).act = .busy ops pos) : s.dataBusy q.unit = true := by
  obtain ⟨i, -, wf, fits⟩ := hs.busy busy
  have here : (s.port q).busy = true := by simp [Port.busy, busy]
  obtain ⟨u, r⟩ := q
  rcases role_of_posFits fits wf with e | e <;> cases e <;> simp [State.dataBusy, here]

/-- A lifecycle command leaves its own port idle unless it does nothing. -/
theorem exec_cfg_cur {i : Instr} {s t : State} (cfg : isData i = false) (h : exec i s = .next t) :
    t = s ∨ t.cur.act = .idle := by
  cases exec_portStep h with
  | same e => exact .inl e
  | done c act _ => exact .inr act
  | issued _ _ data _ => rw [cfg] at data; cases data
  | on _ _ _ _ fits _ => rw [isData_of_posFits fits] at cfg; cases cfg

/-- After a lifecycle command that ran its block, a busy port is one of another unit. -/
theorem foreign_of_cfg_busy {i : Instr} {s t : State} (hs : PositionInv s) (cfg : isData i = false)
    (free : s.dataBusy (unitOf i) = false) (h : exec i s = .next t) {q : PortId}
    {ops : Latch} {pos : Pos} (busy : (t.port q).act = .busy ops pos) : unitOf i ≠ q.unit := by
  intro same
  have before : (s.port q).act = .busy ops pos := by
    by_cases e : q = s.turn
    · rcases exec_cfg_cur cfg h with e | idle
      · rwa [e] at busy
      · rw [e, port_turn_of_exec h, idle] at busy; cases busy
    · rwa [(exec_elsewhere h).ports q e] at busy
  rw [same, hs.dataBusy before] at free
  cases free

/-- The capacity and the channels of a unit a busy port works on are as before a step of any command. -/
theorem exec_keeps_capacity {i : Instr} {s t : State} (hs : PositionInv s) (h : exec i s = .next t) {q : PortId}
    {ops : Latch} {pos : Pos} (busy : (t.port q).act = .busy ops pos) :
    t.unitCap q.unit = s.unitCap q.unit ∧ t.unitChannels q.unit = s.unitChannels q.unit := by
  cases data : isData i with
  | true =>
    have k := exec_keepsShape data h
    cases q.unit with
    | b => exact ⟨k.capB, rfl⟩
    | f => simp only [State.unitCap, State.unitChannels]; rw [k.frameF]; exact ⟨rfl, rfl⟩
    | t => simp only [State.unitCap, State.unitChannels]; rw [k.frameT]; exact ⟨rfl, rfl⟩
  | false =>
    rcases exec_cfg_cases data h with ⟨code, rfl⟩ | ⟨-, free, -⟩
    · cases q.unit <;> simp [State.unitCap, State.unitChannels]
    · have foreign := foreign_of_cfg_busy hs data free h busy
      obtain ⟨u, r⟩ := q
      cases u with
      | b =>
        have cap := congrArg UnitB.cap (exec_b_of_foreign h foreign)
        exact ⟨cap, rfl⟩
      | f => simp only [State.unitCap, State.unitChannels]; rw [exec_f_of_foreign h foreign]; exact ⟨rfl, rfl⟩
      | t => simp only [State.unitCap, State.unitChannels]; rw [exec_t_of_foreign h foreign]; exact ⟨rfl, rfl⟩

/-! ### The machine in order -/

section Machine
variable {i : Instr} {s t : State}

/-- Where the issuing port stands is in range of the unit of the command it runs. -/
theorem MachineInv.range_turn (hs : MachineInv s) (hr : Runs i s) {ops : Latch} {pos : Pos}
    (was : s.cur.act = .busy ops pos) : posInRange s (unitOf i) pos = true := by
  have word : decode s.cur.cmd = .ok i := hr.resolve_left (by rw [was]; exact nofun)
  obtain ⟨j, hj, wf, -⟩ := hs.positions.busy (q := s.turn) was
  have e : j = i := Except.ok.inj (hj.symm.trans word)
  subst e
  rw [unitOf_eq_of_wellFormed wf]
  exact hs.ranges s.turn ops pos was

theorem exec_keeps_storage (hs : MachineInv s) (hr : Runs i s) (h : exec i s = .next t) : StorageInv t := by
  cases data : isData i with
  | true => exact (exec_data_tidy data hs.storage (fun _ _ => hs.range_turn hr) h).storage
  | false =>
    rcases exec_cfg_cases data h with ⟨code, rfl⟩ | ⟨-, -, rfl⟩
    · exact (hs.storage.setCur _).setCur _
    · exact (hs.storage.setCur _).cfgBody i _

/-- The issuing port stands in range after a step, of the unit as it was. -/
theorem exec_range_turn (hs : MachineInv s) (hr : Runs i s) (h : exec i s = .next t) {ops : Latch} {pos : Pos}
    (busy : t.cur.act = .busy ops pos) : posInRange s (unitOf i) pos = true := by
  cases data : isData i with
  | true => exact (exec_data_tidy data hs.storage (fun _ _ => hs.range_turn hr) h).range ops pos busy
  | false =>
    rcases exec_cfg_cur data h with rfl | idle
    · exact hs.range_turn hr busy
    · rw [idle] at busy; cases busy

theorem exec_keeps_ranges (hs : MachineInv s) (hr : Runs i s) (h : exec i s = .next t) : RangeInv t := by
  intro q ops pos busy
  have positions := exec_keeps_positions hs.positions hr h
  obtain ⟨j, hj, wf, fits⟩ := positions.busy busy
  obtain ⟨cap, ch⟩ := exec_keeps_capacity hs.positions h busy
  rw [← unitOf_eq_of_wellFormed wf] at cap ch ⊢
  rw [posInRange_congr fits cap ch, unitOf_eq_of_wellFormed wf]
  by_cases own : q = s.turn
  · subst own
    rw [port_turn_of_exec h] at busy hj
    have same : unitOf i = s.turn.unit := by
      cases exec_portStep h with
      | same e =>
        subst e
        have word : decode t.cur.cmd = .ok i := hr.resolve_left (by rw [busy]; exact nofun)
        rw [← Except.ok.inj (hj.symm.trans word)]; exact unitOf_eq_of_wellFormed wf
      | done c act _ => rw [act] at busy; cases busy
      | issued _ wfi _ _ => exact unitOf_eq_of_wellFormed wfi
      | on ops' pos' _ was _ port =>
        have word : decode s.cur.cmd = .ok i := hr.resolve_left (by rw [was]; exact nofun)
        rw [port] at hj
        rw [← Except.ok.inj (hj.symm.trans word)]; exact unitOf_eq_of_wellFormed wf
    rw [← same]
    exact exec_range_turn hs hr h busy
  · rw [(exec_elsewhere h).ports q own] at busy
    exact hs.ranges q ops pos busy

theorem exec_keeps_machine (hs : MachineInv s) (hr : Runs i s) (h : exec i s = .next t) : MachineInv t :=
  ⟨exec_keeps_positions hs.positions hr h, exec_keeps_ranges hs hr h, exec_keeps_storage hs hr h⟩

end Machine

/-- Positions in range when ports stand where they stood and no capacity or format changed. -/
theorem RangeInv.congr {s t : State} (hs : RangeInv s)
    (act : ∀ q ops pos, (t.port q).act = .busy ops pos → (s.port q).act = .busy ops pos)
    (b : t.b.cap = s.b.cap) (f : t.f = s.f) (tt : t.t = s.t) : RangeInv t := fun q ops pos busy => by
  have e : posInRange t q.unit pos = posInRange s q.unit pos := by
    have cap : t.unitCap q.unit = s.unitCap q.unit := by cases q.unit <;> simp [State.unitCap, b, f, tt]
    simp only [posInRange, cap, f, tt]
  rw [e]
  exact hs q ops pos (act q ops pos busy)

theorem machineInv_resetOn (p : Platform) : MachineInv (State.resetOn p) where
  positions := positionInv_resetOn p
  ranges q ops pos busy := by rw [port_resetOn] at busy; cases busy
  storage := storageInv_resetOn p

/-- Every part of a step keeps the machine in order. -/
theorem machine_keptByParts : KeptByParts MachineInv where
  model s xs q v hs := ⟨hs.positions, hs.ranges, hs.storage.congr rfl rfl rfl rfl rfl⟩
  command i s t hs hr h := exec_keeps_machine hs hr h
  illegal s w hs := by
    refine ⟨positions_keptByParts.illegal s w hs.positions, hs.ranges.congr (fun q ops pos busy => ?_) ?_ ?_ ?_,
      (hs.storage.setCur _).setCur _⟩
    · rwa [port_of_rejected_busy busy] at busy
    all_goals simp
  operand s q r v hs := by
    refine ⟨positions_keptByParts.operand s q r v hs.positions, hs.ranges.congr (fun q' ops pos busy => ?_) ?_ ?_ ?_,
      hs.storage.setPort q _⟩
    · rw [port_setPort] at busy
      split at busy
      · rename_i e; rw [e]; simpa using busy
      · exact busy
    all_goals simp
  write s a n v hs := by
    refine ⟨positions_keptByParts.write s a n v hs.positions, hs.ranges.congr (fun q ops pos busy => ?_) ?_ ?_ ?_,
      hs.storage.memWrite a n v⟩
    · rwa [memWrite_port] at busy
    all_goals simp
  reset s hs := by
    refine ⟨positions_keptByParts.reset s hs.positions, fun q ops pos busy => ?_, ?_⟩
    · rw [port_hardReset] at busy; cases busy
    · exact ⟨UnitB.sound_reset _ _, UnitF.sound_reset _, FrameStore.sound_reset _, hs.storage.cm⟩

/-- Settles O57: `MachineInv` is kept by each part of a step. -/
theorem machineKept : Obligations.MachineKept := fun _ _ hs h => machine_keptByParts.step hs h

end Sys2Proof.Machine
end

section
/-! PROOFS for O58 and O60: the bounds register and the bounds a WRITE.T has worked out (R36, R147, R243, R258). -/

namespace Sys2Proof.Machine

/-! ### The slots (R35) -/

theorem slotIndex_succ_ne (c : U32) : slotIndex (c + 1) ≠ slotIndex c := by
  intro e
  have e := congrArg Fin.val e
  simp only [slotIndex] at e
  bv_omega

section Slots
variable (u : UnitT) (c : U32) (x : Slot)

@[simp] theorem slot_setSlot_same : (u.setSlot c x).slot c = x := by simp [UnitT.slot, UnitT.setSlot]

theorem slot_setSlot_ne {c' : U32} (h : slotIndex c ≠ slotIndex c') : (u.setSlot c x).slot c' = u.slot c' := by
  simp only [UnitT.slot, UnitT.setSlot]
  exact Vector.getElem_set_ne _ _ fun e => h (Fin.ext e)

/-- The slot being published is not the current one (R243). -/
theorem slot_setSlot_current : (u.setSlot (u.tbcnt + 1) x).slot u.tbcnt = u.slot u.tbcnt :=
  slot_setSlot_ne u _ x (slotIndex_succ_ne _)

end Slots

theorem slot_cleared (fs : FrameStore) (c : U32) : UnitT.slot { UnitT.reset with fs := fs } c = Slot.reset := by
  simp [UnitT.slot, UnitT.reset]

/-! ### Pairs of bounds as numbers (R36, R147) -/

theorem rangeOk_iff {ops : Latch} {cap : U32} : ops.rangeOk cap = true ↔
    (ops.frames : Int) ≤ cap.toNat ∧ 0 ≤ ops.time ∧ ops.time + ops.frames ≤ Config.maxTime := by
  rw [Latch.rangeOk, Bool.and_eq_true, Bool.and_eq_true, decide_eq_true_iff, decide_eq_true_iff, decide_eq_true_iff,
    and_assoc, Int.ofNat_le, Latch.endTime]

/-- A time of the range of R147 is the i64 it is written as. -/
theorem toInt_ofInt_time {z : Int} (lo : 0 ≤ z) (hi : z ≤ Config.maxTime) : (BitVec.ofInt 64 z).toInt = z := by
  rw [BitVec.toInt_ofInt]
  exact Int.bmod_eq_of_le (by omega) (by simp only [Config.maxTime] at hi; omega)

/-! ### The register in order -/

/-- The two clauses of `BoundsInv` that speak of unit T alone. -/
structure RegisterSound (u : UnitT) : Prop where
  current : boundsSound u.fs.cap u.bounds.1 u.bounds.2
  counter : (u.slot u.tbcnt).upd = u.tbcnt

theorem RegisterSound.congr {u v : UnitT} (h : RegisterSound u) (cap : v.fs.cap = u.fs.cap)
    (cnt : v.tbcnt = u.tbcnt) (slot : v.slot u.tbcnt = u.slot u.tbcnt) : RegisterSound v := by
  refine ⟨?_, by rw [cnt, slot]; exact h.counter⟩
  rw [UnitT.bounds, cap, cnt, slot]
  exact h.current

/-- A register of zeros is in order, whatever the storage (R247 to R249). -/
theorem registerSound_cleared (fs : FrameStore) : RegisterSound { UnitT.reset with fs := fs } := by
  refine ⟨?_, by rw [slot_cleared]; rfl⟩
  simp only [UnitT.bounds, slot_cleared]
  exact ⟨Int.le_refl _, Int.le_refl _, Int.natCast_nonneg _, by decide⟩

theorem RegisterSound.setByte {s : State} (h : RegisterSound s.t) (i : Nat) (v : Byte) :
    RegisterSound (setByteT s i v).t := h.congr rfl rfl rfl

/-! ### A Publish, step by step (R243) -/

section Publish
variable {u : UnitT} {lo hi : Int} {st : PubStage}

/-- A step of a Publish before its last leaves the current pair alone and gets on with the next slot. -/
theorem publishStep_more {st' : PubStage} (h : RegisterSound u) (p : slotProgress u lo hi st)
    (e : (publishStep u lo hi st).2 = some st') :
    RegisterSound (publishStep u lo hi st).1 ∧ slotProgress (publishStep u lo hi st).1 lo hi st' := by
  have next (x : Slot) : RegisterSound (u.setSlot (u.tbcnt + 1) x) := h.congr rfl rfl (slot_setSlot_current u x)
  cases st with
  | upd =>
    cases e
    exact ⟨next _, rfl, by simp [publishStep]⟩
  | start nxt =>
    obtain ⟨rfl, upd⟩ := p
    cases e
    exact ⟨next _, rfl, by simpa [publishStep] using upd, by simp [publishStep]⟩
  | stop nxt =>
    obtain ⟨rfl, upd, start⟩ := p
    cases e
    exact ⟨next _, rfl, by simpa [publishStep] using upd, by simpa [publishStep] using start, by simp [publishStep]⟩
  | count nxt => cases e

/-- The last step of a Publish makes the pair the current one. -/
theorem publishStep_done (p : slotProgress u lo hi st) (hb : boundsSound u.fs.cap lo hi)
    (e : (publishStep u lo hi st).2 = none) : RegisterSound (publishStep u lo hi st).1 := by
  cases st with
  | upd | start | stop => cases e
  | count nxt =>
    obtain ⟨rfl, upd, start, stop⟩ := p
    obtain ⟨lo0, lohi, size, hiMax⟩ := hb
    have bounds : (publishStep u lo hi (.count (u.tbcnt + 1))).1.bounds = (lo, hi) := by
      show ((u.slot (u.tbcnt + 1)).start.toInt, (u.slot (u.tbcnt + 1)).stop.toInt) = (lo, hi)
      rw [start, stop, toInt_ofInt_time lo0 (lohi.trans hiMax), toInt_ofInt_time (lo0.trans lohi) hiMax]
    exact ⟨by rw [bounds]; exact ⟨lo0, lohi, size, hiMax⟩, upd⟩

end Publish

/-! ### The positions a WRITE.T goes to (R250 to R258) -/

/-- The bounds `(cs, ce)` leave room for the requested range: what `writerSound` asks of the gap. -/
structure Room (cap : U32) (ops : Latch) (cs ce : Int) : Prop where
  range : ops.rangeOk cap = true
  nonneg : 0 ≤ cs
  ordered : cs ≤ ce
  before : ce ≤ ops.time
  fits : ops.endTime - cs ≤ (cap.toNat : Int)

section Positions
variable {u : UnitT} {ops : Latch} {es : List Entry} {cs ce : Int}

theorem Room.writerSound_gap (h : Room u.fs.cap ops cs ce) (c i : Nat) : writerSound u ops (.gap es cs ce c i) :=
  ⟨h.range, h.nonneg, h.ordered, h.before, h.fits⟩

/-- The pair WRITE.T publishes at its end is a pair of bounds (R257, R258). -/
theorem boundsSound_end {cap : U32} (range : ops.rangeOk cap = true) (nonneg : 0 ≤ cs) (before : cs ≤ ops.time)
    (fits : ops.endTime - cs ≤ (cap.toNat : Int)) : boundsSound cap cs ops.endTime := by
  obtain ⟨-, -, endMax⟩ := rangeOk_iff.1 range
  exact ⟨nonneg, by simp only [Latch.endTime]; omega, fits, endMax⟩

theorem writerSound_fillPos (range : ops.rangeOk u.fs.cap = true) (nonneg : 0 ≤ cs) (before : cs ≤ ops.time)
    (fits : ops.endTime - cs ≤ (u.fs.cap.toNat : Int)) (ch : U32) (n c i : Nat) :
    writerSound u ops (fillPos ch n es cs ce c i) := by
  have done : writerSound u ops (.pub es cs ce true .upd) := ⟨boundsSound_end range nonneg before fits, trivial⟩
  unfold fillPos
  split
  · exact done
  · split
    · exact ⟨range, nonneg, before, fits⟩
    · exact done

theorem Room.writerSound_gapPos (h : Room u.fs.cap ops cs ce) (fs : FrameStore) (c i : Nat) :
    writerSound u ops (gapPos fs ops es cs ce c i) := by
  have fill := writerSound_fillPos (es := es) (ce := ce) h.range h.nonneg (h.ordered.trans h.before) h.fits fs.ch
    (fs.bytes ops.frames) 0 0
  unfold gapPos
  split
  · exact fill
  · split
    · exact h.writerSound_gap c i
    · exact fill

/-- The pair a rewind or an overrun publishes first is a pair of bounds that leaves room (R250, R252, R254). -/
theorem Room.writerSound_pub (h : Room u.fs.cap ops cs ce) : writerSound u ops (.pub es cs ce false .upd) := by
  obtain ⟨range, nonneg, ordered, before, fits⟩ := h
  obtain ⟨-, -, endMax⟩ := rangeOk_iff.1 range
  simp only [Latch.endTime] at fits
  exact ⟨range, ⟨nonneg, ordered, by omega, by omega⟩, before, fits, trivial⟩

/-- Each of the three cases of WRITE.T works out bounds that leave room (R250 to R254). -/
theorem writerSound_adjustBounds (range : ops.rangeOk u.fs.cap = true) (hb : boundsSound u.fs.cap cs ce) :
    writerSound u ops (adjustBounds u.fs ops es cs ce) := by
  obtain ⟨size, time0, endMax⟩ := rangeOk_iff.1 range
  obtain ⟨cs0, ordered, width, ceMax⟩ := hb
  have last : ops.endTime = ops.time + ops.frames := rfl
  unfold adjustBounds
  split
  · exact Room.writerSound_pub ⟨range, time0, Int.le_refl _, Int.le_refl _, by omega⟩
  · rename_i notRewind
    split
    · rename_i fits; exact Room.writerSound_gapPos ⟨range, cs0, ordered, by omega, fits⟩ ..
    · exact Room.writerSound_pub ⟨range, by omega, by omega, by omega, by omega⟩

end Positions

/-! ### One step of WRITE.T -/

/-- After a step of WRITE.T the register is in order and the port stands where it will publish pairs of bounds only. -/
structure WriterKept (t : State) : Prop where
  register : RegisterSound t.t
  writer : ∀ ops pos, t.cur.act = .busy ops pos → writerSound t.t ops pos

section Writer
variable {s v t : State} {ops : Latch}

theorem WriterKept.complete (h : RegisterSound v.t) (ret : U32) (code : Code) :
    WriterKept (v.complete ret code) := by
  refine ⟨by simpa [State.complete] using h, fun ops pos busy => ?_⟩
  rw [State.complete, cur_completeWith] at busy; cases busy

theorem WriterKept.goto (h : RegisterSound v.t) {pos : Pos} (hw : writerSound v.t ops pos) :
    WriterKept (v.goto ops pos) := by
  refine ⟨by rwa [goto_t], fun ops' pos' busy => ?_⟩
  rw [cur_goto] at busy; cases busy
  rwa [goto_t]

theorem WriterKept.guarded {a : U64} {n : Nat} (h : guarded s a n v = .next t) (stay : WriterKept s)
    (go : WriterKept v) : WriterKept t := by
  rcases guarded_next h with rfl | rfl <;> assumption

theorem writerSound_fetchPos {u : UnitT} (range : ops.rangeOk u.fs.cap = true) (ch p k : U32) (es : List Entry) :
    writerSound u ops (fetchPos ch p k es) := by
  unfold fetchPos; split <;> exact range

theorem WriterKept.fetchStep {ch p k : U32} {es : List Entry} {ptr : Option U64} (stay : WriterKept s)
    (range : ops.rangeOk s.t.fs.cap = true) (h : fetchStep ch ops p k es ptr s = .next t) : WriterKept t := by
  unfold Machine.fetchStep at h
  split at h
  · exact .guarded h stay (.goto stay.register range)
  · exact .guarded h stay (.goto stay.register (writerSound_fetchPos range ..))

theorem WriterKept.validate (h : RegisterSound s.t) : WriterKept (validateWriteT ops s) := by
  unfold validateWriteT
  split
  · exact .complete h ..
  · split
    · exact .complete h ..
    · split
      · rename_i range; exact .goto h (writerSound_fetchPos range ..)
      · exact .complete h ..

/-- A step of a Publish of WRITE.T (R243, R250). -/
theorem WriterKept.publish {es : List Entry} {cs ce : Int} {last : Bool} {st : PubStage} (h : RegisterSound s.t)
    (hw : writerSound s.t ops (.pub es cs ce last st)) : WriterKept (publishStepT ops es cs ce last st s) := by
  unfold publishStepT
  cases last with
  | true =>
    obtain ⟨pair, progress⟩ := hw
    simp only [publishPair, if_true]
    cases e : (publishStep s.t cs ops.endTime st).2 with
    | some st' =>
      obtain ⟨register, progress⟩ := publishStep_more h progress e
      exact .goto register ⟨by rw [publishStep_fs]; exact pair, progress⟩
    | none => exact .goto (publishStep_done progress pair e) trivial
  | false =>
    obtain ⟨range, pair, before, fits, progress⟩ := hw
    simp only [publishPair, Bool.false_eq_true, if_false]
    cases e : (publishStep s.t cs ce st).2 with
    | some st' =>
      obtain ⟨register, progress⟩ := publishStep_more h progress e
      refine .goto register ⟨?_, ?_, before, ?_, progress⟩ <;> rw [publishStep_fs] <;> assumption
    | none =>
      have ⟨nonneg, ordered, _, _⟩ := pair
      have room : Room (publishStep s.t cs ce st).1.fs.cap ops cs ce := by
        rw [publishStep_fs]; exact ⟨range, nonneg, ordered, before, fits⟩
      exact .goto (publishStep_done progress pair e) (room.writerSound_gapPos ..)

/-- Every step of WRITE.T keeps the register and its own bounds in order (R258). -/
theorem exec_writeT_kept (stay : WriterKept s) (h : exec .writeT s = .next t) : WriterKept t := by
  have reg := stay.register
  simp only [exec, execWriteT] at h
  split at h
  · unfold issueData at h
    split at h <;> cases h
    · exact .complete (by simpa using reg) ..
    · exact .goto (by simpa using reg) trivial
  · cases h; exact .validate reg
  · rename_i was; exact .fetchStep stay (stay.writer _ _ was :) h
  · rename_i was
    split at h <;> cases h
    · exact .goto reg (stay.writer _ _ was :)
    · exact .complete reg ..
  · rename_i was; cases h; exact .goto reg (writerSound_adjustBounds (stay.writer _ _ was :) reg.current)
  · rename_i was; cases h; exact .publish reg (stay.writer _ _ was)
  · rename_i was
    cases h
    obtain ⟨range, nonneg, ordered, before, fits⟩ := stay.writer _ _ was
    exact .goto (reg.setByte ..) (Room.writerSound_gapPos ⟨range, nonneg, ordered, before, fits⟩ ..)
  · rename_i was
    obtain ⟨range, nonneg, before, fits⟩ := stay.writer _ _ was
    exact .guarded h stay (.goto (reg.setByte ..) (writerSound_fillPos range nonneg before fits ..))
  · cases h; exact .complete reg ..
  · cases h

end Writer

/-! ### Every other command leaves unit T alone, or clears the register -/

section Readers
variable {s v t : State}

theorem issueData_t {i : Instr} (h : issueData i s = .next t) : t.t = s.t := by
  unfold issueData at h
  split at h <;> cases h <;> simp

theorem guarded_t {a : U64} {n : Nat} (h : guarded s a n v = .next t) (hv : v.t = s.t) : t.t = s.t := by
  rcases guarded_next h with rfl | rfl
  · exact hv
  · rfl

theorem fetchStep_t {ch p k : U32} {ops : Latch} {es : List Entry} {ptr : Option U64}
    (h : fetchStep ch ops p k es ptr s = .next t) : t.t = s.t := by
  unfold fetchStep at h
  split at h <;> exact guarded_t h (by simp)

theorem readBounds_t {ops : Latch} {es : List Entry} {tries : Nat} {st : ReadStage}
    {done : Option (U64 × U64) → State → State} (hd : ∀ r, (done r s).t = s.t)
    (h : readBounds ops es tries st done s = .next t) : t.t = s.t := by
  unfold readBounds at h
  split at h
  · cases h; exact goto_t ..
  · cases h; exact hd _
  · split at h <;> cases h
    · exact goto_t ..
    · exact hd _

theorem exec_gettbT_t (h : exec .gettbT s = .next t) : t.t = s.t := by
  simp only [exec, execGettbT] at h
  split at h
  · exact issueData_t h
  · split at h <;> cases h <;> simp
  · exact readBounds_t (fun r => goto_t ..) h
  · cases h; unfold finishGettb; split <;> simp
  · cases h

theorem exec_readT_t (h : exec .readT s = .next t) : t.t = s.t := by
  simp only [exec, execReadT] at h
  split at h
  · exact issueData_t h
  · cases h; unfold validateReadT; repeat' split
    all_goals simp
  · exact fetchStep_t h
  · split at h <;> cases h <;> simp
  · exact readBounds_t (fun r => by unfold afterReadBounds; split <;> simp) h
  · cases h; simp
  · split at h
    · exact guarded_t h (by simp)
    · exact guarded_t h (by simp)
  · cases h; simp
  · cases h

/-- Of the data commands only WRITE.T changes unit T. -/
theorem exec_data_t {i : Instr} (data : isData i = true) (ne : i ≠ .writeT) (h : exec i s = .next t) : t.t = s.t := by
  cases i with
  | writeT => exact absurd rfl ne
  | readT => exact exec_readT_t h
  | gettbT => exact exec_gettbT_t h
  | allocB | deallocB | resetB | allocF | deallocF | resetF | allocT | deallocT | resetT => cases data
  | _ => exact exec_t_of_foreign h nofun

/-- The block of a lifecycle command clears the register or leaves unit T alone. -/
theorem cfgBody_t (i : Instr) (l : Latch) (s : State) :
    (∃ fs, (cfgBody i l s).t = { UnitT.reset with fs := fs }) ∨ (cfgBody i l s).t = s.t := by
  cases i with
  | allocT =>
    simp only [cfgBody, allocTBody]
    split
    · exact .inl ⟨_, completeWith_t ..⟩
    · exact .inl ⟨_, completeWith_t ..⟩
  | deallocT => exact .inl ⟨_, completeWith_t ..⟩
  | resetT => exact .inl ⟨_, completeWith_t ..⟩
  | allocB =>
    simp only [cfgBody, allocBBody]
    split
    · split <;> exact .inr (completeWith_t ..)
    · exact .inr (completeWith_t ..)
  | allocF =>
    simp only [cfgBody, allocFBody]
    split <;> exact .inr (completeWith_t ..)
  | deallocB | resetB | deallocF | resetF => exact .inr (completeWith_t ..)
  | _ => exact .inr rfl

end Readers

/-! ### `BoundsInv` is kept -/

section Bounds
variable {i : Instr} {s t : State}

theorem BoundsInv.register (hb : BoundsInv s) : RegisterSound s.t := ⟨hb.current, hb.counter⟩

theorem BoundsInv.of_register (h : RegisterSound t.t)
    (writer : ∀ ops pos, (t.port ⟨.t, .prod⟩).act = .busy ops pos → decode (t.port ⟨.t, .prod⟩).cmd = .ok .writeT →
      writerSound t.t ops pos) : BoundsInv t := ⟨h.current, h.counter, writer⟩

/-- The invariant reads unit T and, of PROD_T, the position and the command of a busy port. -/
theorem BoundsInv.congr (hb : BoundsInv s) (tt : t.t = s.t)
    (port : ∀ ops pos, (t.port ⟨.t, .prod⟩).act = .busy ops pos →
      (s.port ⟨.t, .prod⟩).act = .busy ops pos ∧ (t.port ⟨.t, .prod⟩).cmd = (s.port ⟨.t, .prod⟩).cmd) :
    BoundsInv t := by
  refine .of_register (by rw [tt]; exact hb.register) fun ops pos busy word => ?_
  obtain ⟨before, cmd⟩ := port ops pos busy
  rw [tt]
  exact hb.writer ops pos before (by rw [← cmd]; exact word)

/-- A step that leaves unit T alone and is no WRITE.T under way keeps the bounds in order. -/
theorem BoundsInv.of_same_unit (hb : BoundsInv s) (hr : Runs i s) (h : exec i s = .next t) (tt : t.t = s.t)
    (notWriter : i ≠ .writeT ∨ s.cur.act = .idle) : BoundsInv t := by
  refine .of_register (by rw [tt]; exact hb.register) fun ops pos busy word => ?_
  rw [tt]
  by_cases own : (⟨.t, .prod⟩ : PortId) = s.turn
  · rw [own, port_turn_of_exec h] at busy word
    cases exec_portStep h with
    | same e =>
      subst e
      exact hb.writer ops pos (by rw [own]; exact busy) (by rw [own]; exact word)
    | done c act _ => rw [act] at busy; cases busy
    | issued _ _ _ port => rw [port] at busy; cases busy; trivial
    | on ops' pos' pos'' was _ port =>
      have runs : decode s.cur.cmd = .ok i := hr.resolve_left (by rw [was]; exact nofun)
      rw [port] at word
      rcases notWriter with ne | idle
      · exact absurd (Except.ok.inj (runs.symm.trans word)) ne
      · rw [was] at idle; cases idle
  · rw [(exec_elsewhere h).ports _ own] at busy word
    exact hb.writer ops pos busy word

/-- WRITE.T runs on PROD_T only. -/
theorem turn_of_writeT_busy (hs : PositionInv s) (hr : Runs .writeT s) (busy : s.cur.act ≠ .idle) :
    s.turn = ⟨.t, .prod⟩ := by
  have word := hr.resolve_left busy
  cases act : s.cur.act with
  | idle => exact absurd act busy
  | busy ops pos =>
    obtain ⟨j, hj, wf, -⟩ := hs.busy (q := s.turn) act
    have e : j = .writeT := Except.ok.inj (hj.symm.trans word)
    subst e
    obtain ⟨unit, role⟩ := wellFormedOn_iff.1 wf
    cases hq : s.turn with
    | mk u r => rw [hq] at unit role; cases unit; cases List.mem_singleton.1 role; rfl

/-- A step of WRITE.T under way keeps the bounds in order. -/
theorem BoundsInv.writeT_busy (hs : PositionInv s) (hb : BoundsInv s) (hr : Runs .writeT s)
    (busy : s.cur.act ≠ .idle) (h : exec .writeT s = .next t) : BoundsInv t := by
  have turn := turn_of_writeT_busy hs hr busy
  have word := hr.resolve_left busy
  have cur : s.cur = s.port ⟨.t, .prod⟩ := by rw [State.cur, turn]
  have kept := exec_writeT_kept ⟨hb.register, fun ops pos was => hb.writer ops pos (cur ▸ was) (cur ▸ word)⟩ h
  refine .of_register kept.register fun ops pos was _ => kept.writer ops pos ?_
  rw [← port_turn_of_exec h, turn]
  exact was

theorem exec_keeps_bounds (hs : PositionInv s) (hb : BoundsInv s) (hr : Runs i s) (h : exec i s = .next t) :
    BoundsInv t := by
  cases data : isData i with
  | true =>
    by_cases e : i = .writeT
    · subst e
      by_cases idle : s.cur.act = .idle
      · exact hb.of_same_unit hr h (issueData_t (by rw [← exec_data_idle data idle]; exact h)) (.inr idle)
      · exact hb.writeT_busy hs hr idle h
    · exact hb.of_same_unit hr h (exec_data_t data e h) (.inl e)
  | false =>
    have ne : i ≠ .writeT := by rintro rfl; cases data
    by_cases foreign : unitOf i = .t
    · rcases exec_cfg_cases data h with ⟨code, e⟩ | ⟨-, free, e⟩
      · exact hb.of_same_unit hr h (by rw [e]; simp) (.inl ne)
      · have register : RegisterSound t.t := by
          rw [e]
          rcases cfgBody_t i s.cur.latch (s.accept (encode i)) with ⟨fs, cleared⟩ | same
          · rw [cleared]; exact registerSound_cleared fs
          · rw [same, accept_t]; exact hb.register
        exact .of_register register fun ops pos busy _ =>
          absurd foreign (foreign_of_cfg_busy hs data free h busy)
    · exact hb.of_same_unit hr h (exec_t_of_foreign h foreign) (.inl ne)

end Bounds

theorem boundsInv_of_cleared {s : State} {fs : FrameStore} (cleared : s.t = { UnitT.reset with fs := fs })
    (idle : (s.port ⟨.t, .prod⟩).act = .idle) : BoundsInv s :=
  .of_register (by rw [cleared]; exact registerSound_cleared fs) fun ops pos busy => by rw [idle] at busy; cases busy

/-- Every part of a step keeps the bounds in order, in a machine whose ports are. -/
theorem bounds_keptByParts : KeptByParts fun s => PositionInv s ∧ BoundsInv s where
  model := fun s xs q v ⟨hs, hb⟩ => ⟨hs, hb.congr rfl fun _ _ busy => ⟨busy, rfl⟩⟩
  command := fun i s t ⟨hs, hb⟩ hr h => ⟨exec_keeps_positions hs hr h, exec_keeps_bounds hs hb hr h⟩
  illegal := fun s w ⟨hs, hb⟩ => by
    refine ⟨positions_keptByParts.illegal s w hs, hb.congr (by simp) fun ops pos busy => ?_⟩
    have same := port_of_rejected_busy busy
    rw [same] at busy ⊢
    exact ⟨busy, rfl⟩
  operand := fun s q r v ⟨hs, hb⟩ => by
    refine ⟨positions_keptByParts.operand s q r v hs, hb.congr (setPort_t ..) fun ops pos busy => ?_⟩
    rw [port_setPort] at busy ⊢
    split at busy
    · rename_i e; rw [if_pos e, e]; simpa using busy
    · rw [if_neg ‹_›]; exact ⟨busy, rfl⟩
  write := fun s a n v ⟨hs, hb⟩ =>
    ⟨positions_keptByParts.write s a n v hs, hb.congr (memWrite_t ..) fun _ _ busy => by
      rw [memWrite_port] at busy ⊢; exact ⟨busy, rfl⟩⟩
  reset := fun s ⟨hs, _⟩ =>
    ⟨positions_keptByParts.reset s hs,
      boundsInv_of_cleared (fs := FrameStore.reset) rfl (by rw [port_hardReset]; rfl)⟩

/-- Settles O58: `BoundsInv` is kept by each part of a step; the writer's clause is kept by `exec_writeT_kept`. -/
theorem boundsKept : Obligations.BoundsKept := fun _ _ hs hb h => (bounds_keptByParts.step ⟨hs, hb⟩ h).2

/-! ### After reset -/

/-- Settles O60: after reset every port is idle and every unit cleared. -/
theorem invariantsAtReset : Obligations.InvariantsAtReset := by
  intro p
  refine ⟨machineInv_resetOn p, boundsInv_of_cleared (fs := FrameStore.reset) rfl (by rw [port_resetOn]; rfl), ?_, ?_⟩
  · intro q ops es tries st _ busy; rw [port_resetOn] at busy; cases busy
  · intro q ops es tries st c _ busy; rw [port_resetOn] at busy; cases busy

end Sys2Proof.Machine
end

section
/-! PROOFS for the statements of 20_memory.md: the layout of frame storage (R62), the window (R66, U4), and what a step
that needs client bytes does (R68, R310, U5). -/

namespace Sys2Proof.Machine

/-! ### The layout of frame storage (R62) -/

/-- Region `c` begins `c` regions after the pointer table. -/
theorem regionBase_eq (cap ch bpf c : Nat) : regionBase cap ch bpf c = 8 * ch + c * (cap * bpf) := by
  rw [regionBase, Config.ptrBytes, Nat.mul_assoc]

/-- The allocation is the pointer table and a region for each channel. -/
theorem frameAllocSize_eq (cap ch bpf : Nat) : frameAllocSize cap ch bpf = 8 * ch + ch * (cap * bpf) := by
  rw [frameAllocSize, Config.ptrBytes]; ring

/-- Of runs of `n` places that stand one after another no two share a place. -/
theorem run_unique {n c c' x x' : Nat} (hx : x < n) (hx' : x' < n) (h : c * n + x = c' * n + x') :
    c = c' ∧ x = x' := by
  have pos := Nat.zero_lt_of_lt hx
  have div_mod {d y : Nat} (hy : y < n) (e : c * n + x = d * n + y) : (c * n + x) / n = d ∧ (c * n + x) % n = y :=
    (Nat.div_mod_unique pos).2 ⟨by rw [e]; ring, hy⟩
  obtain ⟨run, place⟩ := div_mod hx rfl
  obtain ⟨run', place'⟩ := div_mod hx' h
  exact ⟨run.symm.trans run', place.symm.trans place'⟩

/-- Settles O46: region `c` is the `c`-th run of `CAP * BPF` bytes after the pointer table. -/
theorem regionLayout : Obligations.RegionLayout := by
  intro cap ch bpf
  simp only [regionBase_eq, frameAllocSize_eq]
  refine ⟨by ring, by ring, fun c => by ring, trivial, fun c x hc hx => ?_, fun c c' x x' hx hx' h => ?_⟩
  · have regions : (c + 1) * (cap * bpf) ≤ ch * (cap * bpf) := Nat.mul_le_mul_right _ hc
    rw [Nat.succ_mul] at regions
    omega
  · exact run_unique hx hx' (by omega)

/-! ### The window (R66, U4) -/

/-- The offset of an address the window can ever show. -/
theorem sub_window_toNat (p : Platform) {i : Nat} (hi : i < Config.maxCap) :
    (p.winBase + BitVec.ofNat 64 i - p.winBase).toNat = i := by
  simp only [Config.maxCap] at hi; bv_omega

/-- An address below B.CAP in the window shows the byte of its offset. -/
theorem windowOffset_open (s : State) {i : Nat} (inMax : i < Config.maxCap) (hi : i < s.b.cap.toNat) :
    s.windowOffset (s.plat.winBase + BitVec.ofNat 64 i) = some i := by
  rw [State.windowOffset, sub_window_toNat _ inMax, if_pos hi]

/-- What the open window shows is not closed. -/
theorem windowClosed_open (s : State) {i : Nat} (inMax : i < Config.maxCap) (hi : i < s.b.cap.toNat) :
    s.windowClosed (s.plat.winBase + BitVec.ofNat 64 i) = false := by
  rw [State.windowClosed, windowOffset_open s inMax hi]; exact Bool.and_false _

/-- An address at or past B.CAP, in what the window can ever show, is closed. -/
theorem windowClosed_past (s : State) {i : Nat} (hi : i < min s.plat.storeB Config.maxCap)
    (past : s.b.cap.toNat ≤ i) : s.windowClosed (s.plat.winBase + BitVec.ofNat 64 i) = true := by
  rw [State.windowClosed, State.windowOffset, sub_window_toNat _ (lt_min_iff.1 hi).2, if_neg (Nat.not_lt.2 past)]
  simpa using hi

/-- On a platform in order the window lies in the address space and meets no register block (R76). -/
theorem window_apart {p : Platform} (wf : p.wellFormed = true) (q : PortId) :
    p.windowMax.base + p.windowMax.size ≤ 2 ^ 64
      ∧ (p.windowMax.base + p.windowMax.size ≤ (portBase p q).toNat
        ∨ (portBase p q).toNat + Config.blockBytes ≤ p.windowMax.base) := by
  simp only [Platform.wellFormed, Bool.and_eq_true, decide_eq_true_iff, List.pairwise_cons, List.all_cons, blocks_eq,
    List.forall_mem_map, range_disjoint_iff, Range.inSpace] at wf
  obtain ⟨⟨⟨space, -⟩, apart, -⟩, -⟩ := wf
  exact ⟨space, apart q (mem_allPorts q)⟩

/-- On a platform in order an address of the window lies in no register block (R76). -/
theorem blockAt_window {p : Platform} (wf : p.wellFormed = true) {i : Nat} (hi : i < min p.storeB Config.maxCap) :
    blockAt p (p.winBase + BitVec.ofNat 64 i) = none := by
  rw [blockAt, List.find?_eq_none]
  intro q _ inBlock
  rw [decide_eq_true_iff, sub_base_lt_iff (portBase_inSpace wf q)] at inBlock
  obtain ⟨space, apart⟩ := window_apart wf q
  simp only [Platform.windowMax] at space apart
  have place : (p.winBase + BitVec.ofNat 64 i).toNat = p.winBase.toNat + i := by bv_omega
  omega

theorem target_window {p : Platform} (wf : p.wellFormed = true) {i : Nat} (hi : i < min p.storeB Config.maxCap) :
    target p (p.winBase + BitVec.ofNat 64 i) = .memory := by
  rw [target, blockAt_window wf hi]

/-- A byte access is an access of its one address. -/
theorem addresses_one (a : U64) : addresses a 1 = [a] := by simp [addresses]

section Window
variable {s : State} {i : Nat}

/-- A client's byte access to the open window is not barred (R66). -/
theorem clientBar_open (wf : s.plat.wellFormed = true) (hi : i < min s.plat.storeB Config.maxCap)
    (shown : i < s.b.cap.toNat) : s.clientBar (s.plat.winBase + BitVec.ofNat 64 i) .w8 = none := by
  have inMax := (lt_min_iff.1 hi).2
  simp [State.clientBar, widthBytes, addresses_one, blockAt_window wf hi, windowClosed_open s inMax shown,
    State.inWindow, windowOffset_open s inMax shown]

/-- A client's byte access to the closed window is barred by name (U4). -/
theorem clientBar_past (wf : s.plat.wellFormed = true) (hi : i < min s.plat.storeB Config.maxCap)
    (past : s.b.cap.toNat ≤ i) : s.clientBar (s.plat.winBase + BitVec.ofNat 64 i) .w8 = some .windowClosed := by
  simp [State.clientBar, widthBytes, addresses_one, blockAt_window wf hi, windowClosed_past s hi past]

end Window

/-! ### Client accesses of memory and of the window (R66, R80) -/

section MemoryAccess
variable {s : State} {a v : U64} {n : Width} {rest : List Input} {r : Refusal}

theorem step_load_memory (h : s.inputs = .load a n :: rest) (addr : target s.plat a = .memory)
    (free : s.clientBar a n = none) :
    step s = .next { s with inputs := rest, loaded := BitVec.ofNat 64 (s.memRead a (widthBytes n)) } := by
  have free : State.clientBar { s with inputs := rest } a n = none := free
  simp only [step_of_input h, runInput, clientLoad, addr, free]
  rfl

theorem step_load_barred (h : s.inputs = .load a n :: rest) (addr : target s.plat a = .memory)
    (bar : s.clientBar a n = some r) : step s = .refused r := by
  have bar : State.clientBar { s with inputs := rest } a n = some r := bar
  simp only [step_of_input h, runInput, clientLoad, addr, bar]

theorem step_store_memory (h : s.inputs = .store a n v :: rest) (addr : target s.plat a = .memory)
    (free : s.clientBar a n = none) :
    step s = .next (State.memWrite { s with inputs := rest } a (widthBytes n) v.toNat) := by
  have free : State.clientBar { s with inputs := rest } a n = none := free
  simp only [step_of_input h, runInput, clientStore, addr, clientStoreMemory, free]

theorem step_store_barred (h : s.inputs = .store a n v :: rest) (addr : target s.plat a = .memory)
    (bar : s.clientBar a n = some r) : step s = .refused r := by
  have bar : State.clientBar { s with inputs := rest } a n = some r := bar
  simp only [step_of_input h, runInput, clientStore, addr, clientStoreMemory, bar]

end MemoryAccess

/-! ### One byte of the open window (R66) -/

theorem memRead_one (s : State) (a : U64) : s.memRead a 1 = (s.clientByte a).toNat := by
  simp [State.memRead, addresses_one, leNumber]

theorem memWrite_one (s : State) (a : U64) (v : Nat) : s.memWrite a 1 v = s.setClientByte a (BitVec.ofNat 8 v) := by
  simp [memWrite_succ, memWrite_zero, leByte]

/-- The open window shows the storage of unit B. -/
theorem clientByte_open {s : State} {a : U64} {o : Nat} (h : s.windowOffset a = some o) :
    s.clientByte a = s.b.byte o := by simp only [State.clientByte, h]

/-- A client byte written through the open window is one storage byte of unit B. -/
theorem setClientByte_open {s : State} {a : U64} {o : Nat} (h : s.windowOffset a = some o) (v : Byte) :
    s.setClientByte a v = { s with b := s.b.setByte o v } := by simp only [State.setClientByte, h]

/-- A client byte written through the open window changes that byte of `B.ST` alone (R66). -/
theorem setClientByte_storageWrite {s : State} {a : U64} {o : Nat} (h : s.windowOffset a = some o) (v : Byte) :
    StorageWriteB s (s.setClientByte a v) o v := by
  have others : ∀ x, s.windowOffset x ≠ some o → (s.setClientByte a v).clientByte x = s.clientByte x :=
    fun x hx => clientByte_set_ne s v (by rintro rfl; exact hx h)
  rw [setClientByte_open h] at others ⊢
  exact ⟨rfl, byte_setByte_same .., fun j hj => byte_setByte_ne _ v hj, rfl, rfl, rfl, others⟩

/-- Storage writes do not see the schedule. -/
theorem StorageWriteB.of_inputs {s t : State} {xs : List Input} {o : Nat} {v : Byte}
    (h : StorageWriteB { s with inputs := xs } t o v) : StorageWriteB s t o v :=
  ⟨h.control, h.written, h.others, h.f, h.t, h.cm, h.bytes⟩

/-- Settles O11: a byte access to the window is barred exactly where the window is closed, and the open window shows
`B.ST`. -/
theorem windowAccess : Obligations.WindowAccess := by
  intro s i v rest wf _ hi
  have addr := target_window wf hi
  have shows := windowOffset_open s (lt_min_iff.1 hi).2
  refine ⟨fun shown h => ?_, fun shown h => ?_, fun past h => ?_, fun past h => ?_⟩
  · rw [step_load_memory h addr (clientBar_open wf hi shown), widthBytes, memRead_one, clientByte_open (shows shown),
      BitVec.ofNat_toNat]
  · refine ⟨_, step_store_memory h addr (clientBar_open wf hi shown), ?_, memWrite_ports ..⟩
    rw [widthBytes, memWrite_one]
    exact .of_inputs (setClientByte_storageWrite (s := { s with inputs := rest }) (shows shown) _)
  · exact step_load_barred h addr (clientBar_past wf hi past)
  · exact step_store_barred h addr (clientBar_past wf hi past)

/-! ### A step that needs client bytes (R68, R310, U5) -/

theorem all_addresses {a : U64} {n : Nat} {f : U64 → Bool} :
    (addresses a n).all f = true ↔ ∀ l, l < n → f (a + BitVec.ofNat 64 l) = true := by simp [addresses]

/-- A guarded step whose bytes are all admitted, one of them in a register block, is refused (U5). -/
theorem guarded_refused {s : State} {a : U64} {n : Nat} (k : State)
    (admitted : ∀ l, l < n → s.admits (a + BitVec.ofNat 64 l) = true) {j : Nat} (hj : j < n)
    (inBlock : blockAt s.plat (a + BitVec.ofNat 64 j) ≠ none) : guarded s a n k = .refused .bufferInPortBlock := by
  have any : (addresses a n).any (fun x => (blockAt s.plat x).isSome) = true :=
    List.any_eq_true.2 ⟨_, mem_addresses.2 ⟨j, hj, rfl⟩, Option.isSome_iff_ne_none.2 inBlock⟩
  rw [guarded, if_pos (all_addresses.2 admitted), if_pos any]

/-- What a busy port's turn does from a position that needs the client bytes `need`: with none needed the step is taken;
otherwise it is guarded by exactly those bytes; and where it leads, the port has left its position. -/
inductive Asks (s : State) : Option (U64 × Nat) → Res → Prop
  | free {t : State} (moved : t.cur.act ≠ s.cur.act) : Asks s none (.next t)
  | access {a : U64} {n : Nat} {t : State} (moved : t.cur.act ≠ s.cur.act) : Asks s (some (a, n)) (guarded s a n t)

section Asks
variable {s v : State} {ops : Latch} {pos pos' : Pos}

theorem goto_moved (was : s.cur.act = .busy ops pos) (ne : pos' ≠ pos) : (v.goto ops pos').cur.act ≠ s.cur.act := by
  rw [was, cur_goto]; exact fun e => ne (Activity.busy.inj e).2

theorem Asks.complete (was : s.cur.act = .busy ops pos) (ret : U32) (code : Code) (r0 r1 r2 r3 : U64) :
    Asks s none (.next (v.completeWith ret code r0 r1 r2 r3)) :=
  .free (by rw [was, cur_completeWith]; exact Activity.noConfusion)

theorem Asks.goto (was : s.cur.act = .busy ops pos) (ne : pos' ≠ pos) : Asks s none (.next (v.goto ops pos')) :=
  .free (goto_moved was ne)

theorem Asks.guarded {a : U64} {n : Nat} (was : s.cur.act = .busy ops pos) (ne : pos' ≠ pos) :
    Asks s (some (a, n)) (guarded s a n (v.goto ops pos')) := .access (goto_moved was ne)

end Asks

/-! ### Where the loops over entries, channels and bytes lead -/

/-- A byte loop goes on to another byte or another channel. -/
theorem nextByte_ne (n c i : Nat) : ¬ ((nextByte n c i).1 = c ∧ (nextByte n c i).2 = i) := by
  unfold nextByte; split <;> simp

theorem fetchPos_cases (ch p k : U32) (es : List Entry) :
    fetchPos ch p k es = .fetch p k es none ∨ fetchPos ch p k es = .fits p k es := by
  unfold fetchPos; split <;> simp

theorem fetchPos_ne_start {ch p k : U32} {es : List Entry} : fetchPos ch p k es ≠ .start := by
  rcases fetchPos_cases ch p k es with e | e <;> rw [e] <;> nofun

theorem gatherPosF_cases (ch p k : U32) (es : List Entry) (c : Nat) :
    gatherPosF ch p k es c = .move p k es c 0 ∨ gatherPosF ch p k es c = .publish p k := by
  unfold gatherPosF; split <;> simp

theorem scatterPosF_cases (ch : U32) (n : Nat) (p k : U32) (es : List Entry) (c i : Nat) :
    scatterPosF ch n p k es c i = .move p k es c i ∨ scatterPosF ch n p k es c i = .publish p k := by
  unfold scatterPosF; split
  · exact .inr rfl
  · split <;> simp

theorem outPos_cases (ch : U32) (es : List Entry) (w : Clip) (c : Nat) :
    outPos ch es w c = .out es w c 0 ∨ outPos ch es w c = .fin := by
  unfold outPos; split <;> simp

theorem fillPos_cases (ch : U32) (n : Nat) (es : List Entry) (cs ce : Int) (c i : Nat) :
    fillPos ch n es cs ce c i = .fill es cs c i ∨ fillPos ch n es cs ce c i = .pub es cs ce true .upd := by
  unfold fillPos; split
  · exact .inr rfl
  · split <;> simp

theorem gapPos_cases (fs : FrameStore) (ops : Latch) (es : List Entry) (cs ce : Int) (c i : Nat) :
    gapPos fs ops es cs ce c i = .gap es cs ce c i ∨ gapPos fs ops es cs ce c i = .fill es cs 0 0
      ∨ gapPos fs ops es cs ce c i = .pub es cs ce true .upd := by
  have fill := fillPos_cases fs.ch (fs.bytes ops.frames) es cs ce 0 0
  unfold gapPos; split
  · exact .inr fill
  · split
    · exact .inl rfl
    · exact .inr fill

/-- The bounds block never leads back to itself. -/
theorem adjustBounds_ne {fs : FrameStore} {ops : Latch} {es : List Entry} {cs ce : Int} :
    adjustBounds fs ops es cs ce ≠ .bounds es := by
  unfold adjustBounds; split
  · nofun
  · split
    · rcases gapPos_cases fs ops es cs ce 0 0 with e | e | e <;> rw [e] <;> nofun
    · nofun

/-- After the first Publish of a WRITE.T comes at most the last one. -/
theorem afterPublish_ne {fs : FrameStore} {ops : Latch} {es : List Entry} {cs ce : Int} {last : Bool} {st : PubStage} :
    afterPublish fs ops es cs ce last ≠ .pub es cs ce last st := by
  cases last with
  | true => nofun
  | false =>
    rcases gapPos_cases fs ops es cs ce 0 0 with e | e | e <;> simp [afterPublish, e]

/-- A step of an attempt of ReadBounds never leads back to itself. -/
theorem readBoundsStep_ne {u : UnitT} {st : ReadStage} : readBoundsStep u st ≠ .more st := by
  cases st with
  | count | start | stop => simp [readBoundsStep]
  | upd => simp only [readBoundsStep]; split <;> nofun

/-- WRITE.F's copy goes on to another byte, or to its publishing step. -/
theorem scatterPosF_next_ne {ch : U32} {m n : Nat} {p k : U32} {es : List Entry} {c i : Nat} :
    scatterPosF ch m p k es (nextByte n c i).1 (nextByte n c i).2 ≠ .move p k es c i := by
  rcases scatterPosF_cases ch m p k es (nextByte n c i).1 (nextByte n c i).2 with e | e <;> rw [e]
  · simpa using nextByte_ne n c i
  · nofun

/-- WRITE.T's copy goes on to another byte, or to its last Publish. -/
theorem fillPos_next_ne {ch : U32} {m n : Nat} {es : List Entry} {cs ce : Int} {c i : Nat} :
    fillPos ch m es cs ce (nextByte n c i).1 (nextByte n c i).2 ≠ .fill es cs c i := by
  rcases fillPos_cases ch m es cs ce (nextByte n c i).1 (nextByte n c i).2 with e | e <;> rw [e]
  · simpa using nextByte_ne n c i
  · nofun

/-- WRITE.T's gap goes on to another byte, or to what follows it. -/
theorem gapPos_next_ne {fs : FrameStore} {ops : Latch} {n : Nat} {es : List Entry} {cs ce : Int} {c i : Nat} :
    gapPos fs ops es cs ce (nextByte n c i).1 (nextByte n c i).2 ≠ .gap es cs ce c i := by
  rcases gapPos_cases fs ops es cs ce (nextByte n c i).1 (nextByte n c i).2 with e | e | e <;> rw [e]
  · simpa using nextByte_ne n c i
  · nofun
  · nofun

section Asks
variable {s v : State} {ops : Latch} {pos : Pos}

theorem Asks.sampleB {ap : Bool} {avail p : U32} (was : s.cur.act = .busy ops .start) :
    Asks s none (.next (sampleB ap avail p ops s)) := by
  unfold Machine.sampleB; split
  · exact .complete was ..
  · split
    · exact .complete was ..
    · exact .goto was nofun

theorem Asks.sampleF {ap : Bool} {avail p : U32} (was : s.cur.act = .busy ops .start) :
    Asks s none (.next (sampleF ap avail p ops s)) := by
  unfold Machine.sampleF; split
  · exact .complete was ..
  · split
    · exact .complete was ..
    · split
      · exact .complete was ..
      · exact .goto was fetchPos_ne_start

theorem Asks.validateWriteT (was : s.cur.act = .busy ops .start) : Asks s none (.next (validateWriteT ops s)) := by
  unfold Machine.validateWriteT; split
  · exact .complete was ..
  · split
    · exact .complete was ..
    · split
      · exact .goto was fetchPos_ne_start
      · exact .complete was ..

theorem Asks.validateReadT (was : s.cur.act = .busy ops .start) : Asks s none (.next (validateReadT ops s)) := by
  unfold Machine.validateReadT; split
  · exact .complete was ..
  · split
    · exact .complete was ..
    · split
      · exact .complete was ..
      · split
        · exact .goto was fetchPos_ne_start
        · exact .complete was ..

/-- A step of FetchList reads the eight bytes of one field (R204). -/
theorem Asks.fetchStep {i : Instr} {ch p k : U32} {es : List Entry} {ptr : Option U64}
    (was : s.cur.act = .busy ops (.fetch p k es ptr)) :
    Asks s (stepAccess i s ops (.fetch p k es ptr)) (fetchStep ch ops p k es ptr s) := by
  cases ptr with
  | none => exact .guarded was nofun
  | some x =>
    refine .guarded was ?_
    rcases fetchPos_cases ch p k (es ++ [_]) with e | e <;> rw [e] <;> simp

/-- A step of ReadBounds needs no client byte, and each attempt counts (R245). -/
theorem Asks.readBounds {es : List Entry} {tries : Nat} {st : ReadStage}
    {done : Option (U64 × U64) → State → State} (was : s.cur.act = .busy ops (.read es tries st))
    (hd : ∀ r, Asks s none (.next (done r s))) : Asks s none (readBounds ops es tries st done s) := by
  unfold Machine.readBounds
  split
  · rename_i more
    exact .goto was fun e => by cases e; exact readBoundsStep_ne more
  · exact hd _
  · split
    · exact .goto was (by simp)
    · exact hd _

theorem Asks.afterReadBounds {es : List Entry} {tries : Nat} {st : ReadStage}
    (was : s.cur.act = .busy ops (.read es tries st)) (r : Option (U64 × U64)) :
    Asks s none (.next (afterReadBounds ops es r s)) := by
  unfold Machine.afterReadBounds; split
  · rename_i lo hi
    refine .goto was ?_
    rcases outPos_cases s.t.fs.ch es (clip s.t.fs.mask ops lo.toInt hi.toInt) 0 with e | e <;> rw [e] <;> nofun
  · exact .goto was nofun

/-- A step of a Publish needs no client byte (R243). -/
theorem Asks.publishStepT {es : List Entry} {cs ce : Int} {last : Bool} {st : PubStage}
    (was : s.cur.act = .busy ops (.pub es cs ce last st)) :
    Asks s none (.next (publishStepT ops es cs ce last st s)) := by
  refine .goto was ?_
  cases st with
  | upd | start | stop => simp [publishStep]
  | count => exact afterPublish_ne

/-! ### Every position of every command -/

theorem Asks.readF {ap : Bool} (was : s.cur.act = .busy ops pos) (fits : copyFPos pos = true) :
    Asks s (stepAccess (.readF ap) s ops pos) (execReadF ap s) := by
  cases pos with
  | start => simp only [execReadF, was]; exact .sampleF was
  | fetch p k es ptr => simp only [execReadF, was]; exact .fetchStep was
  | fits p k es =>
    simp only [execReadF, was]
    split
    · refine .goto was ?_
      rcases gatherPosF_cases s.f.fs.ch p k es 0 with e | e <;> rw [e] <;> nofun
    · exact .complete was ..
  | move p k es c n =>
    simp only [execReadF, was, stepAccess, isWriteF, Bool.false_eq_true, or_false]
    split
    · exact .guarded was (by simp)
    · refine .guarded was ?_
      rcases gatherPosF_cases s.f.fs.ch p k es (c + 1) with e | e <;> rw [e] <;> simp
  | publish p k => simp only [execReadF, was]; exact .complete was ..
  | _ => cases fits

theorem Asks.writeF {ap : Bool} (was : s.cur.act = .busy ops pos) (fits : copyFPos pos = true) :
    Asks s (stepAccess (.writeF ap) s ops pos) (execWriteF ap s) := by
  cases pos with
  | start => simp only [execWriteF, was]; exact .sampleF was
  | fetch p k es ptr => simp only [execWriteF, was]; exact .fetchStep was
  | fits p k es =>
    simp only [execWriteF, was]
    split
    · refine .goto was ?_
      rcases scatterPosF_cases s.f.fs.ch (s.f.fs.bytes k.toNat) p k es 0 0 with e | e <;> rw [e] <;> nofun
    · exact .complete was ..
  | move p k es c n =>
    simp only [execWriteF, was, stepAccess, isWriteF, or_true, if_true]
    exact .guarded was scatterPosF_next_ne
  | publish p k => simp only [execWriteF, was]; exact .complete was ..
  | _ => cases fits

theorem Asks.gettbT (was : s.cur.act = .busy ops pos) (fits : gettbPos pos = true) :
    Asks s (stepAccess .gettbT s ops pos) (execGettbT s) := by
  cases pos with
  | start =>
    simp only [execGettbT, was]
    split
    · exact .complete was ..
    · exact .goto was nofun
  | read es tries st => simp only [execGettbT, was]; exact .readBounds was fun r => .goto was nofun
  | got r => cases r <;> simp only [execGettbT, was] <;> exact .complete was ..
  | _ => cases fits

theorem Asks.writeT (was : s.cur.act = .busy ops pos) (fits : writeTPos pos = true) :
    Asks s (stepAccess .writeT s ops pos) (execWriteT s) := by
  cases pos with
  | start => simp only [execWriteT, was]; exact .validateWriteT was
  | fetch p k es ptr => simp only [execWriteT, was]; exact .fetchStep was
  | fits p k es =>
    simp only [execWriteT, was]
    split
    · exact .goto was nofun
    · exact .complete was ..
  | bounds es => simp only [execWriteT, was]; exact .goto was adjustBounds_ne
  | pub es cs ce last st => simp only [execWriteT, was]; exact .publishStepT was
  | gap es cs ce c n => simp only [execWriteT, was]; exact .goto was gapPos_next_ne
  | fill es cs c n => simp only [execWriteT, was]; exact .guarded was fillPos_next_ne
  | fin => simp only [execWriteT, was]; exact .complete was ..
  | _ => cases fits

theorem Asks.readT (was : s.cur.act = .busy ops pos) (fits : readTPos pos = true) :
    Asks s (stepAccess .readT s ops pos) (execReadT s) := by
  cases pos with
  | start => simp only [execReadT, was]; exact .validateReadT was
  | fetch p k es ptr => simp only [execReadT, was]; exact .fetchStep was
  | fits p k es =>
    simp only [execReadT, was]
    split
    · exact .goto was nofun
    · exact .complete was ..
  | read es tries st => simp only [execReadT, was]; exact .readBounds was (.afterReadBounds was)
  | got r =>
    cases r with
    | none => simp only [execReadT, was]; exact .complete was ..
    | some x => cases fits
  | out es w c n =>
    simp only [execReadT, was, stepAccess]
    split
    · exact .guarded was (by simp)
    · refine .guarded was ?_
      rcases outPos_cases s.t.fs.ch es w (c + 1) with e | e <;> rw [e] <;> simp
  | fin => simp only [execReadT, was]; exact .complete was ..
  | _ => cases fits

/-- The step of a command from any of its positions is guarded by the client bytes `stepAccess` names, and moves. -/
theorem exec_asks {i : Instr} (was : s.cur.act = .busy ops pos) (fits : posFits i pos = true) :
    Asks s (stepAccess i s ops pos) (exec i s) := by
  cases i with
  | allocB | deallocB | resetB | allocF | deallocF | resetF | allocT | deallocT | resetT => cases fits
  | availrB | availwB | advrB | advwB | rvecB | wvecB | availrF | availwF =>
    cases pos with
    | start =>
      simp only [exec, execAvailrB, execAvailwB, execAdvrB, execAdvwB, execRvecB, execWvecB, execAvailrF, execAvailwF,
        was]
      split <;> exact .complete was ..
    | _ => cases fits
  | readB ap | peekB ap | writeB ap =>
    cases pos with
    | start => simp only [exec, execReadB, execPeekB, execWriteB, was]; exact .sampleB was
    | xfer p k n =>
      simp only [exec, execReadB, execPeekB, execWriteB, was, stepAccess]
      split
      · exact .guarded was (by simp)
      · exact .complete was ..
    | _ => cases fits
  | readF ap => exact .readF was fits
  | writeF ap => exact .writeF was fits
  | gettbT => exact .gettbT was fits
  | writeT => exact .writeT was fits
  | readT => exact .readT was fits

end Asks

/-- A step guarded by its client bytes is stuck, refused or taken. -/
theorem Asks.outcomes {s : State} {need : Option (U64 × Nat)} {r : Res} (asks : Asks s need r) :
    (∀ a n j, need = some (a, n) → j < n → s.admits (a + BitVec.ofNat 64 j) = false → r = .next s)
      ∧ (∀ a n j, need = some (a, n) → (∀ l, l < n → s.admits (a + BitVec.ofNat 64 l) = true) → j < n →
          blockAt s.plat (a + BitVec.ofNat 64 j) ≠ none → r = .refused .bufferInPortBlock)
      ∧ ((∀ a n, need = some (a, n) → s.reachable a n) → ∃ t, r = .next t ∧ t.cur.act ≠ s.cur.act) := by
  cases asks with
  | free moved => exact ⟨nofun, nofun, fun _ => ⟨_, rfl, moved⟩⟩
  | access moved =>
    refine ⟨?_, ?_, fun reachable => ⟨_, guarded_reachable _ (reachable _ _ rfl), moved⟩⟩
    · rintro a n j ⟨⟩ hj shut; exact guarded_stuck _ hj shut
    · rintro a n j ⟨⟩ admitted hj inBlock; exact guarded_refused _ admitted hj inBlock

/-- Settles O12: `exec_asks` says which bytes guard the step, and what is taken changes the issuing port alone besides
units and memory. -/
theorem accessOutcomes : Obligations.AccessOutcomes := by
  intro i s ops pos was fits
  obtain ⟨stuck, refused, taken⟩ := (exec_asks was fits).outcomes
  refine ⟨stuck, refused, fun reachable => ?_⟩
  obtain ⟨t, run, moved⟩ := taken reachable
  exact ⟨t, run, exec_elsewhere run, moved⟩

end Sys2Proof.Machine
end

section
/-! PROOFS for the statements of 30_encoding.md about the decoder, the encoder and the command map (R100, R101, R104,
R110, R111). -/

namespace Sys2Proof.Machine

/-! ### A word is its fields (R100, R101) -/

/-- Bits 31:11, 10, 9:8 and 7:0 put together give the word again. -/
theorem fields_append (w : U32) :
    zeroField w ++ BitVec.ofBool (apField w) ++ unitField w ++ opcodeField w = w := by
  have ap : BitVec.ofBool (apField w) = w.extractLsb' 10 1 := by
    ext k hk; obtain rfl : k = 0 := by omega
    simp [apField]
  rw [ap, zeroField, unitField, opcodeField]
  simp only [BitVec.extractLsb'_append_extractLsb'_eq_extractLsb', BitVec.extractLsb'_eq_self]

/-- Words that agree in their fields are the same word. -/
theorem word_ext {w w' : U32} (zero : zeroField w = zeroField w') (ap : apField w = apField w')
    (unit : unitField w = unitField w') (opcode : opcodeField w = opcodeField w') : w = w' := by
  rw [← fields_append w, ← fields_append w', zero, ap, unit, opcode]

theorem zeroField_encode (i : Instr) : zeroField (encode i) = 0 := by
  cases i with
  | readB ap | peekB ap | writeB ap | readF ap | writeF ap => cases ap <;> decide
  | _ => decide

/-! ### What a row of the decoder reads

Each of `decodeB_fields`, `decodeF_fields`, `decodeT_fields` takes the rows with AP by name, then the word that is no
row, then the rows without AP together. -/

/-- The fields OPCODE, UNIT and AP of the word of a command. -/
structure FieldsOf (i : Instr) (op unit : Nat) (ap : Bool) : Prop where
  opcode : (opcodeField (encode i)).toNat = op
  unit : (unitField (encode i)).toNat = unit
  ap : apField (encode i) = ap

theorem withoutAp_ok {ap : Bool} {i j : Instr} (h : withoutAp ap i = .ok j) : ap = false ∧ i = j := by
  cases ap with
  | true => cases h
  | false => cases h; exact ⟨rfl, rfl⟩

/-- A row of a command without AP gives that command when the bit is 0. -/
theorem FieldsOf.withoutAp {i j : Instr} {op unit : Nat} {ap : Bool} (h : withoutAp ap i = .ok j)
    (fields : FieldsOf i op unit false) : FieldsOf j op unit ap := by
  obtain ⟨rfl, rfl⟩ := withoutAp_ok h
  exact fields

theorem decodeB_fields {op : Nat} {ap : Bool} {i : Instr} (h : decodeB op ap = .ok i) : FieldsOf i op 0 ap := by
  unfold decodeB at h
  split at h
  case h_6 | h_7 | h_8 => cases h; cases ap <;> exact ⟨rfl, rfl, rfl⟩
  case h_13 => cases h
  all_goals exact .withoutAp h ⟨rfl, rfl, rfl⟩

theorem decodeF_fields {op : Nat} {ap : Bool} {i : Instr} (h : decodeF op ap = .ok i) : FieldsOf i op 1 ap := by
  unfold decodeF at h
  split at h
  case h_6 | h_7 => cases h; cases ap <;> exact ⟨rfl, rfl, rfl⟩
  case h_8 => cases h
  all_goals exact .withoutAp h ⟨rfl, rfl, rfl⟩

theorem decodeT_fields {op : Nat} {ap : Bool} {i : Instr} (h : decodeT op ap = .ok i) : FieldsOf i op 2 ap := by
  unfold decodeT at h
  split at h
  case h_7 => cases h
  all_goals exact .withoutAp h ⟨rfl, rfl, rfl⟩

/-- A word that decodes has the zero field 0 and the fields of the word of its command. -/
theorem decode_fields {w : U32} {i : Instr} (h : decode w = .ok i) :
    zeroField w = 0 ∧ FieldsOf i (opcodeField w).toNat (unitField w).toNat (apField w) := by
  unfold decode at h
  split at h
  · rename_i zero
    refine ⟨zero, ?_⟩
    split at h
    next unit => rw [unit]; exact decodeB_fields h
    next unit => rw [unit]; exact decodeF_fields h
    next unit => rw [unit]; exact decodeT_fields h
    next => cases h
  · cases h

/-- The decoder reads a command from no word but the encoder's. -/
theorem eq_encode_of_decode {w : U32} {i : Instr} (h : decode w = .ok i) : w = encode i := by
  obtain ⟨zero, fields⟩ := decode_fields h
  exact word_ext (zero.trans (zeroField_encode i).symm) fields.ap.symm
    (BitVec.eq_of_toNat_eq fields.unit.symm) (BitVec.eq_of_toNat_eq fields.opcode.symm)

theorem decode_iff (w : U32) (i : Instr) : decode w = .ok i ↔ w = encode i :=
  ⟨eq_encode_of_decode, fun h => h ▸ decode_encode i⟩

/-! ### The four bytes of a word (R73, R111) -/

theorem wordBytes_append (w : U32) :
    w.extractLsb' 24 8 ++ w.extractLsb' 16 8 ++ w.extractLsb' 8 8 ++ w.extractLsb' 0 8 = w := by
  simp only [BitVec.extractLsb'_append_extractLsb'_eq_extractLsb', BitVec.extractLsb'_eq_self]

theorem decodeBytes_wordBytes (w : U32) : decodeBytes (wordBytes w) = decode w :=
  congrArg decode (wordBytes_append w)

theorem decodeBytes_of_length_ne {bs : List Byte} (h : bs.length ≠ 4) : decodeBytes bs = .error .notOneWord := by
  unfold decodeBytes
  split
  · exact absurd rfl h
  · rfl

/-- Settles O1: a word that decodes agrees in every field with the word of its command. -/
theorem decodeIsEncode : Obligations.DecodeIsEncode :=
  ⟨decode_iff, decodeBytes_wordBytes, fun _ => decodeBytes_of_length_ne⟩

/-- Settles O3: each word is the encoder's word for its command. -/
theorem sampleWords : Obligations.SampleWords :=
  ⟨decode_encode .allocB, decode_encode (.readB true), decode_encode (.writeB false), decode_encode .allocF,
    decode_encode (.writeF true), decode_encode .readT, decode_encode .gettbT⟩

/-! ### The rows of the command map (R104) -/

/-- Every command is the command of a row, with an AP only where the row has one. -/
theorem exists_row (i : Instr) : ∃ r ∈ commandRows, ∃ ap, i = r.cmd (r.hasAp && ap) := by
  cases i with
  | readB ap | peekB ap | writeB ap | readF ap | writeF ap => cases ap <;> decide
  | _ => decide

/-- The word of a row's command is the row's match, with AP in bit 10. -/
theorem encode_row : ∀ r ∈ commandRows, ∀ ap, encode (r.cmd (r.hasAp && ap)) = r.word ||| apBit (r.hasAp && ap) := by
  decide

theorem apField_encode_row : ∀ r ∈ commandRows, ∀ ap, apField (encode (r.cmd (r.hasAp && ap))) = (r.hasAp && ap) := by
  decide

/-- No row's match has the AP bit set. -/
theorem row_word_clear : ∀ r ∈ commandRows, r.word &&& 0xFFFFFBFF = r.word := by decide

theorem row_word : ∀ r ∈ commandRows,
    r.word = r.opcode.zeroExtend 32 ||| BitVec.ofNat 32 (unitNumber r.unit) <<< 8 := by decide

/-- The columns UNIT and port of a row are those of its command. -/
theorem row_ports : ∀ r ∈ commandRows, ∀ ap, unitOf (r.cmd ap) = r.unit ∧ rolesOf (r.cmd ap) = r.roles := by decide

/-! ### The masks (R104) -/

/-- The mask of a row with AP keeps every bit but bit 10. -/
theorem getLsbD_clearMask {k : Nat} (hk : k < 32) : (0xFFFFFBFF : U32).getLsbD k = !decide (k = 10) :=
  (by decide : ∀ k < 32, (0xFFFFFBFF : U32).getLsbD k = !decide (k = 10)) k hk

theorem getLsbD_apBit {ap : Bool} {k : Nat} (hk : k < 32) : (apBit ap).getLsbD k = (ap && decide (k = 10)) :=
  (by decide : ∀ ap, ∀ k < 32, (apBit ap).getLsbD k = (ap && decide (k = 10))) ap k hk

/-- A word is what the mask of a row with AP leaves of it, with its AP bit put back. -/
theorem clear_or_apBit (w : U32) : w &&& 0xFFFFFBFF ||| apBit (apField w) = w := by
  refine BitVec.eq_of_getLsbD_eq fun k hk => ?_
  rw [BitVec.getLsbD_or, BitVec.getLsbD_and, getLsbD_clearMask hk, getLsbD_apBit hk]
  by_cases at_ap : k = 10
  · subst at_ap; simp [apField]
  · simp [at_ap]

theorem clear_apBit (m : U32) (ap : Bool) : (m ||| apBit ap) &&& 0xFFFFFBFF = m &&& 0xFFFFFBFF := by
  refine BitVec.eq_of_getLsbD_eq fun k hk => ?_
  rw [BitVec.getLsbD_and, BitVec.getLsbD_and, BitVec.getLsbD_or, getLsbD_clearMask hk, getLsbD_apBit hk]
  by_cases at_ap : k = 10 <;> simp [at_ap]

theorem mask_of_ap {r : CommandRow} (ap : r.hasAp = true) : r.mask = 0xFFFFFBFF := if_pos ap

theorem and_mask_of_noAp {r : CommandRow} (noAp : r.hasAp = false) (w : U32) : w &&& r.mask = w := by
  have full : r.mask = BitVec.allOnes 32 := if_neg (by rw [noAp]; decide)
  rw [full, BitVec.and_allOnes]

/-- What a row selects is, but for AP, the row's match. -/
theorem word_of_selected {r : CommandRow} (hr : r ∈ commandRows) {w : U32} (h : w &&& r.mask = r.word) :
    r.word = w &&& 0xFFFFFBFF := by
  cases hasAp : r.hasAp with
  | true => rw [← h, mask_of_ap hasAp]
  | false =>
    rw [and_mask_of_noAp hasAp] at h
    rw [h, row_word_clear r hr]

/-- A row selects the word of its command with the word's own AP, and no other. -/
theorem selects_iff {r : CommandRow} (hr : r ∈ commandRows) (w : U32) :
    w &&& r.mask = r.word ↔ w = encode (r.cmd (r.hasAp && apField w)) := by
  rw [encode_row r hr]
  cases hasAp : r.hasAp with
  | true =>
    rw [mask_of_ap hasAp, Bool.true_and]
    constructor
    · intro h; rw [← h, clear_or_apBit]
    · intro h; rw [h, clear_apBit, row_word_clear r hr]
  | false => rw [and_mask_of_noAp hasAp, Bool.false_and]; simp [apBit]

/-- A word decodes to the command of the row that selects it. -/
theorem decode_iff_row (w : U32) (i : Instr) :
    decode w = .ok i ↔ ∃ r ∈ commandRows, w &&& r.mask = r.word ∧ i = r.cmd (r.hasAp && apField w) := by
  rw [decode_iff]
  constructor
  · rintro rfl
    obtain ⟨r, hr, ap, rfl⟩ := exists_row i
    have own := apField_encode_row r hr ap
    have same : (r.hasAp && apField (encode (r.cmd (r.hasAp && ap)))) = (r.hasAp && ap) := by
      rw [own, ← Bool.and_assoc, Bool.and_self]
    exact ⟨r, hr, (selects_iff hr _).2 (by rw [same]), by rw [same]⟩
  · rintro ⟨r, hr, selects, rfl⟩
    exact (selects_iff hr w).1 selects

/-- Settles O2: a row selects exactly the words of its command, and every command has a row. -/
theorem commandMap : Obligations.CommandMap := by
  refine ⟨decode_iff_row, fun w r hr r' hr' h h' => ?_, rfl, row_word, fun r hr ap q => ?_⟩
  · exact (word_of_selected hr h).trans (word_of_selected hr' h').symm
  · obtain ⟨unit, roles⟩ := row_ports r hr ap
    rw [wellFormedOn_iff, unit, roles, eq_comm]

/-! ### Words that are no command (R105, R110) -/

section NoCommand
variable {P Q : U32 → Prop}

/-- A class that holds the word of no row's command holds no word that decodes. -/
theorem decode_ne_of_rows (noRow : ∀ r ∈ commandRows, ∀ ap, ¬ P (encode (r.cmd ap))) :
    ∀ w, P w → ∀ i, decode w ≠ .ok i := by
  intro w hw i h
  obtain ⟨r, hr, ap, rfl⟩ := exists_row i
  rw [eq_encode_of_decode h] at hw
  exact noRow r hr _ hw

/-- `decode_ne_of_rows` for a class given by two properties. -/
theorem decode_ne_of_rows_and (noRow : ∀ r ∈ commandRows, ∀ ap, P (encode (r.cmd ap)) → ¬ Q (encode (r.cmd ap))) :
    ∀ w, P w → Q w → ∀ i, decode w ≠ .ok i := fun w p q =>
  decode_ne_of_rows (P := fun w => P w ∧ Q w) (fun r hr ap h => noRow r hr ap h.1 h.2) w ⟨p, q⟩

end NoCommand

end Sys2Proof.Machine
end

section
/-! PROOFS for the statements of 30_encoding.md about the common checks of issue (R108) and illegal words (R110). -/

namespace Sys2Proof.Machine

/-! ### A rejected word (R108, R290) -/

/-- A word rejected at issue: the port has completed with RET 0 and the code, and units and memory are as before. -/
theorem rejected_completed (s : State) (w : U32) (code : Code) :
    Completed s ((s.accept w).reject code) w 0 (codeNumber code) 0 0 0 0 ∧ SameUnits s ((s.accept w).reject code) := by
  rw [reject_eq]
  refine ⟨⟨(elsewhere_accept s w).trans (elsewhere_completeWith _ 0 code 0 0 0 0), ?_⟩, by simp, by simp, by simp, by simp,
    fun a => clientByte_congr (by simp) (by simp) (by simp) a⟩
  have done := cur_completeWith (s.accept w) 0 code 0 0 0 0
  rwa [cur_accept, State.cur, completeWith_turn, accept_turn] at done

/-- A lifecycle command's step on an idle port is its issue step with its block (R109). -/
theorem exec_cfg_idle {i : Instr} {s : State} (cfg : isData i = false) (idle : s.cur.act = .idle) :
    exec i s = issueCfg i (cfgBody i) s := by
  cases i with
  | allocB | deallocB | resetB | allocF | deallocF | resetF | allocT | deallocT | resetT =>
    simp only [exec, execAllocB, execDeallocB, execResetB, execAllocF, execDeallocF, execResetF, execAllocT,
      execDeallocT, execResetT, idle, cfgBody]
  | _ => cases cfg

/-- A command that fails check 1 or 2 of R108 is rejected with the code of that check. -/
theorem exec_of_commonCheck {i : Instr} {s : State} {code : Code} (idle : s.cur.act = .idle)
    (fails : commonCheck s.turn i = some code) : exec i s = .next ((s.accept (encode i)).reject code) := by
  cases data : isData i with
  | true => rw [exec_data_idle data idle, issueData, fails]
  | false => rw [exec_cfg_idle data idle, issueCfg, fails]

/-- Check 3 of R108: a lifecycle command that passes the first two is rejected while PROD or CONS of its unit is busy. -/
theorem exec_of_dataBusy {i : Instr} {s : State} (cfg : isData i = false) (idle : s.cur.act = .idle)
    (wf : i.wellFormedOn s.turn = true) (busy : s.dataBusy (unitOf i) = true) :
    exec i s = .next ((s.accept (encode i)).reject .busy) := by
  rw [unitOf_eq_of_wellFormed wf] at busy
  rw [exec_cfg_idle cfg idle, issueCfg, commonCheck_of_wellFormed wf]
  exact if_pos busy

theorem commonCheck_unit {q : PortId} {i : Instr} (foreign : unitOf i ≠ q.unit) : commonCheck q i = some .illegal :=
  if_pos foreign

theorem commonCheck_role {q : PortId} {i : Instr} (own : unitOf i = q.unit) (role : q.role ∉ rolesOf i) :
    commonCheck q i = some .port := by
  rw [commonCheck, if_neg (not_not_intro own), if_pos role]

theorem dataBusy_iff {s : State} {u : UnitId} :
    s.dataBusy u = true ↔ (s.port ⟨u, .prod⟩).act ≠ .idle ∨ (s.port ⟨u, .cons⟩).act ≠ .idle := by
  rw [State.dataBusy, Bool.or_eq_true, busy_iff, busy_iff]

/-- A word that is no command, or a command of another unit than the port's, is rejected with E_ILLEGAL. -/
theorem writeCmd_illegal {s : State} {q : PortId} {w : U32} (idle : (s.port q).act = .idle)
    (illegal : ∀ i, decode w = .ok i → unitOf i ≠ q.unit) :
    writeCmd q w s = .next ((State.accept { s with turn := q } w).reject .illegal) := by
  cases word : decode w with
  | error e => simp only [writeCmd, idle, word, issueIllegal]
  | ok i =>
    rw [writeCmd_idle idle word, eq_encode_of_decode word]
    exact exec_of_commonCheck idle (commonCheck_unit (illegal i word))

/-- Settles O4: an illegal word is rejected at issue; of the classes R105 and R110 name, none holds the word of a row's
command. -/
theorem illegalWords : Obligations.IllegalWords := by
  refine ⟨fun s q w idle illegal => ?_, decode_ne_of_rows (by decide), decode_ne_of_rows_and (by decide),
    decode_ne_of_rows_and (by decide), decode_ne_of_rows_and (by decide), decode_ne_of_rows_and (by decide)⟩
  obtain ⟨completed, units⟩ := rejected_completed { s with turn := q } w .illegal
  exact ⟨_, writeCmd_illegal idle illegal, completed, units.b, units.f, units.t, units.cm, units.bytes⟩

/-- Settles O17: each check that fails rejects the word with its code. -/
theorem commonChecks : Obligations.CommonChecks := by
  intro i s idle
  refine ⟨fun foreign => ?_, fun own role => ?_, fun own role cfg busy => ?_, fun w noCommand => ?_⟩
  · exact ⟨_, exec_of_commonCheck idle (commonCheck_unit foreign), rejected_completed s _ .illegal⟩
  · exact ⟨_, exec_of_commonCheck idle (commonCheck_role own role), rejected_completed s _ .port⟩
  · exact ⟨_, exec_of_dataBusy cfg idle (wellFormedOn_iff.2 ⟨own, role⟩) (dataBusy_iff.2 busy),
      rejected_completed s _ .busy⟩
  · exact ⟨_, writeCmd_illegal idle fun j word => absurd word (noCommand j), rejected_completed s w .illegal⟩

end Sys2Proof.Machine
end

section
/-! PROOFS for the statements of 40_index_arithmetic.md: capacity rounding (R130), the mask (R132, R135, R149), the
availability counts (R138, R139), the wrap split (R141), the transfer policy (R140), and one byte of unit B's copies
(R142, R143). -/

namespace Sys2Proof.Machine

/-! ### Capacity rounding (R130) -/

/-- Doubling from `2 ^ (k + 1)` reaches `n` with enough doublings, and passes no power of two that has reached it. -/
theorem pow2From_least (n k fuel : Nat) (reach : n ≤ 2 ^ (k + 1 + fuel)) :
    n ≤ pow2From n (2 ^ (k + 1)) fuel ∧ ∀ e, k + 1 ≤ e → n ≤ 2 ^ e → pow2From n (2 ^ (k + 1)) fuel ≤ 2 ^ e := by
  induction fuel generalizing k with
  | zero => exact ⟨reach, fun e he _ => Nat.pow_le_pow_right (by decide) he⟩
  | succ fuel ih =>
    rw [pow2From]
    split
    next enough => exact ⟨enough, fun e he _ => Nat.pow_le_pow_right (by decide) he⟩
    next short =>
      rw [← Nat.pow_succ']
      obtain ⟨reached, least⟩ := ih (k + 1) (by rwa [Nat.add_right_comm k 1 1, Nat.add_assoc, Nat.add_comm 1])
      refine ⟨reached, fun e he hn => least e ?_ hn⟩
      have ne : e ≠ k + 1 := by rintro rfl; exact short hn
      omega

theorem le_pow2ceil {n : Nat} (hi : n ≤ 2 ^ 31) : n ≤ pow2ceil n := (pow2From_least n 0 30 hi).1

theorem pow2ceil_le {n : Nat} (lo : 2 ≤ n) (hi : n ≤ 2 ^ 31) {e : Nat} (he : n ≤ 2 ^ e) : pow2ceil n ≤ 2 ^ e := by
  have pos : e ≠ 0 := by rintro rfl; omega
  exact (pow2From_least n 0 30 hi).2 e (Nat.pos_of_ne_zero pos) he

/-- Settles O32: `pow2ceil` is one of 2, 4, …, `2^31`, and the first of them that reaches the request. -/
theorem capacityRounding : Obligations.CapacityRounding := by
  intro n lo hi
  obtain ⟨m, hm, power⟩ := pow2ceil_eq n
  refine ⟨⟨m + 1, power⟩, le_pow2ceil hi, fun e he => pow2ceil_le lo hi he, lo.trans (le_pow2ceil hi),
    pow2ceil_le lo hi hi, fun e he => ?_⟩
  exact Nat.le_antisymm (he ▸ pow2ceil_le lo hi he.le) (le_pow2ceil hi)

/-! ### The mask of a capacity (R132, R135, R149) -/

theorem isCapacity_iff {c : U32} : isCapacity c = true ↔ ∃ n, n < 31 ∧ c.toNat = 2 ^ (n + 1) := by
  simp [isCapacity]

section Mask
variable {cap : U32}

theorem capacity_pos (h : isCapacity cap = true) : 0 < cap.toNat := by
  obtain ⟨n, -, e⟩ := isCapacity_iff.1 h
  rw [e]; exact Nat.two_pow_pos _

/-- A capacity divides `2^32` (R132). -/
theorem capacity_dvd (h : isCapacity cap = true) : cap.toNat ∣ 2 ^ 32 := by
  obtain ⟨n, hn, e⟩ := isCapacity_iff.1 h
  rw [e]; exact Nat.pow_dvd_pow 2 (by omega)

theorem mask_toNat (h : isCapacity cap = true) : (cap - 1).toNat = cap.toNat - 1 := by
  have := capacity_pos h
  bv_omega

/-- `&` with the mask is `mod CAP` (R132). -/
theorem and_mask_toNat (h : isCapacity cap = true) (x : U32) : (x &&& (cap - 1)).toNat = x.toNat % cap.toNat := by
  obtain ⟨n, -, e⟩ := isCapacity_iff.1 h
  rw [BitVec.toNat_and, mask_toNat h, e, Nat.and_two_pow_sub_one_eq_mod]

theorem and_mask_of_lt (h : isCapacity cap = true) {x : U32} (hx : x.toNat < cap.toNat) : x &&& (cap - 1) = x :=
  BitVec.eq_of_toNat_eq (by rw [and_mask_toNat h, Nat.mod_eq_of_lt hx])

/-- Because CAP divides `2^32`, a masked 32-bit sum is the sum mod CAP (R132). -/
theorem add_and_mask_toNat (h : isCapacity cap = true) (a b : U32) :
    ((a + b) &&& (cap - 1)).toNat = (a.toNat + b.toNat) % cap.toNat := by
  rw [and_mask_toNat h, BitVec.toNat_add, Nat.mod_mod_of_dvd _ (capacity_dvd h)]

/-- Because CAP divides `2^32`, the masked low word of any integer is the integer mod CAP (R132, R149). -/
theorem ofInt_and_mask_toNat (h : isCapacity cap = true) (z : Int) :
    ((BitVec.ofInt 32 z &&& (cap - 1)).toNat : Int) = z % cap.toNat := by
  have word : ((BitVec.ofInt 32 z).toNat : Int) = z % (2 ^ 32 : Nat) := by
    rw [BitVec.toNat_ofInt, Int.toNat_of_nonneg (Int.emod_nonneg z (by decide))]
  rw [and_mask_toNat h, Int.natCast_emod, word, Int.emod_emod_of_dvd z (Int.natCast_dvd_natCast.2 (capacity_dvd h))]

theorem sub_eq_ofInt (a b : U32) : a - b = BitVec.ofInt 32 ((a.toNat : Int) - b.toNat) :=
  BitVec.eq_of_toNat_eq (by rw [BitVec.toNat_sub, BitVec.toNat_ofInt]; omega)

/-- A cursor a whole capacity further on is at the same ring position. -/
theorem add_cap_and_mask (h : isCapacity cap = true) (x : U32) : (x + cap) &&& (cap - 1) = x &&& (cap - 1) :=
  BitVec.eq_of_toNat_eq (by rw [add_and_mask_toNat h, and_mask_toNat h, Nat.add_mod_right])

end Mask

/-- Settles O31: masked arithmetic is arithmetic modulo the capacity. -/
theorem maskLaws : Obligations.MaskLaws := by
  intro cap h
  refine ⟨and_mask_toNat h, add_and_mask_toNat h, fun a b => ?_, add_and_mask_toNat h, fun t _ => ?_⟩
  · rw [sub_eq_ofInt, ofInt_and_mask_toNat h]
  · exact ofInt_and_mask_toNat h t

/-! ### The two availability counts (R138, R139, R172) -/

theorem availR_le_mask (mask r w : U32) : availR mask r w ≤ mask := by
  rw [BitVec.le_def, availR, BitVec.toNat_and]; exact Nat.and_le_right

/-- A word's bits under a mask and its complement's make up the mask. -/
theorem not_and_add_and (x m : U32) : (~~~x &&& m) + (x &&& m) = m := by
  have apart : (~~~x &&& m) &&& (x &&& m) = 0 := by ext i; simp +contextual
  rw [BitVec.add_eq_or_of_and_eq_zero _ _ apart]
  ext i; simp [← Bool.and_or_distrib_right]

/-- What cannot be read can be written, but for the one place that stays free: `r - w - 1` is the complement of
`w - r`. -/
theorem availW_eq (mask r w : U32) : availW mask r w = mask - availR mask r w := by
  have complement : r - w - 1 = ~~~(w - r) := by bv_omega
  rw [availW, complement, availR, eq_sub_iff_add_eq, not_and_add_and]

theorem availW_toNat (mask r w : U32) : (availW mask r w).toNat = mask.toNat - (availR mask r w).toNat := by
  rw [availW_eq, BitVec.toNat_sub_of_le (availR_le_mask mask r w)]

section Counts
variable {cap r w : U32}

/-- The counts for a read cursor behind the write cursor, in the source's forms (R138, R139). -/
theorem avail_of_lt (h : isCapacity cap = true) (hw : w.toNat < cap.toNat) (lt : r.toNat < w.toNat) :
    availR (cap - 1) r w = w - r ∧ availW (cap - 1) r w = ((r - w + cap) &&& (cap - 1)) - 1 := by
  have readable : availR (cap - 1) r w = w - r := and_mask_of_lt h (by bv_omega)
  have wrapped : (r - w + cap) &&& (cap - 1) = r - w + cap := and_mask_of_lt h (by bv_omega)
  rw [availW_eq, readable, wrapped]
  exact ⟨rfl, by ring⟩

/-- The readable count for a write cursor not ahead of the read cursor is its distance plus CAP, masked (R138). -/
theorem availR_add_cap (h : isCapacity cap = true) : availR (cap - 1) r w = (w - r + cap) &&& (cap - 1) :=
  (add_cap_and_mask h _).symm

/-- The writable count for a write cursor behind the read cursor is their distance less 1 (R139). -/
theorem availW_of_lt (h : isCapacity cap = true) (hr : r.toNat < cap.toNat) (lt : w.toNat < r.toNat) :
    availW (cap - 1) r w = r - w - 1 := and_mask_of_lt h (by bv_omega)

/-- An empty ring has nothing to read and `CAP - 1` places to write (R172). -/
theorem avail_of_empty (mask r : U32) : availR mask r r = 0 ∧ availW mask r r = mask := by
  have none_readable : availR mask r r = 0 := by simp [availR]
  exact ⟨none_readable, by rw [availW_eq, none_readable, sub_zero]⟩

end Counts

/-- Settles O30: the two counts split the mask, and have the source's form in each order of the cursors. -/
theorem availabilityLaws : Obligations.AvailabilityLaws := by
  intro cap r w h
  have pos := capacity_pos h
  have mask := mask_toNat h
  have readable : (availR (cap - 1) r w).toNat ≤ (cap - 1).toNat := availR_le_mask (cap - 1) r w
  have writable := availW_toNat (cap - 1) r w
  refine ⟨by omega, by omega, by omega, fun hr hw => ⟨fun lt => (avail_of_lt h hw lt).1, fun _ => availR_add_cap h,
    fun lt => (avail_of_lt h hw lt).2, fun lt => availW_of_lt h hr lt, ?_⟩⟩
  rintro rfl
  exact avail_of_empty (cap - 1) w

/-! ### The wrap split (R141, R142) -/

/-- Before the wrap point a run goes straight on; after it, it begins again at 0. -/
theorem run_mod_eq {cap p k j : Nat} (hp : p ≤ cap) (hk : k ≤ cap) (hj : j < k) :
    (p + j) % cap = if j < (split cap p k).1 then p + j else j - (split cap p k).1 := by
  unfold split
  split
  next tail => exact Nat.mod_eq_of_lt (by omega)
  next head =>
    have wrapped : p + j = j - min k (cap - p) + cap := by omega
    rw [wrapped, Nat.add_mod_right, Nat.mod_eq_of_lt (by omega)]

/-- The split of a run counted in bytes is the split of its units. -/
theorem split_bytes (cap p k ub : Nat) : (split (cap * ub) (p * ub) (k * ub)).1 = (split cap p k).1 * ub := by
  simp only [split, ← Nat.sub_mul, Nat.mul_min_mul_right]

/-- Settles O33: units and bytes of a run stand in the tail before the wrap point and in the head after it. -/
theorem wrapSplit : Obligations.WrapSplit := by
  intro cap p k hp hk
  refine ⟨rfl, by simp only [split]; omega, by simp only [split]; omega, fun j hj => run_mod_eq hp.le hk hj,
    fun ub i hi => ?_⟩
  rw [ringOffset, run_mod_eq (Nat.mul_le_mul_right ub hp.le) (Nat.mul_le_mul_right ub hk) hi, split_bytes]

/-! ### The transfer policy (R140) -/

section Transfer
variable {avail count : U32} {ap : Bool}

theorem minU32_toNat (a b : U32) : (minU32 a b).toNat = min a.toNat b.toNat := by
  unfold minU32; split <;> omega

/-- Nothing available, or less than asked without AP, is rejected. -/
theorem transferLength_none (h : avail = 0 ∨ avail.toNat < count.toNat ∧ ap = false) :
    transferLength avail count ap = none := by
  unfold transferLength
  split
  next => rfl
  next some_left => rw [if_pos (h.resolve_left some_left)]

/-- Otherwise the smaller of what is available and what is asked is moved. -/
theorem transferLength_some (left : avail ≠ 0) (h : count.toNat ≤ avail.toNat ∨ ap = true) :
    transferLength avail count ap = some (minU32 avail count) := by
  have enough : ¬ (avail.toNat < count.toNat ∧ ap = false) := by
    rintro ⟨less, no_ap⟩
    exact h.elim (fun le => Nat.not_lt.2 le less) (fun yes => by simp [yes] at no_ap)
  rw [transferLength, if_neg left, if_neg enough]

end Transfer

/-- Where the sample step of a copying command of unit B or F goes on (R165 to R167, R215, R216). -/
def sampledPos (i : Instr) (s : State) (p k : U32) : Pos :=
  if unitOf i = .b then .xfer p k 0 else fetchPos s.f.fs.ch p k []

/-- The sample step of a copying command past the checks of its unit and of its list address is its transfer
policy. -/
theorem exec_sample {i : Instr} {s : State} {ops : Latch} {ap : Bool} {avail p : U32}
    (sample : sampling i s = some (ap, avail, p)) (was : s.cur.act = .busy ops .start) (used : s.unitCap (unitOf i) ≠ 0)
    (list : unitOf i = .f → ops.addr ≠ 0) :
    exec i s = .next ((transferLength avail ops.count ap).elim (s.reject .avail)
      fun k => s.goto ops (sampledPos i s p k)) := by
  cases i with
  | readB | peekB | writeB =>
    cases sample
    simp only [exec, execReadB, execPeekB, execWriteB, was, sampleB, if_neg (show s.b.cap ≠ 0 from used)]
    cases transferLength .. <;> rfl
  | readF | writeF =>
    cases sample
    simp only [exec, execReadF, execWriteF, was, sampleF, if_neg (show s.f.fs.cap ≠ 0 from used), if_neg (list rfl)]
    cases transferLength .. <;> rfl
  | _ => cases sample

theorem goto_sameUnits (s : State) (ops : Latch) (pos : Pos) : SameUnits s (s.goto ops pos) :=
  ⟨by simp, by simp, by simp, by simp, fun a => clientByte_congr (by simp) (by simp) (by simp) a⟩

/-- Settles O24: both outcomes of the policy, in the sample step of each of the five commands. -/
theorem transferPolicy : Obligations.TransferPolicy := by
  intro i s ops ap avail p sample was used list
  have sampled := exec_sample sample was used list
  refine ⟨fun rejected => ?_, fun left enough => ?_⟩
  · rw [transferLength_none rejected] at sampled
    exact ⟨_, sampled, completeWith_completed s 0 .avail 0 0 0 0, completeWith_sameUnits s 0 .avail 0 0 0 0⟩
  · rw [transferLength_some left enough] at sampled
    exact ⟨_, _, sampled, minU32_toNat avail ops.count, goto_sameUnits s ops _, goto_standsAt s ops _⟩

/-! ### One byte of unit B's copies (R142, R143) -/

section CopyB
variable {s u : State} {ops : Latch}

/-- A step that changed units and client memory only, and then goes to a position. -/
theorem SameElsewhere.standsAt_goto (h : SameElsewhere s u) (cur : u.cur = s.cur) (pos : Pos) :
    StandsAt s (u.goto ops pos) ops pos := by
  refine ⟨h.trans (elsewhere_goto u ops pos), ?_⟩
  have done := cur_goto u ops pos
  rwa [cur, State.cur, goto_turn, h.turn] at done

theorem clientByte_goto (pos : Pos) (x : U64) : (u.goto ops pos).clientByte x = u.clientByte x :=
  (goto_sameUnits u ops pos).bytes x

/-- One client byte written is a client write of one byte (R66, R67). -/
theorem clientWrite_setClientByte (a : U64) (v : Byte) (wf : Memory.wf s.cm = true) :
    ClientWrite s (s.setClientByte a v) a 1 fun _ => v where
  only := ⟨unitB_eq_of_control (by simp) (by simp) (by simp) (by simp) (by simp), by simp, by simp⟩
  written i hi := by
    obtain rfl := Nat.lt_one_iff.1 hi
    simpa using clientByte_set_same s a v wf
  others x hx := clientByte_set_ne s v fun e => hx ⟨0, Nat.one_pos, by simpa using e⟩

theorem ClientWrite.goto {a : U64} {n : Nat} {v : Nat → Byte} (h : ClientWrite s u a n v) (pos : Pos) :
    ClientWrite s (u.goto ops pos) a n v where
  only := ⟨by simpa using h.only.b, by simpa using h.only.f, by simpa using h.only.t⟩
  written i hi := by rw [clientByte_goto, h.written i hi]
  others x hx := by rw [clientByte_goto, h.others x hx]

/-- One storage byte of unit B written shows at no client address but the window's of that byte. -/
theorem storageWrite_setByte (s : State) (o : Nat) (v : Byte) : StorageWriteB s { s with b := s.b.setByte o v } o v where
  control := rfl
  written := byte_setByte_same ..
  others _ hj := byte_setByte_ne _ v hj
  f := rfl
  t := rfl
  cm := rfl
  bytes a ha := by
    have window : State.windowOffset { s with b := s.b.setByte o v } a = s.windowOffset a :=
      windowOffset_congr rfl rfl a
    unfold State.clientByte
    rw [window]
    split
    next j shown => exact byte_setByte_ne _ v fun e => ha (e ▸ shown)
    next => rfl

theorem StorageWriteB.goto {o : Nat} {v : Byte} (h : StorageWriteB s u o v) (pos : Pos) :
    StorageWriteB s (u.goto ops pos) o v where
  control := by simpa using h.control
  written := by simpa using h.written
  others j hj := by simpa using h.others j hj
  f := by simpa using h.f
  t := by simpa using h.t
  cm := by simpa using h.cm
  bytes a ha := by rw [clientByte_goto, h.bytes a ha]

variable {p k : U32} {i : Nat}

theorem UnitB.offset_eq (u : UnitB) (p : U32) (i : Nat) : u.offset p i = (p.toNat + i) % u.cap.toNat := by
  rw [UnitB.offset, ringOffset, Nat.mul_one, Nat.mul_one]

/-- A byte step of `RingToClient` whose client address can be accessed (R142). -/
theorem copyOutB_reachable (room : s.reachable (ops.addr + BitVec.ofNat 64 i) 1) (wf : Memory.wf s.cm = true) :
    ∃ t, copyOutB ops p k i s = .next t ∧ StandsAt s t ops (.xfer p k (i + 1))
      ∧ ClientWrite s t (ops.addr + BitVec.ofNat 64 i) 1 fun _ => s.b.byte ((p.toNat + i) % s.b.cap.toNat) := by
  rw [← UnitB.offset_eq]
  exact ⟨_, guarded_reachable _ room, (elsewhere_setClientByte s _ _).standsAt_goto (by simp) _,
    (clientWrite_setClientByte _ _ wf).goto _⟩

/-- A byte step of `ClientToRing` whose client address can be accessed (R143). -/
theorem copyInB_reachable (room : s.reachable (ops.addr + BitVec.ofNat 64 i) 1) :
    ∃ t, copyInB ops p k i s = .next t ∧ StandsAt s t ops (.xfer p k (i + 1))
      ∧ StorageWriteB s t ((p.toNat + i) % s.b.cap.toNat) (s.clientByte (ops.addr + BitVec.ofNat 64 i)) := by
  rw [← UnitB.offset_eq]
  exact ⟨_, guarded_reachable _ room, (elsewhere_with_b s (s.b.setByte _ _)).standsAt_goto rfl _,
    (storageWrite_setByte s _ _).goto _⟩

/-- READ.B, PEEK.B and WRITE.B with a byte left to move take a byte step of their copy (R165 to R167). -/
theorem exec_copyB (was : s.cur.act = .busy ops (.xfer p k i)) (left : i < k.toNat) (ap : Bool) :
    exec (.readB ap) s = copyOutB ops p k i s ∧ exec (.peekB ap) s = copyOutB ops p k i s
      ∧ exec (.writeB ap) s = copyInB ops p k i s := by
  simp only [exec, execReadB, execPeekB, execWriteB, was, if_pos left, and_self]

end CopyB

/-- Settles O25: the byte steps of the three copies of unit B. -/
theorem copyBytesB : Obligations.CopyBytesB := by
  intro s ops p k i ap was left room
  obtain ⟨readB, peekB, writeB⟩ := exec_copyB was left ap
  rw [readB, peekB, writeB]
  exact ⟨fun wf => ⟨copyOutB_reachable room wf, copyOutB_reachable room wf⟩, copyInB_reachable room⟩

end Sys2Proof.Machine
end

section
/-! PROOFS for the statements of 41_byte_ring.md about commands of one block and about the last step of a copy (R160 to
R171): a completion with unit B as the block leaves it, then each command's block. -/

namespace Sys2Proof.Machine

/-! ### Client bytes and unit B (R66, R67) -/

section ClientBytes
variable {s t : State}

/-- A client byte the window does not show is client memory's. -/
theorem clientByte_outside {a : U64} (outside : s.windowOffset a = none) : s.clientByte a = zeroGet s.cm a.toNat := by
  simp only [State.clientByte, outside]

/-- A step that leaves the other units and client memory alone changes nothing but unit B. -/
theorem onlyUnitB_of_fields (f : t.f = s.f) (tt : t.t = s.t) (cm : t.cm = s.cm) : OnlyUnitB s t :=
  ⟨f, tt, cm, fun _ before after => by rw [clientByte_outside before, clientByte_outside after, cm]⟩

/-- The cursors of unit B show at no client address. -/
theorem clientByte_of_cursors {rpos wpos : U32} (plat : t.plat = s.plat) (cm : t.cm = s.cm)
    (unit : t.b = { s.b with rpos := rpos, wpos := wpos }) (a : U64) : t.clientByte a = s.clientByte a := by
  simp only [State.clientByte, State.windowOffset, UnitB.byte, plat, cm, unit]

end ClientBytes

/-! ### Completion with a new unit B (R14) -/

section Completion
variable {s v : State} {w : U32}

/-- A step that changed units and memory and the word in CMD only, and then completes. -/
theorem SameElsewhere.completed (h : SameElsewhere s v) (cur : v.cur = { s.cur with cmd := w }) (ret : U32)
    (code : Code) (r0 r1 r2 r3 : U64) :
    Completed s (v.completeWith ret code r0 r1 r2 r3) w ret (codeNumber code) r0 r1 r2 r3 := by
  refine ⟨h.trans (elsewhere_completeWith v ret code r0 r1 r2 r3), ?_⟩
  have done := cur_completeWith v ret code r0 r1 r2 r3
  rwa [cur, State.cur, completeWith_turn, h.turn] at done

/-- A lifecycle command of unit B that leaves the unit `u` and completes in its issue step. -/
theorem issued_unitB {t : State} {u : UnitB} {ret : U32} {code : Code} {r0 : U64}
    (h : t = State.completeWith { s.accept w with b := u } ret code r0 0 0 0) :
    Completed s t w ret (codeNumber code) r0 0 0 0 ∧ OnlyUnitB s t ∧ t.b = u := by
  subst h
  exact ⟨((elsewhere_accept s w).trans (elsewhere_with_b _ u)).completed (cur_accept s w) ..,
    onlyUnitB_of_fields (by simp) (by simp) (by simp), completeWith_b ..⟩

/-- A data command of unit B that moves a cursor and completes. -/
theorem completed_cursors {t : State} {rpos wpos ret : U32}
    (h : t = State.complete { s with b := { s.b with rpos := rpos, wpos := wpos } } ret .ok) :
    Completed s t s.cur.cmd ret 0 0 0 0 0 ∧ OnlyUnitB s t ∧ t.b = { s.b with rpos := rpos, wpos := wpos }
      ∧ ∀ a, t.clientByte a = s.clientByte a := by
  have completed : Completed s t s.cur.cmd ret 0 0 0 0 0 := by
    rw [h]; exact (elsewhere_with_b s { s.b with rpos := rpos, wpos := wpos }).completed rfl ret .ok 0 0 0 0
  have only : OnlyUnitB s t := by
    rw [h]; exact onlyUnitB_of_fields (completeWith_f ..) (completeWith_t ..) (completeWith_cm ..)
  have unit : t.b = { s.b with rpos := rpos, wpos := wpos } := by rw [h]; exact completeWith_b ..
  exact ⟨completed, only, unit, clientByte_of_cursors completed.elsewhere.plat only.cm unit⟩

end Completion

/-! ### Lifecycle (R160 to R162) -/

section Lifecycle
variable {s : State} {ops : Latch}

/-- A lifecycle command on an idle port that accepts it, with PROD and CONS of its unit idle, runs its block (R109). -/
theorem exec_cfg_run {i : Instr} (cfg : isData i = false) (idle : s.cur.act = .idle)
    (wf : i.wellFormedOn s.turn = true) (free : s.dataBusy (unitOf i) = false) :
    exec i s = .next (cfgBody i s.cur.latch (s.accept (encode i))) := by
  rw [unitOf_eq_of_wellFormed wf] at free
  rw [exec_cfg_idle cfg idle, issueCfg, commonCheck_of_wellFormed wf]
  exact if_neg (by rw [free]; decide)

theorem dataBusy_eq_false {u : UnitId} (prod : (s.port ⟨u, .prod⟩).act = .idle)
    (cons : (s.port ⟨u, .cons⟩).act = .idle) : s.dataBusy u = false := by
  rw [Bool.eq_false_iff]
  exact fun busy => (dataBusy_iff.1 busy).elim (absurd prod) (absurd cons)

/-- `cap_ok` as a statement (R131). -/
theorem capOk_iff {n : U32} : capOk n = true ↔ 2 ≤ n.toNat ∧ n.toNat ≤ 2 ^ 31 := by
  rw [capOk, Bool.and_eq_true, decide_eq_true_iff, decide_eq_true_iff]; rfl

/-- "free B.ST" and all control fields 0 is the unit after reset. -/
theorem release_eq (u : UnitB) : u.release = UnitB.reset u.gen := rfl

theorem allocBBody_fits (valid : capOk ops.count = true) (fits : pow2ceil ops.count.toNat ≤ s.plat.storeB) :
    allocBBody ops s = State.completeWith { s with b := s.b.allocated (pow2ceil ops.count.toNat) } 1 .ok
      (BitVec.ofNat 64 (pow2ceil ops.count.toNat)) 0 0 0 := by
  rw [allocBBody, if_pos valid, if_pos fits]

theorem allocBBody_nomem (valid : capOk ops.count = true) (large : s.plat.storeB < pow2ceil ops.count.toNat) :
    allocBBody ops s = State.complete { s with b := UnitB.reset s.b.gen } 0 .nomem := by
  rw [allocBBody, if_pos valid, if_neg (Nat.not_le.2 large), release_eq]

theorem allocBBody_config (invalid : ¬ capOk ops.count = true) :
    allocBBody ops s = State.complete { s with b := UnitB.reset s.b.gen } 0 .config := by
  rw [allocBBody, if_neg invalid, release_eq]

/-- A new array holds one free value a byte (U1). -/
theorem byte_allocated (u : UnitB) (cap i : Nat) :
    (u.allocated cap).byte i = Config.freshByte (u.gen + 1) i := rfl

end Lifecycle

/-- Settles O19: the three ways through the block of ALLOC.B. -/
theorem allocB : Obligations.AllocB := by
  intro s idle turn prod cons
  have run := exec_cfg_run (i := .allocB) rfl idle (by rw [turn]; rfl) (dataBusy_eq_false prod cons)
  rw [cfgBody] at run
  refine ⟨fun lo hi fits => ?_, fun lo hi large => ?_, fun out => ?_⟩
  · rw [allocBBody_fits (capOk_iff.2 ⟨lo, hi⟩) (by rwa [accept_plat]), accept_b] at run
    obtain ⟨completed, only, unit⟩ := issued_unitB (s := s) (w := encode .allocB) rfl
    refine ⟨_, run, completed, only, ?_⟩
    rw [unit]
    exact ⟨pow2ceil_toNat _, rfl, rfl, rfl, rfl, byte_allocated s.b _⟩
  · rw [allocBBody_nomem (capOk_iff.2 ⟨lo, hi⟩) (by rwa [accept_plat]), accept_b] at run
    exact ⟨_, run, issued_unitB rfl⟩
  · have invalid : ¬ capOk s.cur.latch.count = true := fun valid => by
      obtain ⟨lo, hi⟩ := capOk_iff.1 valid
      exact out.elim (Nat.not_lt.2 lo) (Nat.not_lt.2 hi)
    rw [allocBBody_config invalid, accept_b] at run
    exact ⟨_, run, issued_unitB rfl⟩

/-- Settles O20: the blocks of DEALLOC.B and RESET.B on any idle unit. -/
theorem deallocResetB : Obligations.DeallocResetB := by
  intro s idle turn prod cons
  have free := dataBusy_eq_false prod cons
  constructor
  · have run := exec_cfg_run (i := .deallocB) rfl idle (by rw [turn]; rfl) free
    rw [cfgBody, deallocBBody, release_eq, accept_b] at run
    exact ⟨_, run, issued_unitB rfl⟩
  · have run := exec_cfg_run (i := .resetB) rfl idle (by rw [turn]; rfl) free
    rw [cfgBody, resetBBody, accept_b] at run
    obtain ⟨completed, only, unit⟩ := issued_unitB (s := s) (w := encode .resetB) rfl
    exact ⟨_, run, completed, only, unit, clientByte_of_cursors completed.elsewhere.plat only.cm unit⟩

/-! ### Data commands of one block (R163, R164, R168 to R171)

The block of each command on an allocated unit, for the two sides of the ring together. -/

section OneBlock
variable {s : State} {ops : Latch}

theorem exec_availB (was : s.cur.act = .busy ops .start) (used : s.b.cap ≠ 0) :
    exec .availrB s = .next (s.complete (availR s.b.mask s.b.rpos s.b.wpos) .ok)
      ∧ exec .availwB s = .next (s.complete (availW s.b.mask s.b.rpos s.b.wpos) .ok) := by
  simp only [exec, execAvailrB, execAvailwB, was, if_neg used, and_self]

theorem exec_advB (was : s.cur.act = .busy ops .start) (used : s.b.cap ≠ 0) :
    exec .advrB s = .next (State.complete { s with b := { s.b with rpos := adv s.b.mask s.b.rpos ops.count } } 1 .ok)
      ∧ exec .advwB s =
          .next (State.complete { s with b := { s.b with wpos := adv s.b.mask s.b.wpos ops.count } } 1 .ok) := by
  simp only [exec, execAdvrB, execAdvwB, was, if_neg used, and_self]

theorem exec_vecB (was : s.cur.act = .busy ops .start) (used : s.b.cap ≠ 0) :
    exec .rvecB s = .next (completeSpans s s.b.rpos (availR s.b.mask s.b.rpos s.b.wpos))
      ∧ exec .wvecB s = .next (completeSpans s s.b.wpos (availW s.b.mask s.b.rpos s.b.wpos)) := by
  simp only [exec, execRvecB, execWvecB, was, if_neg used, and_self]

theorem lt_cap_of_le_mask {n cap : U32} (used : cap ≠ 0) (h : n ≤ cap - 1) : n.toNat < cap.toNat := by
  have pos : cap.toNat ≠ 0 := fun e => used (BitVec.eq_of_toNat_eq e)
  bv_omega

theorem availW_le_mask (mask r w : U32) : availW mask r w ≤ mask := by
  rw [BitVec.le_def, availW, BitVec.toNat_and]; exact Nat.and_le_right

end OneBlock

/-- A completion leaves its value in RET. -/
theorem Completed.cur_ret {s t : State} {cmd ret : U32} {code : BitVec 8} {r0 r1 r2 r3 : U64}
    (h : Completed s t cmd ret code r0 r1 r2 r3) : t.cur.ret = ret := by
  rw [State.cur, h.elsewhere.turn, h.port]

/-- Settles O21: the two counts are masked, so below the capacity. -/
theorem availabilityQueriesB : Obligations.AvailabilityQueriesB := by
  intro s ops was used
  obtain ⟨availr, availw⟩ := exec_availB was used
  have completed := fun ret => completeWith_completed s ret .ok 0 0 0 0
  have units := fun ret => completeWith_sameUnits s ret .ok 0 0 0 0
  refine ⟨⟨_, availr, completed _, units _, fun mask => ?_⟩,
    ⟨_, availw, completed _, units _, fun mask => ?_, fun empty => ?_⟩⟩
  · rw [complete_eq, (completed _).cur_ret]
    exact lt_cap_of_le_mask used (mask ▸ availR_le_mask ..)
  · rw [complete_eq, (completed _).cur_ret]
    exact lt_cap_of_le_mask used (mask ▸ availW_le_mask ..)
  · rw [complete_eq, (completed _).cur_ret, empty]
    exact (avail_of_empty ..).2

/-- Settles O22: each of the two moves its own cursor by the masked sum. -/
theorem advanceB : Obligations.AdvanceB := by
  intro s ops was used
  obtain ⟨advr, advw⟩ := exec_advB was used
  exact ⟨⟨_, advr, completed_cursors rfl⟩, ⟨_, advw, completed_cursors rfl⟩⟩

/-! ### The spans (R141, R170) -/

/-- The completion of RVEC.B and WVEC.B with the lengths of the two spans as words. -/
theorem completeSpans_eq (s : State) {p n first : U32}
    (split_at : first.toNat = min n.toNat (s.b.cap.toNat - p.toNat)) :
    completeSpans s p n = s.completeWith 1 .ok (if first = 0 then 0 else s.plat.winBase + p.zeroExtend 64)
      (first.zeroExtend 64) (if n = first then 0 else s.plat.winBase) ((n - first).zeroExtend 64) := by
  have rest : n.toNat - first.toNat = (n - first).toNat := by bv_omega
  have no_first : 0 < first.toNat ↔ ¬ first = 0 := by bv_omega
  have no_rest : 0 < (n - first).toNat ↔ ¬ n = first := by bv_omega
  simp only [completeSpans, split, ← split_at, rest, no_first, no_rest, ite_not]
  simp only [BitVec.ofNat_toNat, BitVec.zeroExtend]

/-- Settles O23: both commands complete with the spans of their own run. -/
theorem vectorsB : Obligations.VectorsB := by
  intro s ops p n first was _ used split_at
  obtain ⟨rvec, wvec⟩ := exec_vecB was used
  constructor
  · rintro rfl rfl
    rw [rvec, completeSpans_eq s split_at]
    exact ⟨_, rfl, completeWith_sameUnits .., completeWith_completed ..⟩
  · rintro rfl rfl
    rw [wvec, completeSpans_eq s split_at]
    exact ⟨_, rfl, completeWith_sameUnits .., completeWith_completed ..⟩

/-! ### The last step of a copy (R165 to R167) -/

/-- READ.B, PEEK.B and WRITE.B with no byte left complete; READ.B and WRITE.B publish their cursor. -/
theorem exec_publishB {s : State} {ops : Latch} {p k : U32} {i : Nat} (was : s.cur.act = .busy ops (.xfer p k i))
    (moved : k.toNat ≤ i) (ap : Bool) :
    exec (.readB ap) s = .next (State.complete { s with b := { s.b with rpos := adv s.b.mask p k } } k .ok)
      ∧ exec (.peekB ap) s = .next (s.complete k .ok)
      ∧ exec (.writeB ap) s =
          .next (State.complete { s with b := { s.b with wpos := adv s.b.mask p k } } k .ok) := by
  simp only [exec, execReadB, execPeekB, execWriteB, was, if_neg (Nat.not_lt.2 moved), and_self]

/-- Settles O26: the cursor published is the masked advance of the run's position. -/
theorem publishB : Obligations.PublishB := by
  intro s ops p k i ap was moved
  obtain ⟨readB, peekB, writeB⟩ := exec_publishB was moved ap
  exact ⟨⟨_, readB, completed_cursors rfl⟩,
    ⟨_, peekB, completeWith_completed s k .ok 0 0 0 0, completeWith_sameUnits s k .ok 0 0 0 0⟩,
    ⟨_, writeB, completed_cursors rfl⟩⟩

end Sys2Proof.Machine
end

section
/-! PROOFS for O34: which side of unit B a step of its commands writes, and where the writable and the readable part of
the ring stand (R175). -/

namespace Sys2Proof.Machine

/-! ### Ring positions (R132, R138) -/

/-- From one ring position, places less than a whole capacity on are all different. -/
theorem ring_place_inj {cap p i j : Nat} (hi : i < cap) (hj : j < cap) (same : (p + i) % cap = (p + j) % cap) : i = j :=
  Nat.ModEq.eq_of_lt_of_lt (Nat.ModEq.add_left_cancel' p same) hi hj

/-- A masked advance by a number of places (R135). -/
theorem add_ofNat_and_mask_toNat {cap : U32} (h : isCapacity cap = true) (p : U32) {i : Nat} (hi : i < 2 ^ 32) :
    ((p + BitVec.ofNat 32 i) &&& (cap - 1)).toNat = (p.toNat + i) % cap.toNat := by
  rw [add_and_mask_toNat h, BitVec.toNat_ofNat, Nat.mod_eq_of_lt hi]

/-- Reading on for the readable count leads from the read cursor to the write cursor. -/
theorem readable_reaches {cap : U32} (h : isCapacity cap = true) (r w : U32) :
    (r.toNat + (availR (cap - 1) r w).toNat) % cap.toNat = w.toNat % cap.toNat := by
  have sum : r + (w - r) = w := by ring
  rw [availR, and_mask_toNat h, Nat.add_mod_mod, ← add_and_mask_toNat h, sum, and_mask_toNat h]

/-- A place free to write is none of those that can be read: it comes after all of them, and both are fewer than a
whole capacity from the read cursor. -/
theorem writable_ne_readable {cap r w : U32} (h : isCapacity cap = true) {i j : Nat}
    (hi : i < (availW (cap - 1) r w).toNat) (hj : j < (availR (cap - 1) r w).toNat) :
    (w + BitVec.ofNat 32 i) &&& (cap - 1) ≠ (r + BitVec.ofNat 32 j) &&& (cap - 1) := by
  obtain ⟨counts, -, -, -⟩ := availabilityLaws cap r w h
  intro same
  have same := congrArg BitVec.toNat same
  rw [add_ofNat_and_mask_toNat h w (by omega), add_ofNat_and_mask_toNat h r (by omega), Nat.add_mod,
    ← readable_reaches h r w, ← Nat.add_mod, Nat.add_assoc] at same
  have place := ring_place_inj (by omega) (by omega) same
  omega

/-! ### The side a step writes (R175) -/

/-- What a step of a data command leaves of unit B: the unit as it was; one client byte of the step's access written by
a consumer; one storage byte of its run written by a producer; or the cursor of its own side moved. -/
inductive SideStep (i : Instr) (s t : State) : Prop where
  | same (unit : t.b = s.b)
  | client (ops : Latch) (pos : Pos) (a : U64) (v : Byte) (side : rolesOf i = [.cons])
      (was : s.cur.act = .busy ops pos) (access : stepAccess i s ops pos = some (a, 1))
      (unit : t.b = (s.setClientByte a v).b)
  | store (ops : Latch) (p k : U32) (n : Nat) (v : Byte) (side : rolesOf i = [.prod])
      (was : s.cur.act = .busy ops (.xfer p k n)) (left : n < k.toNat)
      (unit : t.b = s.b.setByte (s.b.offset p n) v)
  | consumed (rpos : U32) (side : rolesOf i = [.cons]) (unit : t.b = { s.b with rpos := rpos })
  | produced (wpos : U32) (side : rolesOf i = [.prod]) (unit : t.b = { s.b with wpos := wpos })

section Sides
variable {i : Instr} {s t : State}

theorem SideStep.issueData {j : Instr} (h : issueData j s = .next t) : SideStep i s t := by
  unfold Machine.issueData at h
  split at h <;> cases h <;> exact .same (by simp)

theorem SideStep.sampleB {ap : Bool} {avail p : U32} {ops : Latch} : SideStep i s (sampleB ap avail p ops s) := by
  unfold Machine.sampleB
  split
  · exact .same (completeWith_b ..)
  · split
    · exact .same (completeWith_b ..)
    · exact .same (goto_b ..)

theorem SideStep.guarded {v : State} {a : U64} {n : Nat} (h : guarded s a n v = .next t) (go : SideStep i s v) :
    SideStep i s t := by
  rcases guarded_next h with rfl | rfl
  · exact go
  · exact .same rfl

theorem SideStep.copyOutB {ops : Latch} {p k : U32} {n : Nat} (side : rolesOf i = [.cons])
    (was : s.cur.act = .busy ops (.xfer p k n)) (left : n < k.toNat) (h : copyOutB ops p k n s = .next t) :
    SideStep i s t :=
  .guarded h (.client ops _ _ _ side was (by rw [stepAccess, if_pos left]) (goto_b ..))

theorem SideStep.copyInB {ops : Latch} {p k : U32} {n : Nat} (side : rolesOf i = [.prod])
    (was : s.cur.act = .busy ops (.xfer p k n)) (left : n < k.toNat) (h : copyInB ops p k n s = .next t) :
    SideStep i s t :=
  .guarded h (.store ops p k n _ side was left (goto_b ..))

/-- Every step of a data command of unit B keeps to its own side. -/
theorem exec_sideStep (own : unitOf i = .b) (data : isData i = true) (h : exec i s = .next t) : SideStep i s t := by
  cases i with
  | availrB | availwB | rvecB | wvecB =>
    simp only [exec, execAvailrB, execAvailwB, execRvecB, execWvecB] at h
    split at h
    · exact .issueData h
    · split at h <;> cases h <;> exact .same (completeWith_b ..)
    · cases h
  | advrB =>
    simp only [exec, execAdvrB] at h
    split at h
    · exact .issueData h
    · split at h <;> cases h
      · exact .same (completeWith_b ..)
      · exact .consumed _ rfl (completeWith_b ..)
    · cases h
  | advwB =>
    simp only [exec, execAdvwB] at h
    split at h
    · exact .issueData h
    · split at h <;> cases h
      · exact .same (completeWith_b ..)
      · exact .produced _ rfl (completeWith_b ..)
    · cases h
  | readB ap =>
    simp only [exec, execReadB] at h
    split at h
    · exact .issueData h
    · cases h; exact .sampleB
    · split at h
      · exact .copyOutB rfl ‹_› ‹_› h
      · cases h; exact .consumed _ rfl (completeWith_b ..)
    · cases h
  | peekB ap =>
    simp only [exec, execPeekB] at h
    split at h
    · exact .issueData h
    · cases h; exact .sampleB
    · split at h
      · exact .copyOutB rfl ‹_› ‹_› h
      · cases h; exact .same (completeWith_b ..)
    · cases h
  | writeB ap =>
    simp only [exec, execWriteB] at h
    split at h
    · exact .issueData h
    · cases h; exact .sampleB
    · split at h
      · exact .copyInB rfl ‹_› ‹_› h
      · cases h; exact .produced _ rfl (completeWith_b ..)
    · cases h
  | allocB | deallocB | resetB => cases data
  | _ => cases own

theorem isData_of_role {r : Role} (side : rolesOf i = [r]) (ne : r ≠ .cfg) : isData i = true := by
  simp [isData, side, ne]

/-- A consumer leaves the write cursor alone. -/
theorem SideStep.wpos (h : SideStep i s t) (side : rolesOf i = [.cons]) : t.b.wpos = s.b.wpos := by
  cases h with
  | same unit | consumed _ _ unit => rw [unit]
  | client _ _ _ _ _ _ _ unit => rw [unit, setClientByte_wpos]
  | store _ _ _ _ _ other | produced _ other => rw [side] at other; cases other

/-- A producer leaves the read cursor alone. -/
theorem SideStep.rpos (h : SideStep i s t) (side : rolesOf i = [.prod]) : t.b.rpos = s.b.rpos := by
  cases h with
  | same unit | produced _ _ unit => rw [unit]
  | store _ _ _ _ _ _ _ _ unit => rw [unit, setByte_rpos]
  | client _ _ _ _ other | consumed _ other => rw [side] at other; cases other

/-- A consumer whose client bytes lie outside the window leaves the storage alone. -/
theorem SideStep.storage (h : SideStep i s t) (side : rolesOf i = [.cons])
    (outside : ∀ ops pos a n, s.cur.act = .busy ops pos → stepAccess i s ops pos = some (a, n) → s.outsideWindow a n) :
    t.b.st = s.b.st := by
  cases h with
  | same unit | consumed _ _ unit => rw [unit]
  | client ops pos a v _ was access unit =>
    rw [unit, setClientByte_b_of_outside s a v (outside ops pos a 1 was access)]
  | store _ _ _ _ _ other | produced _ other => rw [side] at other; cases other

/-- A producer changes no storage byte but the one its position names. -/
theorem SideStep.changed (h : SideStep i s t) (side : rolesOf i = [.prod]) {j : Nat} (ne : t.b.byte j ≠ s.b.byte j) :
    ∃ ops p k n, s.cur.act = .busy ops (.xfer p k n) ∧ n < k.toNat ∧ j = (p.toNat + n) % s.b.cap.toNat := by
  cases h with
  | same unit => exact absurd (by rw [unit]) ne
  | produced _ _ unit => exact absurd (by rw [unit]; rfl) ne
  | store ops p k n v _ was left unit =>
    refine ⟨ops, p, k, n, was, left, ?_⟩
    by_contra elsewhere
    rw [← UnitB.offset_eq] at elsewhere
    exact ne (by rw [unit, byte_setByte_ne _ v elsewhere])
  | client _ _ _ _ other | consumed _ other => rw [side] at other; cases other

end Sides

/-- Settles O34: by `exec_sideStep`, a step of a command of unit B keeps to its own side. -/
theorem sideSeparationB : Obligations.SideSeparationB := by
  refine ⟨fun i s t own h => ⟨fun side => ?_, fun side outside => ?_, fun side => ?_⟩, fun ap s t j h ne => ?_,
    fun cap r w i j h hi hj => writable_ne_readable h hi hj⟩
  · exact (exec_sideStep own (isData_of_role side nofun) h).wpos side
  · exact (exec_sideStep own (isData_of_role side nofun) h).storage side outside
  · exact (exec_sideStep own (isData_of_role side nofun) h).rpos side
  · exact (exec_sideStep rfl rfl h).changed rfl ne

end Sys2Proof.Machine
end

section
/-! PROOFS for O27, O28 and O29: the runs of READ.B, PEEK.B and WRITE.B with no step of another agent between, and the
round trip through the ring (R165 to R167, R173, R355). Each run is a sample step, one byte step for each byte, for which
`CopiedOut` and `CopiedIn` are the invariant, and the publishing step of O26. -/

namespace Sys2Proof.Machine

/-! ### Several steps of one command -/

section Times
variable {i : Instr} {s t u : State} {n : Nat}

theorem execTimes_first (first : exec i s = .next t) : execTimes (n + 1) i s = execTimes n i t := by
  simp only [execTimes, first]

theorem execTimes_last (steps : execTimes n i s = .next t) (last : exec i t = .next u) :
    execTimes (n + 1) i s = .next u := by
  induction n generalizing s with
  | zero =>
    cases steps
    rw [execTimes_first last]; rfl
  | succ n ih =>
    rw [execTimes] at steps
    split at steps
    next v first => rw [execTimes_first first]; exact ih steps
    all_goals cases steps

/-- The steps of a copy: its sample step, its byte steps, its publishing step (R355). -/
theorem execTimes_copy {v : State} (first : exec i s = .next t) (steps : execTimes n i t = .next u)
    (last : exec i u = .next v) : execTimes (2 + n) i s = .next v := by
  rw [Nat.add_comm, execTimes_first first]
  exact execTimes_last steps last

end Times

/-! ### Where a port stands, step after step -/

section Standing
variable {s t u : State} {ops : Latch} {pos pos' : Pos}

theorem StandsAt.act (h : StandsAt s t ops pos) : t.cur.act = .busy ops pos := by
  rw [State.cur, h.elsewhere.turn, h.port]

theorem StandsAt.trans (h : StandsAt s t ops pos) (k : StandsAt t u ops pos') : StandsAt s u ops pos' where
  elsewhere := h.elsewhere.trans k.elsewhere
  port := by
    have port := k.port
    rwa [h.elsewhere.turn, h.port] at port

theorem StandsAt.completed (h : StandsAt s t ops pos) {ret : U32} {code : BitVec 8} {r0 r1 r2 r3 : U64}
    (k : Completed t u t.cur.cmd ret code r0 r1 r2 r3) : Completed s u s.cur.cmd ret code r0 r1 r2 r3 where
  elsewhere := h.elsewhere.trans k.elsewhere
  port := by
    have port := k.port
    rwa [State.cur, h.elsewhere.turn, h.port] at port

end Standing

/-! ### Client runs (R67) -/

section ClientRun
variable {s t u : State} {a : U64} {n : Nat}

/-- Which client bytes RBC can access depends on the platform and on where the window is. -/
theorem reachable_congr (plat : t.plat = s.plat) (cap : t.b.cap = s.b.cap) (h : s.reachable a n) : t.reachable a n :=
  fun i hi => by rw [admits_congr plat cap, plat]; exact h i hi

theorem outsideWindow_congr (plat : t.plat = s.plat) (cap : t.b.cap = s.b.cap) (h : s.outsideWindow a n) :
    t.outsideWindow a n := fun i hi => by rw [windowOffset_congr plat cap]; exact h i hi

theorem reachable_one (h : s.reachable a n) {i : Nat} (hi : i < n) : s.reachable (a + BitVec.ofNat 64 i) 1 := by
  intro j hj
  obtain rfl := Nat.lt_one_iff.1 hj
  simpa using h i hi

/-- Addresses of a run shorter than the address space are all different. -/
theorem run_address_inj {i j : Nat} (hi : i < 2 ^ 64) (hj : j < 2 ^ 64)
    (same : a + BitVec.ofNat 64 i = a + BitVec.ofNat 64 j) : i = j := by
  have same := congrArg BitVec.toNat (add_left_cancel same)
  rwa [BitVec.toNat_ofNat, BitVec.toNat_ofNat, Nat.mod_eq_of_lt hi, Nat.mod_eq_of_lt hj] at same

theorem inRun_one {x : U64} : inRun a 1 x ↔ x = a := by simp [inRun]

/-- Nothing has been written of a run of no bytes. -/
theorem ClientWrite.nil (only : ClientOnly s t) (bytes : ∀ x, t.clientByte x = s.clientByte x) (v : Nat → Byte) :
    ClientWrite s t a 0 v := ⟨only, nofun, fun x _ => bytes x⟩

/-- A run written and then its next byte is a run one byte longer. -/
theorem ClientWrite.snoc {v : Nat → Byte} (h : ClientWrite s t a n v)
    (next : ClientWrite t u (a + BitVec.ofNat 64 n) 1 fun _ => v n) (hn : n < 2 ^ 64) : ClientWrite s u a (n + 1) v where
  only := ⟨next.only.b.trans (by rw [h.only.b]), next.only.f.trans h.only.f, next.only.t.trans h.only.t⟩
  written i hi := by
    by_cases last : i = n
    · rw [last]; simpa using next.written 0 Nat.one_pos
    · have earlier : a + BitVec.ofNat 64 i ≠ a + BitVec.ofNat 64 n :=
        fun same => last (run_address_inj (by omega) hn same)
      rw [next.others _ (mt inRun_one.1 earlier), h.written i (by omega)]
  others x hx := by
    rw [next.others x fun ⟨j, hj, e⟩ => hx ⟨n, Nat.lt_succ_self n, inRun_one.1 ⟨j, hj, e⟩⟩,
      h.others x fun ⟨j, hj, e⟩ => hx ⟨j, Nat.lt_succ_of_lt hj, e⟩]

end ClientRun

/-! ### The sample step (R140) -/

/-- Unit B with the mask of its capacity (R22, R23): what the runs need of a unit in order. -/
structure UnitB.Masked (u : UnitB) : Prop where
  cap : isCapacity u.cap = true
  mask : u.mask = u.cap - 1

theorem UnitB.masked_of_sound {store : Nat} {u : UnitB} (h : u.sound store = true) (used : u.cap ≠ 0) : u.Masked :=
  have order := UnitB.inOrder_of_sound h used
  ⟨order.cap, order.mask⟩

/-- Place `i` of a run from ring position `p`, as the masked sum and as the index of R142. -/
theorem UnitB.Masked.place {u : UnitB} (h : u.Masked) (p : U32) {i : Nat} (hi : i < 2 ^ 32) :
    ((p + BitVec.ofNat 32 i) &&& u.mask).toNat = (p.toNat + i) % u.cap.toNat := by
  rw [h.mask, add_ofNat_and_mask_toNat h.cap p hi]

/-- A copy of `k` bytes before its sample step, which finds `avail` units: enough are available, and the client's bytes
can be accessed and lie outside the window (R140, R345). -/
structure CopyReady (s : State) (ops : Latch) (ap : Bool) (avail k : U32) : Prop where
  was : s.cur.act = .busy ops .start
  masked : s.b.Masked
  left : avail ≠ 0
  enough : ops.count.toNat ≤ avail.toNat ∨ ap = true
  length : k.toNat = min avail.toNat ops.count.toNat
  room : s.reachable ops.addr k.toNat
  outside : s.outsideWindow ops.addr k.toNat

/-- The sample step of a copy that is ready goes to its first byte. -/
theorem CopyReady.sample {i : Instr} {s : State} {ops : Latch} {ap : Bool} {avail k p : U32}
    (ready : CopyReady s ops ap avail k) (own : unitOf i = .b) (found : sampling i s = some (ap, avail, p)) :
    exec i s = .next (s.goto ops (.xfer p k 0)) := by
  have used : s.unitCap (unitOf i) ≠ 0 := by rw [own]; exact isCapacity_ne_zero ready.masked.cap
  have moved : minU32 avail ops.count = k := BitVec.eq_of_toNat_eq (by rw [minU32_toNat, ready.length])
  rw [exec_sample found ready.was used (by rw [own]; nofun), transferLength_some ready.left ready.enough, moved,
    Option.elim_some, sampledPos, if_pos own]

/-! ### The bytes of READ.B and PEEK.B (R142) -/

/-- `n` bytes after its sample step in state `s`, a READ.B or PEEK.B has written the ring's bytes from position `p` on to
the client, and nothing else. -/
structure CopiedOut (s t : State) (ops : Latch) (p k : U32) (n : Nat) : Prop where
  stands : StandsAt s t ops (.xfer p k n)
  unit : t.b = s.b
  wf : Memory.wf t.cm = true
  write : ClientWrite s t ops.addr n fun i => s.b.byte ((p.toNat + i) % s.b.cap.toNat)

section CopyOut
variable {s t : State} {ops : Latch} {p k : U32} {n : Nat}

theorem CopiedOut.start (s : State) (ops : Latch) (p k : U32) (wf : Memory.wf s.cm = true) :
    CopiedOut s (s.goto ops (.xfer p k 0)) ops p k 0 where
  stands := goto_standsAt s ops _
  unit := goto_b ..
  wf := by rwa [goto_cm]
  write := .nil ⟨by simp, goto_f .., goto_t ..⟩ (clientByte_goto _) _

/-- One byte step outside the window. -/
theorem CopiedOut.step (h : CopiedOut s t ops p k n) (left : n < k.toNat) (room : s.reachable ops.addr k.toNat)
    (outside : s.outsideWindow ops.addr k.toNat) :
    ∃ u, copyOutB ops p k n t = .next u ∧ CopiedOut s u ops p k (n + 1) := by
  have plat := h.stands.elsewhere.plat
  have cap : t.b.cap = s.b.cap := by rw [h.unit]
  have shut := outsideWindow_congr plat cap outside n left
  refine ⟨_, guarded_reachable _ (reachable_one (reachable_congr plat cap room) left), ?_⟩
  exact {
    stands := h.stands.trans ((elsewhere_setClientByte t _ _).standsAt_goto (setClientByte_cur ..) _)
    unit := by rw [goto_b, setClientByte_b _ _ _ shut, h.unit]
    wf := by rw [goto_cm, setClientByte_cm _ _ _ shut]; exact memPut_wf _ _ h.wf
    write := by
      refine h.write.snoc ?_ (by omega)
      rw [h.unit, UnitB.offset_eq]
      exact (clientWrite_setClientByte _ _ h.wf).goto _ }

/-- All byte steps of a command that copies out. -/
theorem copyOutB_run {i : Instr}
    (copies : ∀ t n, t.cur.act = .busy ops (.xfer p k n) → n < k.toNat → exec i t = copyOutB ops p k n t)
    (wf : Memory.wf s.cm = true) (room : s.reachable ops.addr k.toNat) (outside : s.outsideWindow ops.addr k.toNat)
    (n : Nat) (hn : n ≤ k.toNat) :
    ∃ t, execTimes n i (s.goto ops (.xfer p k 0)) = .next t ∧ CopiedOut s t ops p k n := by
  induction n with
  | zero => exact ⟨_, rfl, .start s ops p k wf⟩
  | succ n ih =>
    obtain ⟨t, steps, copied⟩ := ih (by omega)
    obtain ⟨u, last, copied'⟩ := copied.step hn room outside
    exact ⟨u, execTimes_last steps (by rw [copies t n copied.stands.act hn, last]), copied'⟩

end CopyOut

/-- The outcome of a READ.B or PEEK.B of `k` bytes that leaves the read cursor at `rpos`. -/
structure ReadOut (s u : State) (ops : Latch) (k rpos : U32) : Prop where
  completed : Completed s u s.cur.cmd k 0 0 0 0 0
  unit : u.b = { s.b with rpos := rpos }
  f : u.f = s.f
  t : u.t = s.t
  bytes : ∀ i, i < k.toNat → u.clientByte (ops.addr + BitVec.ofNat 64 i) =
    s.b.byte ((s.b.rpos + BitVec.ofNat 32 i) &&& s.b.mask).toNat
  others : ∀ x, ¬ inRun ops.addr k.toNat x → u.clientByte x = s.clientByte x

/-- A publishing step after the last byte ends the run. -/
theorem CopiedOut.finish {s t u : State} {ops : Latch} {k rpos : U32} (h : CopiedOut s t ops s.b.rpos k k.toNat)
    (masked : s.b.Masked) (completed : Completed t u t.cur.cmd k 0 0 0 0 0) (unit : u.b = { t.b with rpos := rpos })
    (f : u.f = t.f) (tt : u.t = t.t) (bytes : ∀ a, u.clientByte a = t.clientByte a) : ReadOut s u ops k rpos where
  completed := h.stands.completed completed
  unit := by rw [unit, h.unit]
  f := f.trans h.write.only.f
  t := tt.trans h.write.only.t
  bytes i hi := by rw [bytes, h.write.written i hi, masked.place _ (by omega)]
  others x hx := by rw [bytes, h.write.others x hx]

section ReadRun
variable {s : State} {ops : Latch} {ap : Bool} {k : U32}

/-- The run of READ.B (R165). -/
theorem readB_run (ready : CopyReady s ops ap (availR s.b.mask s.b.rpos s.b.wpos) k) (wf : Memory.wf s.cm = true) :
    ∃ u, execTimes (2 + k.toNat) (.readB ap) s = .next u ∧ ReadOut s u ops k ((s.b.rpos + k) &&& s.b.mask) := by
  obtain ⟨t, steps, copied⟩ := copyOutB_run (i := .readB ap) (fun t n was left => (exec_copyB was left ap).1) wf
    ready.room ready.outside k.toNat le_rfl
  obtain ⟨⟨u, last, completed, only, unit, bytes⟩, -, -⟩ :=
    publishB t ops s.b.rpos k k.toNat ap copied.stands.act le_rfl
  exact ⟨u, execTimes_copy (ready.sample rfl rfl) steps last,
    copied.finish ready.masked completed (by rw [unit, copied.unit]) only.f only.t bytes⟩

/-- The run of PEEK.B (R166). -/
theorem peekB_run (ready : CopyReady s ops ap (availR s.b.mask s.b.rpos s.b.wpos) k) (wf : Memory.wf s.cm = true) :
    ∃ u, execTimes (2 + k.toNat) (.peekB ap) s = .next u ∧ ReadOut s u ops k s.b.rpos := by
  obtain ⟨t, steps, copied⟩ := copyOutB_run (i := .peekB ap) (fun t n was left => (exec_copyB was left ap).2.1) wf
    ready.room ready.outside k.toNat le_rfl
  obtain ⟨-, ⟨u, last, completed, units⟩, -⟩ := publishB t ops s.b.rpos k k.toNat ap copied.stands.act le_rfl
  exact ⟨u, execTimes_copy (ready.sample rfl rfl) steps last,
    copied.finish ready.masked completed (by rw [units.b, copied.unit]) units.f units.t units.bytes⟩

end ReadRun

/-- Settles O27: the runs of READ.B and PEEK.B differ in the cursor they leave. -/
theorem readPeekBRun : Obligations.ReadPeekBRun := by
  intro s ops ap k was sound used wf left enough length room outside
  have ready : CopyReady s ops ap (availR s.b.mask s.b.rpos s.b.wpos) k :=
    ⟨was, UnitB.masked_of_sound sound used, left, enough, length, room, outside⟩
  obtain ⟨t, read, out⟩ := readB_run ready wf
  obtain ⟨u, peek, out'⟩ := peekB_run ready wf
  exact ⟨⟨t, read, out.completed, out.unit, out.f, out.t, out.bytes, out.others⟩,
    ⟨u, peek, out'.completed, out'.unit, out'.f, out'.t, out'.bytes, out'.others⟩⟩

/-! ### The bytes of WRITE.B (R143) -/

/-- `n` bytes after its sample step in state `s`, a WRITE.B has stored the client's bytes at the ring's positions from
`p` on, and changed nothing else. -/
structure CopiedIn (s t : State) (ops : Latch) (p k : U32) (n : Nat) : Prop where
  stands : StandsAt s t ops (.xfer p k n)
  control : t.b = { s.b with st := t.b.st }
  written : ∀ i, i < n → t.b.byte ((p.toNat + i) % s.b.cap.toNat) = s.clientByte (ops.addr + BitVec.ofNat 64 i)
  others : ∀ j, (∀ i, i < n → j ≠ (p.toNat + i) % s.b.cap.toNat) → t.b.byte j = s.b.byte j
  f : t.f = s.f
  cm : t.cm = s.cm
  t : t.t = s.t

section CopyIn
variable {s t : State} {ops : Latch} {p k : U32} {n : Nat}

theorem CopiedIn.start (s : State) (ops : Latch) (p k : U32) : CopiedIn s (s.goto ops (.xfer p k 0)) ops p k 0 where
  stands := goto_standsAt s ops _
  control := by simp
  written := nofun
  others j _ := by rw [goto_b]
  f := goto_f ..
  t := goto_t ..
  cm := goto_cm ..

/-- One byte step from outside the window, of a run no longer than the ring. -/
theorem CopiedIn.step (h : CopiedIn s t ops p k n) (left : n < k.toNat) (fits : k.toNat ≤ s.b.cap.toNat)
    (room : s.reachable ops.addr k.toNat) (outside : s.outsideWindow ops.addr k.toNat) :
    ∃ u, copyInB ops p k n t = .next u ∧ CopiedIn s u ops p k (n + 1) := by
  have plat := h.stands.elsewhere.plat
  have cap : t.b.cap = s.b.cap := by rw [h.control]
  have source : t.clientByte (ops.addr + BitVec.ofNat 64 n) = s.clientByte (ops.addr + BitVec.ofNat 64 n) := by
    rw [clientByte_outside (outside n left), clientByte_outside (outsideWindow_congr plat cap outside n left), h.cm]
  obtain ⟨u, run, stands, write⟩ :=
    copyInB_reachable (p := p) (k := k) (reachable_one (reachable_congr plat cap room) left)
  rw [cap, source] at write
  refine ⟨u, run, {
    stands := h.stands.trans stands
    control := write.control.trans (by rw [h.control])
    written := fun i hi => ?_
    others := fun j hj => ?_
    f := write.f.trans h.f
    t := write.t.trans h.t
    cm := write.cm.trans h.cm }⟩
  · by_cases last : i = n
    · rw [last, write.written]
    · have earlier : (p.toNat + i) % s.b.cap.toNat ≠ (p.toNat + n) % s.b.cap.toNat :=
        fun same => last (ring_place_inj (by omega) (by omega) same)
      rw [write.others _ earlier, h.written i (by omega)]
  · rw [write.others j (hj n (Nat.lt_succ_self n)), h.others j fun i hi => hj i (Nat.lt_succ_of_lt hi)]

/-- All byte steps of WRITE.B. -/
theorem copyInB_run (ap : Bool) (fits : k.toNat ≤ s.b.cap.toNat) (room : s.reachable ops.addr k.toNat)
    (outside : s.outsideWindow ops.addr k.toNat) (n : Nat) (hn : n ≤ k.toNat) :
    ∃ t, execTimes n (.writeB ap) (s.goto ops (.xfer p k 0)) = .next t ∧ CopiedIn s t ops p k n := by
  induction n with
  | zero => exact ⟨_, rfl, .start s ops p k⟩
  | succ n ih =>
    obtain ⟨t, steps, copied⟩ := ih (by omega)
    obtain ⟨u, last, copied'⟩ := copied.step hn fits room outside
    exact ⟨u, execTimes_last steps (by rw [(exec_copyB copied.stands.act hn ap).2.2, last]), copied'⟩

end CopyIn

/-- Settles O28: the sample step, the byte steps and the publishing step of WRITE.B. -/
theorem writeBRun : Obligations.WriteBRun := by
  intro s ops ap k was sound used left enough length room outside
  have masked := UnitB.masked_of_sound sound used
  have ready : CopyReady s ops ap (availW s.b.mask s.b.rpos s.b.wpos) k :=
    ⟨was, masked, left, enough, length, room, outside⟩
  have below : (availW s.b.mask s.b.rpos s.b.wpos).toNat < s.b.cap.toNat :=
    lt_cap_of_le_mask used (masked.mask ▸ availW_le_mask ..)
  obtain ⟨t, steps, copied⟩ := copyInB_run (p := s.b.wpos) ap (by omega) room outside k.toNat le_rfl
  obtain ⟨-, -, u, last, completed, only, unit, -⟩ :=
    publishB t ops s.b.wpos k k.toNat ap copied.stands.act le_rfl
  have byte : u.b.byte = t.b.byte := by rw [unit]; rfl
  refine ⟨u, execTimes_copy (ready.sample rfl rfl) steps last, copied.stands.completed completed, ?_,
    only.f.trans copied.f, only.t.trans copied.t, only.cm.trans copied.cm, fun i hi => ?_, fun j hj => ?_⟩
  · rw [unit, copied.control]
  · rw [byte, masked.place _ (by omega), copied.written i hi]
  · rw [byte]
    exact copied.others j fun i hi => by rw [← masked.place _ (by omega)]; exact hj i hi

/-! ### The round trip (R173) -/

/-- No capacity is below 2 (R22). -/
theorem capacity_two_le {cap : U32} (h : isCapacity cap = true) : 2 ≤ cap.toNat := by
  obtain ⟨n, -, e⟩ := isCapacity_iff.1 h
  rw [e]; exact Nat.le_pow (Nat.succ_pos n)

/-- As many units as were written to an empty ring can be read from it. -/
theorem availR_of_written {u : UnitB} (h : u.Masked) (r : U32) {n : U32} (hn : n.toNat < u.cap.toNat) :
    availR u.mask r ((r + n) &&& u.mask) = n := by
  have reach := readable_reaches h.cap r ((r + n) &&& (u.cap - 1))
  rw [add_and_mask_toNat h.cap, Nat.mod_mod] at reach
  obtain ⟨-, below, -, -⟩ := availabilityLaws u.cap r ((r + n) &&& (u.cap - 1)) h.cap
  rw [h.mask]
  exact BitVec.eq_of_toNat_eq (ring_place_inj below hn reach)

/-- A READ.B of exactly the bytes that can be read, none included, returns their number and delivers them. -/
theorem readB_all {s : State} {ops : Latch} {n : U32} (ap : Bool) (was : s.cur.act = .busy ops .start)
    (masked : s.b.Masked) (wf : Memory.wf s.cm = true) (count : ops.count = n)
    (avail : availR s.b.mask s.b.rpos s.b.wpos = n) (below : s.b.rpos &&& s.b.mask = s.b.rpos)
    (room : s.reachable ops.addr n.toNat) (outside : s.outsideWindow ops.addr n.toNat) :
    ∃ m u, execTimes m (.readB ap) s = .next u ∧ (u.port s.turn).act = .idle ∧ (u.port s.turn).ret = n
      ∧ u.b = { s.b with rpos := (s.b.rpos + n) &&& s.b.mask }
      ∧ ∀ i, i < n.toNat → u.clientByte (ops.addr + BitVec.ofNat 64 i) =
          s.b.byte ((s.b.rpos + BitVec.ofNat 32 i) &&& s.b.mask).toNat := by
  rcases eq_or_ne n 0 with rfl | some_bytes
  · have used : s.unitCap (unitOf (.readB ap)) ≠ 0 := isCapacity_ne_zero masked.cap
    have rejected := exec_sample (i := .readB ap) rfl was used nofun
    rw [transferLength_none (.inl avail), Option.elim_none] at rejected
    have unmoved : (s.b.rpos + 0) &&& s.b.mask = s.b.rpos := by rw [add_zero, below]
    have completed := completeWith_completed s 0 .avail 0 0 0 0
    refine ⟨1, _, execTimes_last rfl rejected, ?_, ?_, ?_, nofun⟩
    · exact congrArg Port.act completed.port
    · exact congrArg Port.ret completed.port
    · rw [unmoved]; exact completeWith_b ..
  · have ready : CopyReady s ops ap (availR s.b.mask s.b.rpos s.b.wpos) n :=
      ⟨was, masked, by rwa [avail], .inl (by rw [avail, count]), by rw [avail, count, Nat.min_self], room, outside⟩
    obtain ⟨u, run, out⟩ := readB_run ready wf
    exact ⟨_, u, run, congrArg Port.act out.completed.port, congrArg Port.ret out.completed.port, out.unit, out.bytes⟩

/-- Settles O29: WRITE.B leaves the ring holding its `n` bytes alone, and READ.B of all of them empties it. -/
theorem roundTripB : Obligations.RoundTripB := by
  intro s src dst apW apR n sound used wf empty small prod cons srcCount dstCount srcRoom srcOutside dstRoom dstOutside
  have order := UnitB.inOrder_of_sound sound used
  have masked := UnitB.masked_of_sound sound used
  have mask : s.b.mask.toNat = s.b.cap.toNat - 1 := by rw [order.mask, mask_toNat order.cap]
  have room : 0 < s.b.mask.toNat := by have := capacity_two_le order.cap; omega
  have some_free : s.b.mask ≠ 0 := by intro zero; rw [zero] at room; exact absurd room (by decide)
  have free : availW s.b.mask s.b.rpos s.b.wpos = s.b.mask := by rw [empty]; exact (avail_of_empty ..).2
  have cursor : s.b.rpos &&& s.b.mask = s.b.rpos := by
    rw [order.mask]; exact and_mask_of_lt order.cap (by have := order.rpos; omega)
  obtain ⟨t, wrote, completed, unit, -, -, cm, stored, -⟩ :=
    writeBRun { s with turn := ⟨.b, .prod⟩ } src apW n prod sound used (by rw [free]; exact some_free)
      (.inl (by rw [free, srcCount]; omega)) (by rw [free, srcCount]; omega) srcRoom srcOutside
  have plat := completed.elsewhere.plat
  have cap : t.b.cap = s.b.cap := by rw [unit]
  have waiting : (t.port ⟨.b, .cons⟩).act = .busy dst .start := by
    rw [completed.elsewhere.ports ⟨.b, .cons⟩ nofun]; exact cons
  have readable : availR t.b.mask t.b.rpos t.b.wpos = n := by
    rw [unit, ← empty]; exact availR_of_written masked s.b.rpos (by omega)
  obtain ⟨m, u, read, idle, ret, unit', bytes⟩ := readB_all (s := { t with turn := ⟨.b, .cons⟩ }) apR waiting
    (by rw [unit]; exact ⟨masked.cap, masked.mask⟩) (by rw [cm]; exact wf) dstCount readable
    (by rw [unit]; exact cursor) (reachable_congr plat cap dstRoom) (outsideWindow_congr plat cap dstOutside)
  refine ⟨_, m, t, u, wrote, ?_, ?_, read, idle, ret, ?_, fun i hi => ?_⟩
  · exact congrArg Port.act completed.port
  · exact congrArg Port.ret completed.port
  · rw [unit', unit]; exact congrArg (fun r => (r + n) &&& s.b.mask) empty
  · have place : (t.b.rpos + BitVec.ofNat 32 i) &&& t.b.mask = (s.b.wpos + BitVec.ofNat 32 i) &&& s.b.mask := by
      rw [unit, ← empty]
    rw [bytes i hi, place]
    exact stored i hi

end Sys2Proof.Machine
end

section
/-! PROOFS for the statements of 42_frame_ring.md about commands of one block (R210 to R214, with R248 and R249 of unit
T): the storage ALLOC.F hands out, then a completion with the unit as the block leaves it. -/

namespace Sys2Proof.Machine

/-! ### The storage ALLOC.F and ALLOC.T hand out (R201, R210, R247) -/

theorem memGet_none_of_ne {m : Memory} {a : Nat} (h : ∀ c ∈ m, c.1 ≠ a) : memGet m a = none := by
  induction m with
  | nil => rfl
  | cons c m ih =>
    obtain ⟨first, rest⟩ := List.forall_mem_cons.1 h
    rw [memGet, if_neg first.symm, ih rest]

/-- A byte at or past the end of what is listed reads as 0. -/
theorem zeroGet_of_below {m : Memory} {n a : Nat} (h : Memory.below m n = true) (past : n ≤ a) : zeroGet m a = 0 := by
  rw [zeroGet, memGet_none_of_ne fun c hc => Nat.ne_of_lt (((Memory.below_iff m n).1 h c hc).trans_le past)]
  rfl

theorem fmtOk_iff {ops : Latch} : ops.fmtOk = true ↔
    ops.addr.getLsbD 0 = false ∧ 1 ≤ ops.fmtCh.toNat ∧ 1 ≤ ops.fmtBpf.toNat := by
  simp [Latch.fmtOk, Latch.fmtIl, and_assoc]

/-- The storage of a valid request: the rounded capacity with its mask, and the pointer table before zeroed regions. -/
def Latch.storage (ops : Latch) : FrameStore where
  ch := ops.fmtCh
  bpf := ops.fmtBpf
  cap := BitVec.ofNat 32 (pow2ceil ops.count.toNat)
  mask := BitVec.ofNat 32 (pow2ceil ops.count.toNat) - 1
  st := pointerTable (pow2ceil ops.count.toNat) ops.fmtCh.toNat ops.fmtBpf.toNat

/-- The bytes a valid request asks for, on unbounded integers (R133). -/
def Latch.storageSize (ops : Latch) : Nat :=
  frameAllocSize (pow2ceil ops.count.toNat) ops.fmtCh.toNat ops.fmtBpf.toNat

section Alloc
variable {store : Nat} {ops : Latch}

theorem allocFrames_fits (fmt : ops.fmtOk = true) (cap : capOk ops.count = true) (fits : ops.storageSize ≤ store) :
    allocFrames store ops = .ok ops.storage := by
  rw [allocFrames, fmt, cap, Bool.and_self, if_pos rfl]
  exact if_pos fits

theorem allocFrames_nomem (fmt : ops.fmtOk = true) (cap : capOk ops.count = true) (large : store < ops.storageSize) :
    allocFrames store ops = .error .nomem := by
  rw [allocFrames, fmt, cap, Bool.and_self, if_pos rfl]
  exact if_neg (Nat.not_le.2 large)

theorem allocFrames_config (invalid : ¬ (ops.fmtOk = true ∧ capOk ops.count = true)) :
    allocFrames store ops = .error .config := by
  rw [allocFrames, if_neg (by rwa [Bool.and_eq_true])]

theorem storage_cap_toNat (ops : Latch) : ops.storage.cap.toNat = pow2ceil ops.count.toNat := pow2ceil_toNat _

/-- RES0 of a successful allocation. -/
theorem storage_cap_zeroExtend (ops : Latch) :
    ops.storage.cap.zeroExtend 64 = BitVec.ofNat 64 (pow2ceil ops.count.toNat) := by
  rw [← storage_cap_toNat, BitVec.ofNat_toNat]

theorem storage_table (ops : Latch) {c j : Nat} (hc : c < ops.fmtCh.toNat) (hj : j < 8) :
    ops.storage.byte (8 * c + j) =
      leByte (8 * ops.fmtCh.toNat + c * pow2ceil ops.count.toNat * ops.fmtBpf.toNat) j :=
  zeroGet_pointerTable _ _ _ hc hj

theorem storage_zero (ops : Latch) {o : Nat} (past : 8 * ops.fmtCh.toNat ≤ o) : ops.storage.byte o = 0 :=
  zeroGet_of_below (pointerTable_below _ _ _) past

/-- A request that fails a test of its format or of its size is not valid (R131, R201). -/
theorem invalid_of_request (bad : ops.addr.getLsbD 0 = true ∨ ops.fmtCh.toNat = 0 ∨ ops.fmtBpf.toNat = 0
    ∨ ops.count.toNat < 2 ∨ 2 ^ 31 < ops.count.toNat) : ¬ (ops.fmtOk = true ∧ capOk ops.count = true) := by
  rw [fmtOk_iff, capOk_iff]
  rintro ⟨⟨interleaved, ch, bpf⟩, lo, hi⟩
  rcases bad with il | rest
  · rw [interleaved] at il; cases il
  · omega

end Alloc

/-! ### Completion with a new unit F or T (R14) -/

section Completion
variable {s t : State} {w : U32}

/-- A step that leaves the other units and client memory alone changes nothing but unit F. -/
theorem onlyUnitF_of_fields (plat : t.plat = s.plat) (b : t.b = s.b) (tt : t.t = s.t) (cm : t.cm = s.cm) :
    OnlyUnitF s t := ⟨b, tt, cm, clientByte_congr plat b cm⟩

/-- A step that leaves the other units and client memory alone changes nothing but unit T. -/
theorem onlyUnitT_of_fields (plat : t.plat = s.plat) (b : t.b = s.b) (f : t.f = s.f) (cm : t.cm = s.cm) :
    OnlyUnitT s t := ⟨b, f, cm, clientByte_congr plat b cm⟩

/-- A lifecycle command of unit F that leaves the unit `u` and completes in its issue step. -/
theorem issued_unitF {u : UnitF} {ret : U32} {code : Code} {r0 : U64}
    (h : t = State.completeWith { s.accept w with f := u } ret code r0 0 0 0) :
    Completed s t w ret (codeNumber code) r0 0 0 0 ∧ OnlyUnitF s t ∧ t.f = u := by
  subst h
  exact ⟨((elsewhere_accept s w).trans (elsewhere_with_f _ u)).completed (cur_accept s w) ..,
    onlyUnitF_of_fields (by simp) (by simp) (by simp) (by simp), completeWith_f ..⟩

/-- A lifecycle command of unit T that leaves the unit `u` and completes in its issue step. -/
theorem issued_unitT {u : UnitT} {ret : U32} {code : Code} {r0 : U64}
    (h : t = State.completeWith { s.accept w with t := u } ret code r0 0 0 0) :
    Completed s t w ret (codeNumber code) r0 0 0 0 ∧ OnlyUnitT s t ∧ t.t = u := by
  subst h
  exact ⟨((elsewhere_accept s w).trans (elsewhere_with_t _ u)).completed (cur_accept s w) ..,
    onlyUnitT_of_fields (by simp) (by simp) (by simp) (by simp), completeWith_t ..⟩

/-- A data command of unit F that leaves the unit `u` and completes. -/
theorem completed_unitF {u : UnitF} {ret : U32} (h : t = State.complete { s with f := u } ret .ok) :
    Completed s t s.cur.cmd ret 0 0 0 0 0 ∧ OnlyUnitF s t ∧ t.f = u := by
  subst h
  exact ⟨(elsewhere_with_f s u).completed rfl ret .ok 0 0 0 0,
    onlyUnitF_of_fields (completeWith_plat ..) (completeWith_b ..) (completeWith_t ..) (completeWith_cm ..),
    completeWith_f ..⟩

end Completion

/-! ### Lifecycle (R210 to R212, R248, R249) -/

/-- The block of ALLOC.F when the request is met. -/
theorem allocFBody_ok {ops : Latch} {s : State} {fs : FrameStore} (h : allocFrames s.plat.storeF ops = .ok fs) :
    allocFBody ops s = State.completeWith { s with f := { fs := fs, rptr := 0, wptr := 0 } } 1 .ok
      (fs.cap.zeroExtend 64) 0 0 0 := by
  simp only [allocFBody, h]

/-- The block of ALLOC.F when the request is not met. -/
theorem allocFBody_error {ops : Latch} {s : State} {code : Code} (h : allocFrames s.plat.storeF ops = .error code) :
    allocFBody ops s = State.complete { s with f := UnitF.reset } 0 code := by
  simp only [allocFBody, h]

/-- ALLOC.F on an idle unit whose request is not met deallocates the unit. -/
theorem exec_allocF_error {s : State} {code : Code}
    (run : exec .allocF s = .next (allocFBody s.cur.latch (s.accept (encode .allocF))))
    (h : allocFrames s.plat.storeF s.cur.latch = .error code) :
    ∃ t, exec .allocF s = .next t ∧ Completed s t 0x00000101 0 (codeNumber code) 0 0 0 0 ∧ OnlyUnitF s t
      ∧ t.f = State.reset.f := by
  rw [allocFBody_error (by rwa [accept_plat])] at run
  exact ⟨_, run, issued_unitF rfl⟩

/-- Settles O35: the three ways through the block of ALLOC.F. -/
theorem allocF : Obligations.AllocF := by
  rintro s _ _ _ idle turn prod cons rfl rfl rfl
  have run := exec_cfg_run (i := .allocF) rfl idle (by rw [turn]; rfl) (dataBusy_eq_false prod cons)
  rw [cfgBody] at run
  refine ⟨fun il ch bpf lo hi fits => ?_, fun bad => ?_, fun il ch bpf lo hi large => ?_⟩
  · have met : allocFrames s.plat.storeF s.cur.latch = .ok s.cur.latch.storage :=
      allocFrames_fits (fmtOk_iff.2 ⟨il, ch, bpf⟩) (capOk_iff.2 ⟨lo, hi⟩) fits
    rw [allocFBody_ok (by rwa [accept_plat]), storage_cap_zeroExtend] at run
    obtain ⟨completed, only, unit⟩ := issued_unitF (s := s) (w := encode .allocF) rfl
    refine ⟨_, run, completed, only, ?_⟩
    rw [unit]
    exact ⟨rfl, rfl, storage_cap_toNat _, rfl, rfl, rfl, fun c j hc hj => storage_table _ hc hj,
      fun o past => storage_zero _ past⟩
  · exact exec_allocF_error run (allocFrames_config (invalid_of_request bad))
  · exact exec_allocF_error run (allocFrames_nomem (fmtOk_iff.2 ⟨il, ch, bpf⟩) (capOk_iff.2 ⟨lo, hi⟩) large)

/-- Settles O37: the blocks of DEALLOC and RESET of units F and T on any idle unit. -/
theorem deallocResetFT : Obligations.DeallocResetFT := by
  constructor
  · intro s idle turn prod cons
    have free := dataBusy_eq_false prod cons
    have dealloc := exec_cfg_run (i := .deallocF) rfl idle (by rw [turn]; rfl) free
    have reset := exec_cfg_run (i := .resetF) rfl idle (by rw [turn]; rfl) free
    rw [cfgBody, deallocFBody] at dealloc
    rw [cfgBody, resetFBody, accept_f] at reset
    exact ⟨⟨_, dealloc, issued_unitF rfl⟩, ⟨_, reset, issued_unitF rfl⟩⟩
  · intro s idle turn prod cons
    have free := dataBusy_eq_false prod cons
    have dealloc := exec_cfg_run (i := .deallocT) rfl idle (by rw [turn]; rfl) free
    have reset := exec_cfg_run (i := .resetT) rfl idle (by rw [turn]; rfl) free
    rw [cfgBody, deallocTBody] at dealloc
    rw [cfgBody, resetTBody, accept_t, complete_eq] at reset
    obtain ⟨completed, only, unit⟩ := issued_unitT (s := s) (w := encode .resetT) rfl
    refine ⟨⟨_, dealloc, issued_unitT rfl⟩, ⟨_, reset, completed, only, ?_⟩⟩
    rw [unit]
    exact ⟨rfl, rfl, slot_cleared s.t.fs⟩

/-! ### Availability queries (R213, R214) -/

theorem exec_availF {s : State} {ops : Latch} (was : s.cur.act = .busy ops .start) (used : s.f.fs.cap ≠ 0) :
    exec .availrF s = .next (s.complete (availR s.f.fs.mask s.f.rptr s.f.wptr) .ok)
      ∧ exec .availwF s = .next (s.complete (availW s.f.fs.mask s.f.rptr s.f.wptr) .ok) := by
  simp only [exec, execAvailrF, execAvailwF, was, if_neg used, and_self]

/-- Settles O38: the two counts are masked, so below the capacity. -/
theorem availabilityQueriesF : Obligations.AvailabilityQueriesF := by
  intro s ops was used
  obtain ⟨availr, availw⟩ := exec_availF was used
  have completed := fun ret => completeWith_completed s ret .ok 0 0 0 0
  have units := fun ret => completeWith_sameUnits s ret .ok 0 0 0 0
  refine ⟨⟨_, availr, completed _, units _, fun mask => ?_⟩, ⟨_, availw, completed _, units _, fun mask => ?_⟩⟩
  · rw [complete_eq, (completed _).cur_ret]
    exact lt_cap_of_le_mask used (mask ▸ availR_le_mask ..)
  · rw [complete_eq, (completed _).cur_ret]
    exact lt_cap_of_le_mask used (mask ▸ availW_le_mask ..)

/-! ### The last step of READ.F and WRITE.F (R215, R216) -/

theorem exec_publishF {s : State} {ops : Latch} {p k : U32} (was : s.cur.act = .busy ops (.publish p k)) (ap : Bool) :
    exec (.readF ap) s = .next (State.complete { s with f := { s.f with rptr := adv s.f.fs.mask p k } } k .ok)
      ∧ exec (.writeF ap) s =
          .next (State.complete { s with f := { s.f with wptr := adv s.f.fs.mask p k } } k .ok) := by
  simp only [exec, execReadF, execWriteF, was, and_self]

/-- Settles O43: the cursor published is the masked advance of the run's position. -/
theorem publishF : Obligations.PublishF := by
  intro s ops p k ap was
  obtain ⟨readF, writeF⟩ := exec_publishF was ap
  exact ⟨⟨_, readF, completed_unitF rfl⟩, ⟨_, writeF, completed_unitF rfl⟩⟩

end Sys2Proof.Machine
end

section
/-! PROOFS for the statements of 42_frame_ring.md about the buffer list and about single steps of the scatter/gather
engine: the null list (R203), FetchList (R204), ListFits (R205), and the byte and report steps (R206 to R208). -/

namespace Sys2Proof.Machine

/-! ### The null list (R203) -/

/-- The first block of a command with a buffer list rejects a null list address; READ.T of no frames never looks. -/
theorem exec_nullList {i : Instr} {s : State} {ops : Latch} (lists : usesList i = true)
    (was : s.cur.act = .busy ops .start) (used : s.unitCap (unitOf i) ≠ 0) (null : ops.addr = 0)
    (asks : i = .readT → ops.count ≠ 0) : exec i s = .next (s.reject .arg) := by
  cases i with
  | readF ap | writeF ap =>
    simp only [exec, execReadF, execWriteF, was, sampleF, if_neg (show s.f.fs.cap ≠ 0 from used), if_pos null]
  | readT =>
    simp only [exec, execReadT, was, validateReadT, if_neg (show s.t.fs.cap ≠ 0 from used), if_neg (asks rfl),
      if_pos null]
  | writeT => simp only [exec, execWriteT, was, validateWriteT, if_neg (show s.t.fs.cap ≠ 0 from used), if_pos null]
  | _ => cases lists

/-- Settles O39: the rejection is a completion with E_ARG. -/
theorem nullList : Obligations.NullList := by
  intro i s ops lists was used null asks
  exact ⟨_, exec_nullList lists was used null asks, completeWith_completed s 0 .arg 0 0 0 0,
    completeWith_sameUnits s 0 .arg 0 0 0 0⟩

/-! ### ListFits (R205) -/

theorem listFits_iff {es : List Entry} {need : Nat} : listFits es need = true ↔ ∀ e ∈ es, need ≤ e.capb.toNat := by
  simp [listFits]

/-- The bytes per channel a command with a buffer list moves (R205). -/
def listNeed (i : Instr) (s : State) (ops : Latch) (k : U32) : Nat :=
  if unitOf i = .f then s.f.fs.bytes k.toNat else s.t.fs.bytes ops.frames

/-- Where a command with a buffer list goes once the list fits: READ.F and WRITE.F to their first transfer or publishing
step, WRITE.T and READ.T to their bounds step. -/
def fittedPos (i : Instr) (s : State) (p k : U32) (es : List Entry) : Pos :=
  match i with
  | .readF _ => gatherPosF s.f.fs.ch p k es 0
  | .writeF _ => scatterPosF s.f.fs.ch (s.f.fs.bytes k.toNat) p k es 0 0
  | .writeT => .bounds es
  | _ => .read es 0 .count

section Fits
variable {i : Instr} {s : State} {ops : Latch} {p k : U32} {es : List Entry}

theorem exec_fits (lists : usesList i = true) (was : s.cur.act = .busy ops (.fits p k es)) :
    exec i s = if listFits es (listNeed i s ops k) = true then .next (s.goto ops (fittedPos i s p k es))
      else .next (s.reject .arg) := by
  cases i with
  | readF ap | writeF ap => simp only [exec, execReadF, execWriteF, was]; rfl
  | readT | writeT => simp only [exec, execReadT, execWriteT, was]; rfl
  | _ => cases lists

theorem fittedPos_readF (some_channel : s.f.fs.ch ≠ 0) (ap : Bool) :
    fittedPos (.readF ap) s p k es = .move p k es 0 0 := by
  have : 0 < s.f.fs.ch.toNat := Nat.pos_of_ne_zero fun e => some_channel (BitVec.eq_of_toNat_eq e)
  rw [fittedPos, gatherPosF, if_pos this]

theorem fittedPos_writeF (some_channel : s.f.fs.ch ≠ 0) (ap : Bool) :
    fittedPos (.writeF ap) s p k es = if s.f.fs.bytes k.toNat = 0 then .publish p k else .move p k es 0 0 := by
  have : 0 < s.f.fs.ch.toNat := Nat.pos_of_ne_zero fun e => some_channel (BitVec.eq_of_toNat_eq e)
  rw [fittedPos, scatterPosF, if_pos this]

end Fits

/-- Settles O41: the check's step is `exec_fits`. (The name `listFits` is the model's function.) -/
theorem listFits_holds : Obligations.ListFits := by
  refine ⟨fun es need => listFits_iff, ?_⟩
  intro i s ops p k es need lists was channels need_eq
  obtain rfl : need = listNeed i s ops k := need_eq
  have run := exec_fits lists was
  refine ⟨fun short => ?_, fun fits => ?_⟩
  · rw [if_neg (by rw [Bool.not_eq_true]; exact short)] at run
    exact ⟨_, run, completeWith_completed s 0 .arg 0 0 0 0, completeWith_sameUnits s 0 .arg 0 0 0 0⟩
  · rw [if_pos fits] at run
    refine ⟨_, _, run, goto_standsAt s ops _, goto_sameUnits s ops _, ?_, ?_, ?_, ?_⟩
    · rintro rfl; rfl
    · rintro rfl; rfl
    · rintro ap rfl; exact fittedPos_readF channels ap
    · rintro ap rfl; exact fittedPos_writeF channels ap

/-! ### FetchList (R204) -/

section Lists
variable {s t u : State} {ops : Latch}

theorem SameUnits.trans (h : SameUnits s t) (k : SameUnits t u) : SameUnits s u :=
  ⟨k.b.trans h.b, k.f.trans h.f, k.t.trans h.t, k.cm.trans h.cm, fun a => (k.bytes a).trans (h.bytes a)⟩

theorem SameUnits.unitChannels (h : SameUnits s t) (x : UnitId) : t.unitChannels x = s.unitChannels x := by
  cases x <;> simp only [State.unitChannels, h.f, h.t]

theorem SameUnits.memRead (h : SameUnits s t) (a : U64) (n : Nat) : t.memRead a n = s.memRead a n := by
  rw [State.memRead, State.memRead, funext h.bytes]

theorem SameUnits.listEntry (h : SameUnits s t) (ops : Latch) (c : Nat) : t.listEntry ops c = s.listEntry ops c := by
  simp only [State.listEntry, h.memRead]

/-- The bytes from `a + m` up are among those from `a` up. -/
theorem reachable_drop {a : U64} {m n l : Nat} (h : s.reachable a l) (inside : m + n ≤ l) :
    s.reachable (a + BitVec.ofNat 64 m) n := by
  intro i hi
  rw [add_assoc, ← BitVec.ofNat_add]
  exact h (m + i) (by omega)

theorem listEntries_succ (s : State) (ops : Latch) (n : Nat) :
    s.listEntries ops (n + 1) = s.listEntries ops n ++ [s.listEntry ops n] := by
  rw [State.listEntries, List.range_succ, List.map_append]; rfl

theorem length_listEntries (s : State) (ops : Latch) (n : Nat) : (s.listEntries ops n).length = n := by
  rw [State.listEntries, List.length_map, List.length_range]

/-- A port busy at a position stands there. -/
theorem standsAt_self {pos : Pos} (was : s.cur.act = .busy ops pos) : StandsAt s s ops pos :=
  ⟨.refl s, by rw [← was]; rfl⟩

end Lists

/-- Steps and then more steps. -/
theorem execTimes_add {i : Instr} {s t u : State} {m n : Nat} (first : execTimes m i s = .next t)
    (rest : execTimes n i t = .next u) : execTimes (m + n) i s = .next u := by
  induction m generalizing s with
  | zero =>
    cases first
    rwa [Nat.zero_add]
  | succ m ih =>
    rw [execTimes] at first
    split at first
    next v step => rw [Nat.add_right_comm, execTimes_first step]; exact ih first
    all_goals cases first

section Fetch
variable {i : Instr} {s t u : State} {ops : Latch} {p k : U32}

theorem exec_fetch {es : List Entry} {ptr : Option U64} (lists : usesList i = true)
    (was : s.cur.act = .busy ops (.fetch p k es ptr)) :
    exec i s = fetchStep (s.unitChannels (unitOf i)) ops p k es ptr s := by
  cases i with
  | readF ap | writeF ap => simp only [exec, execReadF, execWriteF, was]; rfl
  | readT | writeT => simp only [exec, execReadT, execWriteT, was]; rfl
  | _ => cases lists

/-- The step that reads the pointer of entry `n`. -/
theorem exec_fetch_pointer {es : List Entry} {n : Nat} (lists : usesList i = true)
    (was : s.cur.act = .busy ops (.fetch p k es none)) (fetched : es.length = n)
    (room : s.reachable (entryAddr ops n) 16) :
    ∃ t, exec i s = .next t ∧ StandsAt s t ops (.fetch p k es (some (s.listEntry ops n).ptr)) ∧ SameUnits s t := by
  subst fetched
  rw [exec_fetch lists was]
  exact ⟨_, guarded_reachable _ fun j hj => room j (by omega), goto_standsAt s ops _, goto_sameUnits s ops _⟩

/-- The step that reads the byteCapacity of entry `n`, the entry's pointer read before. -/
theorem exec_fetch_capacity {es : List Entry} {n : Nat} (lists : usesList i = true)
    (was : s.cur.act = .busy ops (.fetch p k es (some (s.listEntry ops n).ptr))) (fetched : es.length = n)
    (room : s.reachable (entryAddr ops n) 16) :
    ∃ t, exec i s = .next t ∧ SameUnits s t
      ∧ StandsAt s t ops (fetchPos (s.unitChannels (unitOf i)) p k (es ++ [s.listEntry ops n])) := by
  subst fetched
  rw [exec_fetch lists was]
  exact ⟨_, guarded_reachable _ (reachable_drop (m := 8) room (by decide)), goto_sameUnits s ops _,
    goto_standsAt s ops _⟩

/-- The port has fetched the first `n` entries of its list as they stand in state `s`, and nothing else has changed. -/
structure Fetched (i : Instr) (s t : State) (ops : Latch) (p k : U32) (n : Nat) : Prop where
  stands : StandsAt s t ops (fetchPos (s.unitChannels (unitOf i)) p k (s.listEntries ops n))
  units : SameUnits s t

/-- The two steps of one entry. -/
theorem Fetched.entry {n : Nat} (h : Fetched i s t ops p k n) (lists : usesList i = true)
    (left : n < (s.unitChannels (unitOf i)).toNat) (room : s.reachable (entryAddr ops n) 16) :
    ∃ u, execTimes 2 i t = .next u ∧ Fetched i s u ops p k (n + 1) := by
  have fetched := length_listEntries s ops n
  have was := h.stands.act
  rw [fetchPos, fetched, if_pos left] at was
  have plat := h.stands.elsewhere.plat
  obtain ⟨t', pointer, stands', units'⟩ :=
    exec_fetch_pointer lists was fetched (reachable_congr plat (by rw [h.units.b]) room)
  have same := h.units.trans units'
  rw [h.units.listEntry, ← same.listEntry] at stands'
  obtain ⟨u, capacity, units, stands⟩ := exec_fetch_capacity lists stands'.act fetched
    (reachable_congr (stands'.elsewhere.plat.trans plat) (by rw [same.b]) room)
  rw [same.listEntry, same.unitChannels, ← listEntries_succ] at stands
  exact ⟨u, execTimes_last (execTimes_last rfl pointer) capacity, (h.stands.trans stands').trans stands,
    same.trans units⟩

/-- All of FetchList, from a port that is at its beginning. -/
theorem Fetched.run (h : Fetched i s t ops p k 0) (lists : usesList i = true)
    (room : ∀ c, c < (s.unitChannels (unitOf i)).toNat → s.reachable (entryAddr ops c) 16) (n : Nat)
    (hn : n ≤ (s.unitChannels (unitOf i)).toNat) :
    ∃ u, execTimes (2 * n) i t = .next u ∧ Fetched i s u ops p k n := by
  induction n with
  | zero => exact ⟨t, rfl, h⟩
  | succ n ih =>
    obtain ⟨u, steps, fetched⟩ := ih (by omega)
    obtain ⟨v, entry, fetched'⟩ := fetched.entry lists hn (room n hn)
    exact ⟨v, execTimes_add steps entry, fetched'⟩

/-- With every entry fetched the port is at the ListFits block. -/
theorem Fetched.all {n : Nat} (h : Fetched i s t ops p k n) (last : n = (s.unitChannels (unitOf i)).toNat) :
    StandsAt s t ops (.fits p k (s.listEntries ops n)) := by
  have stands := h.stands
  rwa [fetchPos, if_neg (by rw [length_listEntries, last]; exact Nat.lt_irrefl _)] at stands

end Fetch

/-- Settles O40: two steps an entry, from the first to the last. -/
theorem fetchListRun : Obligations.FetchListRun := by
  intro i s ops p k lists was channels room
  have start : Fetched i s s ops p k 0 := by
    have none_yet : fetchPos (s.unitChannels (unitOf i)) p k (s.listEntries ops 0) = .fetch p k [] none :=
      if_pos (Nat.pos_of_ne_zero fun e => channels (BitVec.eq_of_toNat_eq e))
    exact ⟨by rw [none_yet]; exact standsAt_self was, rfl, rfl, rfl, rfl, fun _ => rfl⟩
  obtain ⟨t, steps, fetched⟩ := start.run lists room _ le_rfl
  exact ⟨t, steps, fetched.units, fetched.all rfl⟩

/-! ### The byte and report steps (R206 to R208) -/

/-- The storage offset with its region written out (R62, R63, R142). -/
theorem FrameStore.offset_eq (fs : FrameStore) (c : Nat) (p : U32) (i : Nat) :
    fs.offset c p i = 8 * fs.ch.toNat + c * fs.cap.toNat * fs.bpf.toNat
      + (p.toNat * fs.bpf.toNat + i) % (fs.cap.toNat * fs.bpf.toNat) := rfl

/-- A client write of several bytes is a client write of the bytes of its number (R69). -/
theorem clientWrite_memWrite {s : State} (a : U64) {n : Nat} (v : Nat) (hn : n ≤ 2 ^ 64)
    (canonical : Memory.canonical s.cm = true) : ClientWrite s (s.memWrite a n v) a n (leByte v) := by
  induction n with
  | zero => exact .nil ⟨rfl, rfl, rfl⟩ (fun _ => rfl) _
  | succ n ih =>
    rw [memWrite_succ]
    have wf := ((Memory.canonical_iff _).1 (memWrite_cm_canonical s a n v canonical)).1
    exact (ih (by omega)).snoc (clientWrite_setClientByte _ _ wf) hn

theorem frameWrite_setByte {fs : FrameStore} (o : Nat) (v : Byte) (wf : Memory.wf fs.st = true) :
    FrameWrite fs (fs.setByte o v) o v :=
  ⟨rfl, frame_byte_setByte_same fs o v wf, fun _ hj => frame_byte_setByte_ne fs v hj⟩

section Moves
variable {s : State} {ops : Latch} {p k : U32} {es : List Entry} {c j : Nat}

/-- A step of a data command of unit F that leaves the unit `u` and goes on. -/
theorem standsAt_unitF {t : State} {u : UnitF} {pos : Pos} (h : t = State.goto { s with f := u } ops pos) :
    StandsAt s t ops pos ∧ OnlyUnitF s t ∧ t.f = u := by
  subst h
  exact ⟨(elsewhere_with_f s u).standsAt_goto rfl pos,
    onlyUnitF_of_fields (goto_plat ..) (goto_b ..) (goto_t ..) (goto_cm ..), goto_f ..⟩

/-- READ.F moves a byte out of the storage. -/
theorem readF_byte_step (ap : Bool) (was : s.cur.act = .busy ops (.move p k es c j)) (left : j < s.f.fs.bytes k.toNat)
    (room : s.reachable (bufferAddr es c j) 1) (wf : Memory.wf s.cm = true) :
    ∃ t, exec (.readF ap) s = .next t ∧ StandsAt s t ops (.move p k es c (j + 1))
      ∧ ClientWrite s t (bufferAddr es c j) 1 fun _ => s.f.fs.byte (s.f.fs.offset c p j) := by
  simp only [exec, execReadF, was, if_pos left]
  exact ⟨_, guarded_reachable _ room, (elsewhere_setClientByte s _ _).standsAt_goto (setClientByte_cur ..) _,
    (clientWrite_setClientByte _ _ wf).goto _⟩

/-- READ.F reports a channel whose bytes have been moved. -/
theorem readF_report_step (ap : Bool) (was : s.cur.act = .busy ops (.move p k es c j))
    (moved : j = s.f.fs.bytes k.toNat) (room : s.reachable (entryAddr ops c + 16) 8)
    (canonical : Memory.canonical s.cm = true) :
    ∃ t, exec (.readF ap) s = .next t ∧ StandsAt s t ops (gatherPosF s.f.fs.ch p k es (c + 1))
      ∧ ClientWrite s t (entryAddr ops c + 16) 8 (leByte (s.f.fs.bytes k.toNat)) := by
  simp only [exec, execReadF, was, if_neg (Nat.not_lt.2 moved.ge)]
  exact ⟨_, guarded_reachable _ room, (elsewhere_memWrite s _ _ _).standsAt_goto (memWrite_cur ..) _,
    (clientWrite_memWrite _ _ (by decide) canonical).goto _⟩

/-- WRITE.F moves a byte into the storage. -/
theorem writeF_byte_step (ap : Bool) (was : s.cur.act = .busy ops (.move p k es c j))
    (room : s.reachable (bufferAddr es c j) 1) :
    ∃ t, exec (.writeF ap) s = .next t
      ∧ StandsAt s t ops (scatterPosF s.f.fs.ch (s.f.fs.bytes k.toNat) p k es (nextByte (s.f.fs.bytes k.toNat) c j).1
          (nextByte (s.f.fs.bytes k.toNat) c j).2)
      ∧ OnlyUnitF s t
      ∧ t.f = { s.f with fs := s.f.fs.setByte (s.f.fs.offset c p j) (s.clientByte (bufferAddr es c j)) } := by
  simp only [exec, execWriteF, was]
  exact ⟨_, guarded_reachable _ room, standsAt_unitF rfl⟩

end Moves

section NextByte
variable {ch p k : U32} {es : List Entry} {n c j : Nat}

/-- WRITE.F with a byte of a channel to move stands at it. -/
theorem scatterPosF_of_lt (hj : j < n) (hc : c < ch.toNat) : scatterPosF ch n p k es c j = .move p k es c j := by
  rw [scatterPosF, if_neg (by omega), if_pos hc]

/-- WRITE.F past its last channel publishes. -/
theorem scatterPosF_of_le (hc : ch.toNat ≤ c) : scatterPosF ch n p k es c j = .publish p k := by
  rw [scatterPosF, if_neg (Nat.not_lt.2 hc), ite_self]

/-- After a byte comes the next byte of its channel. -/
theorem scatterPosF_next_byte (more : j + 1 < n) (hc : c < ch.toNat) :
    scatterPosF ch n p k es (nextByte n c j).1 (nextByte n c j).2 = .move p k es c (j + 1) := by
  rw [nextByte, if_pos more]; exact scatterPosF_of_lt more hc

/-- After a channel's last byte comes the first of the next channel. -/
theorem scatterPosF_next_channel (last : j + 1 = n) (hc : c + 1 < ch.toNat) :
    scatterPosF ch n p k es (nextByte n c j).1 (nextByte n c j).2 = .move p k es (c + 1) 0 := by
  rw [nextByte, if_neg last.not_lt]; exact scatterPosF_of_lt (last ▸ Nat.succ_pos j) hc

/-- After the last byte of all comes the publishing step. -/
theorem scatterPosF_next_publish (last : j + 1 = n) (hc : c + 1 = ch.toNat) :
    scatterPosF ch n p k es (nextByte n c j).1 (nextByte n c j).2 = .publish p k := by
  rw [nextByte, if_neg last.not_lt]; exact scatterPosF_of_le hc.ge

end NextByte

/-- Settles O42: a byte out and the report of READ.F, and a byte in of WRITE.F. -/
theorem copyBytesF : Obligations.CopyBytesF := by
  intro s ops p k es c j o ap was place
  rw [← FrameStore.offset_eq] at place
  subst place
  refine ⟨fun left room wf => readF_byte_step ap was left room wf,
    fun moved room canonical => readF_report_step ap was moved room canonical, fun left hc room wf => ?_⟩
  obtain ⟨t, run, stands, only, unit⟩ := writeF_byte_step ap was room
  refine ⟨t, _, run, stands, fun more => scatterPosF_next_byte more hc,
    fun last next => scatterPosF_next_channel last next, fun last next => scatterPosF_next_publish last next, only, ?_, ?_⟩
  · rw [unit]
  · rw [unit]; exact frameWrite_setByte _ _ wf

end Sys2Proof.Machine
end

section
/-! PROOFS for O44: the run of READ.F with no step of another agent between (R215, R355). A channel is one byte step for
each byte and a report; `Delivered`, for the channels done so far, is the invariant from channel to channel. -/

namespace Sys2Proof.Machine

/-! ### Numbers in client memory (R69) -/

/-- The first `n` bytes of a number are the number modulo `256 ^ n`. -/
theorem leNumber_leByte (v n : Nat) : leNumber ((List.range n).map (leByte v)) = v % 256 ^ n := by
  induction n generalizing v with
  | zero => simp [leNumber, Nat.mod_one]
  | succ n ih =>
    have next (i : Nat) : leByte v (i + 1) = leByte (v / 256) i := by
      rw [leByte, leByte, Nat.pow_succ', Nat.div_div_eq_div_mul]
    have rest : (List.range n).map (leByte v ∘ Nat.succ) = (List.range n).map (leByte (v / 256)) :=
      List.map_congr_left fun i _ => next i
    rw [List.range_succ_eq_map, List.map_cons, List.map_map, rest, leNumber, ih, Nat.pow_succ', Nat.mod_mul, leByte,
      BitVec.toNat_ofNat, Nat.pow_zero, Nat.div_one]

section MemRead
variable {s t : State} {a : U64} {n : Nat}

theorem memRead_eq (s : State) (a : U64) (n : Nat) :
    s.memRead a n = leNumber ((List.range n).map fun i => s.clientByte (a + BitVec.ofNat 64 i)) := by
  rw [State.memRead, addresses, List.map_map]; rfl

theorem memRead_congr
    (same : ∀ i, i < n → t.clientByte (a + BitVec.ofNat 64 i) = s.clientByte (a + BitVec.ofNat 64 i)) :
    t.memRead a n = s.memRead a n := by
  rw [memRead_eq, memRead_eq, List.map_congr_left fun i hi => same i (List.mem_range.1 hi)]

/-- A number whose bytes stand in client memory is the number read. -/
theorem memRead_of_bytes {v : Nat} (bytes : ∀ i, i < n → s.clientByte (a + BitVec.ofNat 64 i) = leByte v i)
    (small : v < 256 ^ n) : s.memRead a n = v := by
  rw [memRead_eq, List.map_congr_left fun i hi => bytes i (List.mem_range.1 hi), leNumber_leByte,
    Nat.mod_eq_of_lt small]

end MemRead

/-! ### Buffers and reports lie apart (R70, R345) -/

theorem report_addr (ops : Latch) (c j : Nat) :
    entryAddr ops c + 16 + BitVec.ofNat 64 j = entryAddr ops c + BitVec.ofNat 64 (16 + j) := by
  rw [BitVec.ofNat_add, ← add_assoc]; rfl

/-- The report fields of two entries of a list share no address. -/
theorem report_inj {ops : Latch} {c c' j j' : Nat} (hc : c < 2 ^ 32) (hc' : c' < 2 ^ 32) (hj : j < 8) (hj' : j' < 8)
    (same : entryAddr ops c + 16 + BitVec.ofNat 64 j = entryAddr ops c' + 16 + BitVec.ofNat 64 j') : c = c' := by
  rw [report_addr, report_addr, entryAddr, entryAddr, add_assoc, add_assoc, ← BitVec.ofNat_add, ← BitVec.ofNat_add,
    Config.bleBytes] at same
  have places := run_address_inj (by omega) (by omega) same
  omega

section Apart
variable {s : State} {ops : Latch} {ch n c c' : Nat}

theorem ListApart.not_in_report (apart : ListApart s ops ch n) (hc : c < ch) (hc' : c' < ch) {i : Nat} (hi : i < n) :
    ¬ inRun (entryAddr ops c' + 16) 8 ((s.listEntry ops c).ptr + BitVec.ofNat 64 i) := by
  rintro ⟨j, hj, same⟩
  rw [report_addr] at same
  exact apart.list c c' _ (16 + j) hc hc' hi (by rw [Config.bleBytes]; omega) same

theorem ListApart.not_in_buffer (apart : ListApart s ops ch n) (hc : c < ch) (hc' : c' < ch) {j : Nat} (hj : j < 8) :
    ¬ inRun (s.listEntry ops c).ptr n (entryAddr ops c' + 16 + BitVec.ofNat 64 j) :=
  fun ⟨_, hi, same⟩ => apart.not_in_report hc hc' hi ⟨j, hj, same.symm⟩

theorem ListApart.not_in_other (apart : ListApart s ops ch n) (hc : c < ch) (hc' : c' < ch) (ne : c ≠ c') {i : Nat}
    (hi : i < n) : ¬ inRun (s.listEntry ops c').ptr n ((s.listEntry ops c).ptr + BitVec.ofNat 64 i) := by
  rintro ⟨j, hj, same⟩
  obtain ⟨channel, -⟩ := apart.buffers c c' i j hc hc' hi hj same
  exact ne channel

theorem report_not_in_other (hc : c < 2 ^ 32) (hc' : c' < 2 ^ 32) (ne : c ≠ c') {j : Nat} (hj : j < 8) :
    ¬ inRun (entryAddr ops c' + 16) 8 (entryAddr ops c + 16 + BitVec.ofNat 64 j) :=
  fun ⟨_, hj', same⟩ => ne (report_inj hc hc' hj hj' same)

end Apart

/-! ### Delivery, channel by channel (R206, R208) -/

section Delivery
variable {s t u v : State} {ops : Latch} {ch c n size : Nat} {data : Nat → Nat → Byte}

theorem Delivered.nil (same : ∀ x, t.clientByte x = s.clientByte x) : Delivered s t ops 0 n size data :=
  ⟨nofun, nofun, fun x _ => same x⟩

/-- A channel's bytes and its report after those of the channels before it. -/
theorem Delivered.snoc (h : Delivered s t ops c n size data) (apart : ListApart s ops ch n) (hc : c < ch)
    (small : ch ≤ 2 ^ 32) (fits : size < 2 ^ 64) (bytes : ClientWrite t u (s.listEntry ops c).ptr n (data c))
    (report : ClientWrite u v (entryAddr ops c + 16) 8 (leByte size)) : Delivered s v ops (c + 1) n size data where
  bytes c' i hc' hi := by
    rw [report.others _ (apart.not_in_report (by omega) hc hi)]
    by_cases this_channel : c' = c
    · rw [this_channel, bytes.written i hi]
    · rw [bytes.others _ (apart.not_in_other (by omega) hc this_channel hi), h.bytes c' i (by omega) hi]
  sizes c' hc' := by
    by_cases this_channel : c' = c
    · rw [this_channel]
      exact memRead_of_bytes report.written fits
    · rw [← h.sizes c' (by omega)]
      refine memRead_congr fun j hj => ?_
      rw [report.others _ (report_not_in_other (by omega) (by omega) this_channel hj),
        bytes.others _ (apart.not_in_buffer hc (by omega) hj)]
  others x hx := by
    obtain ⟨not_buffer, not_report⟩ := hx c (Nat.lt_succ_self c)
    rw [report.others x not_report, bytes.others x not_buffer]
    exact h.others x fun c' hc' => hx c' (Nat.lt_succ_of_lt hc')

end Delivery

/-! ### The steps before the first transfer (R140, R204, R205) -/

theorem entryPtr_listEntries (s : State) (ops : Latch) {n c : Nat} (hc : c < n) :
    entryPtr (s.listEntries ops n) c = (s.listEntry ops c).ptr := by
  rw [entryPtr, State.listEntries, List.getElem?_map, List.getElem?_range hc]; rfl

theorem listFits_listEntries {s : State} {ops : Latch} {ch n : Nat} (readable : ListReadable s ops ch n) :
    listFits (s.listEntries ops ch) n = true := by
  rw [listFits_iff]
  intro e he
  obtain ⟨c, hc, rfl⟩ := List.mem_map.1 he
  exact readable.fits c (List.mem_range.1 hc)

theorem SameUnits.listNeed {s t : State} (h : SameUnits s t) (i : Instr) (ops : Latch) (k : U32) :
    listNeed i t ops k = listNeed i s ops k := by
  rw [Machine.listNeed, Machine.listNeed, h.f, h.t]

theorem SameUnits.fittedPos {s t : State} (h : SameUnits s t) (i : Instr) (p k : U32) (es : List Entry) :
    fittedPos i t p k es = fittedPos i s p k es := by
  cases i <;> simp only [Machine.fittedPos, h.f]

/-- A READ.F or WRITE.F of `k` frames before its sample step, which finds `avail` frames: the unit is allocated, enough
frames are available, and list and buffers can be accessed (R140, R203 to R205). -/
structure FrameReady (s : State) (ops : Latch) (ap : Bool) (avail k : U32) : Prop where
  was : s.cur.act = .busy ops .start
  used : s.f.fs.cap ≠ 0
  list : ops.addr ≠ 0
  left : avail ≠ 0
  enough : ops.count.toNat ≤ avail.toNat ∨ ap = true
  length : k.toNat = min avail.toNat ops.count.toNat
  readable : ListReadable s ops s.f.fs.ch.toNat (s.f.fs.bytes k.toNat)

/-- A READ.F or WRITE.F that is ready reaches its first transfer with its list fetched and nothing else changed. -/
theorem FrameReady.fitted {i : Instr} {s : State} {ops : Latch} {ap : Bool} {avail k p : U32}
    (ready : FrameReady s ops ap avail k) (own : unitOf i = .f) (lists : usesList i = true)
    (found : sampling i s = some (ap, avail, p)) :
    ∃ t, execTimes (1 + 2 * s.f.fs.ch.toNat + 1) i s = .next t ∧ SameUnits s t
      ∧ StandsAt s t ops (fittedPos i s p k (s.listEntries ops s.f.fs.ch.toNat)) := by
  have moved : minU32 avail ops.count = k := BitVec.eq_of_toNat_eq (by rw [minU32_toNat, ready.length])
  have channels : s.unitChannels (unitOf i) = s.f.fs.ch := by rw [own]; rfl
  have sample := exec_sample found ready.was (by rw [own]; exact ready.used) fun _ => ready.list
  rw [transferLength_some ready.left ready.enough, moved, Option.elim_some] at sample
  have start : Fetched i s (s.goto ops (sampledPos i s p k)) ops p k 0 := by
    refine ⟨?_, goto_sameUnits s ops _⟩
    rw [channels, sampledPos, if_neg (by rw [own]; nofun)]
    exact goto_standsAt s ops _
  have count := congrArg BitVec.toNat channels
  obtain ⟨t, steps, fetched⟩ := start.run lists (fun c hc j hj => ready.readable.entries c (by omega) j (by
    rw [Config.bleBytes]; omega)) s.f.fs.ch.toNat count.ge
  have stands := fetched.all count.symm
  have fits : listFits (s.listEntries ops s.f.fs.ch.toNat) (listNeed i t ops k) = true := by
    rw [fetched.units.listNeed, listNeed, if_pos own]
    exact listFits_listEntries ready.readable
  have check := exec_fits lists stands.act
  rw [if_pos fits, fetched.units.fittedPos] at check
  rw [Nat.add_comm 1]
  exact ⟨_, execTimes_last (by rw [execTimes_first sample]; exact steps) check,
    fetched.units.trans (goto_sameUnits t ops _), stands.trans (goto_standsAt t ops _)⟩

/-! ### One channel of READ.F (R206, R208) -/

/-- The bytes a transfer moves per channel are fewer than the addresses (R148). -/
theorem FrameStore.bytes_lt (fs : FrameStore) (k : U32) : fs.bytes k.toNat < 2 ^ 64 :=
  Nat.lt_of_lt_of_le (Nat.mul_lt_mul'' k.isLt fs.bpf.isLt) (by decide)

section Channel
variable {s t u : State} {ops : Latch} {p k : U32} {es : List Entry} {c n : Nat}

/-- `n` byte steps after state `t` at channel `c`'s first byte, READ.F has written the channel's first `n` bytes to its
buffer, and nothing else. -/
structure ChannelOut (t u : State) (ops : Latch) (p k : U32) (es : List Entry) (c n : Nat) : Prop where
  stands : StandsAt t u ops (.move p k es c n)
  canonical : Memory.canonical u.cm = true
  write : ClientWrite t u (entryPtr es c) n fun i => t.f.fs.byte (t.f.fs.offset c p i)

/-- All byte steps of one channel. -/
theorem channelOut_run (ap : Bool) (was : t.cur.act = .busy ops (.move p k es c 0))
    (canonical : Memory.canonical t.cm = true) (room : t.reachable (entryPtr es c) (t.f.fs.bytes k.toNat)) (n : Nat)
    (hn : n ≤ t.f.fs.bytes k.toNat) :
    ∃ u, execTimes n (.readF ap) t = .next u ∧ ChannelOut t u ops p k es c n := by
  induction n with
  | zero => exact ⟨t, rfl, standsAt_self was, canonical, .nil ⟨rfl, rfl, rfl⟩ (fun _ => rfl) _⟩
  | succ n ih =>
    obtain ⟨u, steps, out⟩ := ih (by omega)
    have unit := out.write.only.f
    have room' : u.reachable (bufferAddr es c n) 1 :=
      reachable_one (reachable_congr out.stands.elsewhere.plat (by rw [out.write.only.b]) room) hn
    obtain ⟨v, last, stands, write⟩ := readF_byte_step ap out.stands.act (by rw [unit]; exact hn) room'
      ((Memory.canonical_iff _).1 out.canonical).1
    rw [unit] at write
    exact ⟨v, execTimes_last steps last, out.stands.trans stands, exec_cm_canonical last out.canonical,
      out.write.snoc write (Nat.lt_trans hn (FrameStore.bytes_lt t.f.fs k))⟩

/-- A channel's byte steps and its report. -/
theorem channel_run (ap : Bool) (was : t.cur.act = .busy ops (.move p k es c 0))
    (canonical : Memory.canonical t.cm = true) (room : t.reachable (entryPtr es c) (t.f.fs.bytes k.toNat))
    (roomReport : t.reachable (entryAddr ops c + 16) 8) :
    ∃ u v, execTimes (t.f.fs.bytes k.toNat + 1) (.readF ap) t = .next v
      ∧ StandsAt t v ops (gatherPosF t.f.fs.ch p k es (c + 1)) ∧ Memory.canonical v.cm = true
      ∧ ClientWrite t u (entryPtr es c) (t.f.fs.bytes k.toNat) (fun i => t.f.fs.byte (t.f.fs.offset c p i))
      ∧ ClientWrite u v (entryAddr ops c + 16) 8 (leByte (t.f.fs.bytes k.toNat)) := by
  obtain ⟨u, steps, out⟩ := channelOut_run ap was canonical room _ le_rfl
  have unit := out.write.only.f
  obtain ⟨v, last, stands, report⟩ := readF_report_step ap out.stands.act (by rw [unit])
    (reachable_congr out.stands.elsewhere.plat (by rw [out.write.only.b]) roomReport) out.canonical
  rw [unit] at stands report
  exact ⟨u, v, execTimes_last steps last, out.stands.trans stands, exec_cm_canonical last out.canonical, out.write,
    report⟩

end Channel

/-! ### The run of READ.F (R215) -/

theorem ClientOnly.trans {s t u : State} (h : ClientOnly s t) (k : ClientOnly t u) : ClientOnly s u :=
  ⟨k.b.trans (by rw [h.b]), k.f.trans h.f, k.t.trans h.t⟩

theorem SameUnits.clientOnly {s t : State} (h : SameUnits s t) : ClientOnly s t := ⟨by rw [h.b], h.f, h.t⟩

/-- READ.F, issued for the list and the units of state `s`, has delivered the first `c` channels. -/
structure Gathered (s t : State) (ops : Latch) (p k : U32) (c : Nat) : Prop where
  stands : StandsAt s t ops (gatherPosF s.f.fs.ch p k (s.listEntries ops s.f.fs.ch.toNat) c)
  canonical : Memory.canonical t.cm = true
  only : ClientOnly s t
  delivered : Delivered s t ops c (s.f.fs.bytes k.toNat) (s.f.fs.bytes k.toNat)
    fun c i => s.f.fs.byte (s.f.fs.offset c p i)

section Gather
variable {s t : State} {ops : Latch} {p k : U32} {c : Nat}

/-- One channel more. -/
theorem Gathered.channel (h : Gathered s t ops p k c) (ap : Bool) (hc : c < s.f.fs.ch.toNat)
    (readable : ListReadable s ops s.f.fs.ch.toNat (s.f.fs.bytes k.toNat))
    (apart : ListApart s ops s.f.fs.ch.toNat (s.f.fs.bytes k.toNat)) :
    ∃ v, execTimes (s.f.fs.bytes k.toNat + 1) (.readF ap) t = .next v ∧ Gathered s v ops p k (c + 1) := by
  have was := h.stands.act
  rw [gatherPosF, if_pos hc] at was
  have plat := h.stands.elsewhere.plat
  have cap : t.b.cap = s.b.cap := by rw [h.only.b]
  have pointer := entryPtr_listEntries s ops hc
  obtain ⟨u, v, steps, stands, canonical, bytes, report⟩ := channel_run ap was h.canonical
    (by rw [pointer, h.only.f]; exact reachable_congr plat cap (readable.buffers c hc))
    (reachable_congr plat cap (reachable_drop (m := 16) (readable.entries c hc) (by decide)))
  rw [h.only.f] at steps stands bytes report
  rw [pointer] at bytes
  exact ⟨v, steps, h.stands.trans stands, canonical, (h.only.trans bytes.only).trans report.only,
    h.delivered.snoc apart hc (Nat.le_of_lt s.f.fs.ch.isLt) (FrameStore.bytes_lt s.f.fs k) bytes report⟩

/-- All channels. -/
theorem Gathered.run (h : Gathered s t ops p k 0) (ap : Bool)
    (readable : ListReadable s ops s.f.fs.ch.toNat (s.f.fs.bytes k.toNat))
    (apart : ListApart s ops s.f.fs.ch.toNat (s.f.fs.bytes k.toNat)) (c : Nat) (hc : c ≤ s.f.fs.ch.toNat) :
    ∃ u, execTimes (c * (s.f.fs.bytes k.toNat + 1)) (.readF ap) t = .next u ∧ Gathered s u ops p k c := by
  induction c with
  | zero => exact ⟨t, by rw [Nat.zero_mul]; rfl, h⟩
  | succ c ih =>
    obtain ⟨u, steps, gathered⟩ := ih (by omega)
    obtain ⟨v, channel, gathered'⟩ := gathered.channel ap hc readable apart
    exact ⟨v, by rw [Nat.succ_mul]; exact execTimes_add steps channel, gathered'⟩

end Gather

/-- Settles O44: the list fetched, every channel delivered, and the publishing step of O43. -/
theorem readFRun : Obligations.ReadFRun := by
  rintro s ops ap k _ _ was used list canonical rfl rfl left enough length readable apart
  have ready : FrameReady s ops ap (availR s.f.fs.mask s.f.rptr s.f.wptr) k :=
    ⟨was, used, list, left, enough, length, readable⟩
  obtain ⟨t, fetch, units, stands⟩ := ready.fitted (i := .readF ap) rfl rfl rfl
  have start : Gathered s t ops s.f.rptr k 0 :=
    ⟨stands, by rw [units.cm]; exact canonical, units.clientOnly, .nil units.bytes⟩
  obtain ⟨u, gather, gathered⟩ := start.run ap readable apart _ le_rfl
  have stands := gathered.stands
  rw [gatherPosF, if_neg (Nat.lt_irrefl _)] at stands
  obtain ⟨⟨v, last, completed, only, unit⟩, -⟩ := publishF u ops s.f.rptr k ap stands.act
  have steps := execTimes_last (execTimes_add fetch gather) last
  have delivered := gathered.delivered
  refine ⟨v, ?_, stands.completed completed, ?_, only.t.trans gathered.only.t, ?_, ?_⟩
  · rw [← steps, FrameStore.bytes]
    congr 1; ring
  · rw [unit, gathered.only.f]
  · rw [only.b]; exact gathered.only.b
  · exact ⟨fun c i hc hi => (only.bytes _).trans (delivered.bytes c i hc hi),
      fun c hc => (memRead_congr fun _ _ => only.bytes _).trans (delivered.sizes c hc),
      fun x hx => (only.bytes x).trans (delivered.others x hx)⟩

end Sys2Proof.Machine
end

section
/-! PROOFS for O45: the run of WRITE.F with no step of another agent between (R216, R355). The byte steps of all channels
are one run of `CH * k * BPF` steps, of which step `m` stores byte `m % (k * BPF)` of channel `m / (k * BPF)`. -/

namespace Sys2Proof.Machine

/-! ### Several bytes of a frame storage -/

/-- The bytes of a frame storage at `off 0` to `off (m - 1)` were written, the one at `off j` with `v j`, and nothing else
of it. -/
structure FrameRun (fs fs' : FrameStore) (m : Nat) (off : Nat → Nat) (v : Nat → Byte) : Prop where
  control : fs' = { fs with st := fs'.st }
  wf : Memory.wf fs'.st = true
  written : ∀ j, j < m → fs'.byte (off j) = v j
  others : ∀ o, (∀ j, j < m → o ≠ off j) → fs'.byte o = fs.byte o

section FrameRun
variable {fs fs' : FrameStore} {m : Nat} {off : Nat → Nat} {v : Nat → Byte}

theorem FrameRun.nil (wf : Memory.wf fs.st = true) : FrameRun fs fs 0 off v := ⟨rfl, wf, nofun, fun _ _ => rfl⟩

/-- One byte more, at an offset not written before. -/
theorem FrameRun.snoc (h : FrameRun fs fs' m off v) (fresh : ∀ j, j < m → off j ≠ off m) :
    FrameRun fs (fs'.setByte (off m) (v m)) (m + 1) off v where
  control := congrArg (fun x : FrameStore => x.setByte (off m) (v m)) h.control
  wf := memPut_wf _ _ h.wf
  written j hj := by
    by_cases last : j = m
    · rw [last, frame_byte_setByte_same fs' _ _ h.wf]
    · rw [frame_byte_setByte_ne fs' _ (fresh j (by omega)), h.written j (by omega)]
  others o ho := by
    rw [frame_byte_setByte_ne fs' _ (ho m (Nat.lt_succ_self m)), h.others o fun j hj => ho j (Nat.lt_succ_of_lt hj)]

theorem FrameRun.offset (h : FrameRun fs fs' m off v) (c : Nat) (p : U32) (i : Nat) :
    fs'.offset c p i = fs.offset c p i := by rw [h.control]; rfl

theorem FrameRun.bytes (h : FrameRun fs fs' m off v) (k : Nat) : fs'.bytes k = fs.bytes k := by rw [h.control]; rfl

end FrameRun

/-! ### A loop over channels and bytes as one loop -/

/-- Byte `i` of channel `c` is at place `c * n + i` of the loop over channels of `n` bytes. -/
theorem place_div_mod {n c i : Nat} (hi : i < n) : (c * n + i) / n = c ∧ (c * n + i) % n = i :=
  (Nat.div_mod_unique (Nat.zero_lt_of_lt hi)).2 ⟨by ring, hi⟩

theorem place_lt {n c i ch : Nat} (hc : c < ch) (hi : i < n) : c * n + i < ch * n := by
  have := Nat.mul_le_mul_right n (Nat.succ_le_of_lt hc)
  rw [Nat.succ_mul] at this
  omega

/-- The next byte of the loop is at the next place. -/
theorem nextByte_place {n : Nat} (pos : 0 < n) (m : Nat) :
    nextByte n (m / n) (m % n) = ((m + 1) / n, (m + 1) % n) := by
  have below := Nat.mod_lt m pos
  have place : m = m / n * n + m % n := (Nat.div_add_mod' m n).symm
  unfold nextByte
  split
  next more =>
    obtain ⟨channel, byte⟩ := place_div_mod (c := m / n) more
    rw [← Nat.add_assoc, ← place] at channel byte
    rw [channel, byte]
  next last =>
    obtain ⟨channel, byte⟩ := place_div_mod (c := m / n + 1) pos
    rw [show (m / n + 1) * n + 0 = m + 1 by rw [Nat.succ_mul]; omega] at channel byte
    rw [channel, byte]

/-- A run over the places of the loop, channel by channel. -/
theorem FrameRun.channels {fs fs' : FrameStore} {ch n : Nat} {off : Nat → Nat → Nat} {v : Nat → Nat → Byte}
    (h : FrameRun fs fs' (ch * n) (fun m => off (m / n) (m % n)) fun m => v (m / n) (m % n)) :
    (∀ c i, c < ch → i < n → fs'.byte (off c i) = v c i)
      ∧ ∀ o, (∀ c i, c < ch → i < n → o ≠ off c i) → fs'.byte o = fs.byte o := by
  refine ⟨fun c i hc hi => ?_, fun o ho => h.others o fun m hm => ?_⟩
  · have written := h.written _ (place_lt hc hi)
    obtain ⟨channel, byte⟩ := place_div_mod (c := c) hi
    simpa only [channel, byte] using written
  · have pos : 0 < n := Nat.pos_of_mul_pos_left (Nat.zero_lt_of_lt hm)
    exact ho _ _ (Nat.div_lt_of_lt_mul (by rwa [Nat.mul_comm])) (Nat.mod_lt m pos)

/-! ### Places of a transfer (R62, R142) -/

/-- No two bytes of a transfer no longer than the ring share a storage offset. -/
theorem FrameStore.offset_inj {fs : FrameStore} {p : U32} {c c' i i' : Nat}
    (hi : i < fs.cap.toNat * fs.bpf.toNat) (hi' : i' < fs.cap.toNat * fs.bpf.toNat)
    (same : fs.offset c p i = fs.offset c' p i') : c = c' ∧ i = i' := by
  have pos := Nat.zero_lt_of_lt hi
  rw [FrameStore.offset, FrameStore.offset, regionBase_eq, regionBase_eq, ringOffset, ringOffset, Nat.add_assoc,
    Nat.add_assoc] at same
  obtain ⟨channel, place⟩ := run_unique (Nat.mod_lt _ pos) (Nat.mod_lt _ pos) (Nat.add_left_cancel same)
  exact ⟨channel, ring_place_inj hi hi' place⟩

/-! ### The byte steps of WRITE.F (R207) -/

/-- WRITE.F, issued for the list and the units of state `s`, has stored the first `m` bytes of its transfer. -/
structure Scattered (s t : State) (ops : Latch) (p k : U32) (n m : Nat) : Prop where
  stands : StandsAt s t ops (scatterPosF s.f.fs.ch n p k (s.listEntries ops s.f.fs.ch.toNat) (m / n) (m % n))
  only : OnlyUnitF s t
  unit : t.f = { s.f with fs := t.f.fs }
  storage : FrameRun s.f.fs t.f.fs m (fun m => s.f.fs.offset (m / n) p (m % n))
    fun m => s.clientByte ((s.listEntry ops (m / n)).ptr + BitVec.ofNat 64 (m % n))

section Scatter
variable {s t : State} {ops : Latch} {p k : U32} {n m : Nat}

theorem OnlyUnitF.trans {u : State} (h : OnlyUnitF s t) (k : OnlyUnitF t u) : OnlyUnitF s u :=
  ⟨k.b.trans h.b, k.t.trans h.t, k.cm.trans h.cm, fun a => (k.bytes a).trans (h.bytes a)⟩

/-- One byte more. -/
theorem Scattered.step (h : Scattered s t ops p k n m) (ap : Bool) (size : n = s.f.fs.bytes k.toNat)
    (fits : n ≤ s.f.fs.cap.toNat * s.f.fs.bpf.toNat) (readable : ListReadable s ops s.f.fs.ch.toNat n)
    (left : m < s.f.fs.ch.toNat * n) : ∃ u, exec (.writeF ap) t = .next u ∧ Scattered s u ops p k n (m + 1) := by
  have pos : 0 < n := Nat.pos_of_mul_pos_left (Nat.zero_lt_of_lt left)
  have hc : m / n < s.f.fs.ch.toNat := Nat.div_lt_of_lt_mul (by rwa [Nat.mul_comm])
  have hi : m % n < n := Nat.mod_lt m pos
  have was := h.stands.act
  rw [scatterPosF_of_lt hi hc] at was
  have source : bufferAddr (s.listEntries ops s.f.fs.ch.toNat) (m / n) (m % n)
      = (s.listEntry ops (m / n)).ptr + BitVec.ofNat 64 (m % n) := by
    rw [bufferAddr, entryPtr_listEntries s ops hc]
  have room := reachable_one (reachable_congr h.stands.elsewhere.plat (by rw [h.only.b]) (readable.buffers _ hc)) hi
  obtain ⟨u, run, stands, only, unit⟩ := writeF_byte_step ap was (by rw [source]; exact room)
  have fresh : ∀ j, j < m → s.f.fs.offset (j / n) p (j % n) ≠ s.f.fs.offset (m / n) p (m % n) := fun j hj same => by
    obtain ⟨channel, byte⟩ := FrameStore.offset_inj ((Nat.mod_lt j pos).trans_le fits) (hi.trans_le fits) same
    rw [← Nat.div_add_mod j n, channel, byte, Nat.div_add_mod] at hj
    exact Nat.lt_irrefl m hj
  have stored := h.storage.snoc fresh
  have channels : t.f.fs.ch = s.f.fs.ch := by rw [h.storage.control]
  rw [h.storage.bytes, ← size, nextByte_place pos, channels] at stands
  rw [source, h.only.bytes, h.storage.offset] at unit
  exact ⟨u, run, h.stands.trans stands, h.only.trans only, by rw [unit, h.unit], by rw [unit]; exact stored⟩

/-- All byte steps. -/
theorem Scattered.run (h : Scattered s t ops p k n 0) (ap : Bool) (size : n = s.f.fs.bytes k.toNat)
    (fits : n ≤ s.f.fs.cap.toNat * s.f.fs.bpf.toNat) (readable : ListReadable s ops s.f.fs.ch.toNat n) (m : Nat)
    (hm : m ≤ s.f.fs.ch.toNat * n) : ∃ u, execTimes m (.writeF ap) t = .next u ∧ Scattered s u ops p k n m := by
  induction m with
  | zero => exact ⟨t, rfl, h⟩
  | succ m ih =>
    obtain ⟨u, steps, scattered⟩ := ih (by omega)
    obtain ⟨v, last, scattered'⟩ := scattered.step ap size fits readable hm
    exact ⟨v, execTimes_last steps last, scattered'⟩

/-- After the last byte WRITE.F is at its publishing step. -/
theorem scatterPosF_end (ch p k : U32) (n : Nat) (es : List Entry) :
    scatterPosF ch n p k es (ch.toNat * n / n) (ch.toNat * n % n) = .publish p k := by
  rcases Nat.eq_zero_or_pos n with rfl | pos
  · rfl
  · rw [Nat.mul_div_cancel _ pos]; exact scatterPosF_of_le le_rfl

end Scatter

/-- Settles O45: the list fetched, every byte stored, and the publishing step of O43. -/
theorem writeFRun : Obligations.WriteFRun := by
  rintro s ops ap k _ _ was sound used list rfl rfl left enough length readable
  have order := FrameStore.inOrder_of_sound (UnitF.sound_iff.1 sound).1 used
  have below : (availW s.f.fs.mask s.f.rptr s.f.wptr).toNat < s.f.fs.cap.toNat :=
    lt_cap_of_le_mask used (order.mask ▸ availW_le_mask ..)
  have fits : s.f.fs.bytes k.toNat ≤ s.f.fs.cap.toNat * s.f.fs.bpf.toNat := Nat.mul_le_mul_right _ (by omega)
  have ready : FrameReady s ops ap (availW s.f.fs.mask s.f.rptr s.f.wptr) k :=
    ⟨was, used, list, left, enough, length, readable⟩
  obtain ⟨t, fetch, units, stands⟩ := ready.fitted (i := .writeF ap) rfl rfl rfl
  have start : Scattered s t ops s.f.wptr k (s.f.fs.bytes k.toNat) 0 := by
    refine ⟨by rw [Nat.zero_div, Nat.zero_mod]; exact stands, ⟨units.b, units.t, units.cm, units.bytes⟩,
      by rw [units.f], ?_⟩
    rw [units.f]
    exact .nil ((Memory.canonical_iff _).1 order.canonical).1
  obtain ⟨u, scatter, scattered⟩ := start.run ap rfl fits readable _ le_rfl
  have stands := scattered.stands
  rw [scatterPosF_end] at stands
  obtain ⟨-, v, last, completed, only, unit⟩ := publishF u ops s.f.wptr k ap stands.act
  have steps := execTimes_last (execTimes_add fetch scatter) last
  have control := scattered.storage.control
  have storage : v.f.fs = u.f.fs := by rw [unit]
  refine ⟨v, ?_, stands.completed completed, scattered.only.trans only, ?_, ?_⟩
  · rw [← steps, FrameStore.bytes]
    congr 1; ring
  · rw [unit, scattered.unit, control]
  · rw [storage]
    exact scattered.storage.channels

end Sys2Proof.Machine
end

section
/-! PROOFS for O59: what a bounds read in flight has read of its slot stays what stands there (R243 to R245). Only WRITE.T
writes the register under a read, and the first step of its Publish takes the slot's counter away from every attempt. -/

namespace Sys2Proof.Machine

/-! ### Attempts that are, or become, sound -/

/-- A step before the last of an attempt keeps what it has read in agreement with the slot. -/
theorem attemptSound_more {u : UnitT} {st st' : ReadStage} (h : attemptSound u st)
    (more : readBoundsStep u st = .more st') : attemptSound u st' := by
  cases st with
  | count => cases more; trivial
  | start c => cases more; exact fun _ => rfl
  | stop c x => cases more; exact fun same => ⟨h same, rfl⟩
  | upd c x y =>
    simp only [readBoundsStep] at more
    split at more <;> cases more

/-- A change of unit T keeps an attempt sound when the slot the attempt reads is as before or has another counter. -/
theorem attemptSound_of_slot {u v : UnitT} {st : ReadStage} (h : attemptSound u st)
    (slot : ∀ c, attemptCounter st = some c → v.slot c = u.slot c ∨ (v.slot c).upd ≠ c) : attemptSound v st := by
  cases st with
  | count => trivial
  | start c => trivial
  | stop c x =>
    rcases slot c rfl with same | other
    · rw [attemptSound, same]; exact h
    · exact fun upd => absurd upd other
  | upd c x y =>
    rcases slot c rfl with same | other
    · rw [attemptSound, same]; exact h
    · exact fun upd => absurd upd other

/-! ### The slots a WRITE.T writes (R243) -/

/-- A slot replaced is the new slot wherever its counter selects the same place, and as before elsewhere (R35). -/
theorem slot_setSlot (u : UnitT) (c c' : U32) (x : Slot) :
    (u.setSlot c x).slot c' = if slotIndex c = slotIndex c' then x else u.slot c' := by
  split
  next same =>
    have selected : (u.setSlot c x).slot c' = (u.setSlot c x).slot c := by simp only [UnitT.slot, same]
    rw [selected, slot_setSlot_same]
  next other => exact slot_setSlot_ne u c x other

/-- After a step of a Publish every slot is as before or carries the counter value being published. -/
theorem slot_publishStep {u : UnitT} {lo hi : Int} {st : PubStage} (progress : slotProgress u lo hi st) (c : U32) :
    (publishStep u lo hi st).1.slot c = u.slot c ∨ ((publishStep u lo hi st).1.slot c).upd = u.tbcnt + 1 := by
  have written (x : Slot) (upd : x.upd = u.tbcnt + 1) :
      (u.setSlot (u.tbcnt + 1) x).slot c = u.slot c ∨ ((u.setSlot (u.tbcnt + 1) x).slot c).upd = u.tbcnt + 1 := by
    rw [slot_setSlot]
    split
    · exact .inr upd
    · exact .inl rfl
  cases st with
  | upd => exact written _ rfl
  | start nxt => obtain ⟨rfl, upd⟩ := progress; exact written _ upd
  | stop nxt => obtain ⟨rfl, upd, -⟩ := progress; exact written _ upd
  | count nxt => exact .inl rfl

/-- A WRITE.T under way that will publish bounds is as far with its slot as its position says. -/
theorem slotProgress_of_writerSound {u : UnitT} {ops : Latch} {es : List Entry} {cs ce : Int} {last : Bool}
    {st : PubStage} (h : writerSound u ops (.pub es cs ce last st)) :
    slotProgress u (publishPair ops cs ce last).1 (publishPair ops cs ce last).2 st := by
  cases last with
  | true => exact h.2
  | false => obtain ⟨-, -, -, -, progress⟩ := h; exact progress

section Writer
variable {s t : State}

/-- A step of WRITE.T leaves every slot as before, but for a step of a Publish. -/
theorem exec_writeT_slots (h : exec .writeT s = .next t) :
    t.t.slot = s.t.slot ∨ ∃ ops es cs ce last st, s.cur.act = .busy ops (.pub es cs ce last st)
      ∧ t.t = (publishStep s.t (publishPair ops cs ce last).1 (publishPair ops cs ce last).2 st).1 := by
  simp only [exec, execWriteT] at h
  split at h
  · exact .inl (by rw [issueData_t h])
  · cases h; unfold validateWriteT; repeat' split
    all_goals exact .inl (by simp)
  · exact .inl (by rw [fetchStep_t h])
  · split at h <;> cases h <;> exact .inl (by simp)
  · cases h; exact .inl (by simp)
  · rename_i ops es cs ce last st was
    cases h; exact .inr ⟨ops, es, cs, ce, last, st, was, goto_t ..⟩
  · cases h; exact .inl (by rw [goto_t]; rfl)
  · rcases guarded_next h with rfl | rfl
    · exact .inl (by rw [goto_t]; rfl)
    · exact .inl rfl
  · cases h; exact .inl (by simp)
  · cases h

/-- After a step of WRITE.T every slot is as before or carries the counter value of the next publication. -/
theorem slot_of_writeT (hs : PositionInv s) (hb : BoundsInv s) (hr : Runs .writeT s) (h : exec .writeT s = .next t)
    (c : U32) : t.t.slot c = s.t.slot c ∨ (t.t.slot c).upd = s.t.tbcnt + 1 := by
  rcases exec_writeT_slots h with same | ⟨ops, es, cs, ce, last, st, was, unit⟩
  · exact .inl (by rw [same])
  · have busy : s.cur.act ≠ .idle := by rw [was]; nofun
    have cur : s.cur = s.port ⟨.t, .prod⟩ := by rw [State.cur, turn_of_writeT_busy hs hr busy]
    have sound := hb.writer ops _ (cur ▸ was) (cur ▸ hr.resolve_left busy)
    rw [unit]
    exact slot_publishStep (slotProgress_of_writerSound sound) c

end Writer

/-! ### A port that reads the bounds -/

/-- Where a port stands, if at a bounds read, what it has read agrees with the unit `u`. -/
structure ReadSound (u : UnitT) (p : Port) : Prop where
  attempt : ∀ ops es tries st, p.act = .busy ops (.read es tries st) → attemptSound u st

section Reader
variable {s v t : State}

theorem ReadSound.of_act {u : UnitT} {p : Port} {ops : Latch} {pos : Pos} (act : p.act = .busy ops pos)
    (other : ∀ es tries st, pos ≠ .read es tries st) : ReadSound u p where
  attempt _ es tries st busy := by rw [act] at busy; cases busy; exact absurd rfl (other es tries st)

theorem ReadSound.of_idle {u : UnitT} {p : Port} (idle : p.act = .idle) : ReadSound u p where
  attempt _ _ _ _ busy := by rw [idle] at busy; cases busy

theorem ReadSound.goto {u : UnitT} {ops : Latch} {es : List Entry} {tries : Nat} {st : ReadStage}
    (h : attemptSound u st) : ReadSound u (v.goto ops (.read es tries st)).cur where
  attempt _ _ _ _ busy := by rw [cur_goto] at busy; cases busy; exact h

/-- One step of ReadBounds: the attempt goes on soundly, or a new one begins with nothing read. -/
theorem ReadSound.readBounds {ops : Latch} {es : List Entry} {tries : Nat} {st : ReadStage}
    {done : Option (U64 × U64) → State → State} (h : attemptSound s.t st) (hd : ∀ r, ReadSound s.t (done r s).cur)
    (run : readBounds ops es tries st done s = .next t) : ReadSound s.t t.cur := by
  unfold Machine.readBounds at run
  split at run
  · rename_i more; cases run; exact .goto (attemptSound_more h more)
  · cases run; exact hd _
  · split at run <;> cases run
    · exact .goto trivial
    · exact hd _

theorem ReadSound.issueData {u : UnitT} {i : Instr} (run : issueData i s = .next t) : ReadSound u t.cur := by
  unfold Machine.issueData at run
  split at run <;> cases run
  · exact .of_idle (congrArg Port.act (cur_completeWith ..))
  · exact .of_act (pos := .start) (congrArg Port.act (cur_goto ..)) nofun

theorem ReadSound.guarded {a : U64} {n : Nat} (stay : ReadSound s.t s.cur) (go : ReadSound s.t v.cur)
    (run : guarded s a n v = .next t) : ReadSound s.t t.cur := by
  rcases guarded_next run with rfl | rfl <;> assumption

theorem ReadSound.of_goto {u : UnitT} {ops : Latch} {pos : Pos} (other : ∀ es tries st, pos ≠ .read es tries st) :
    ReadSound u (v.goto ops pos).cur := .of_act (congrArg Port.act (cur_goto ..)) other

theorem ReadSound.complete {u : UnitT} (ret : U32) (code : Code) (r0 r1 r2 r3 : U64) :
    ReadSound u (v.completeWith ret code r0 r1 r2 r3).cur := .of_idle (congrArg Port.act (cur_completeWith ..))

theorem fetchPos_ne_read {ch p k : U32} {es : List Entry} (es' : List Entry) (tries : Nat) (st : ReadStage) :
    fetchPos ch p k es ≠ .read es' tries st := by
  rcases fetchPos_cases ch p k es with e | e <;> rw [e] <;> nofun

theorem outPos_ne_read {ch : U32} {es : List Entry} {w : Clip} {c : Nat} (es' : List Entry) (tries : Nat)
    (st : ReadStage) : outPos ch es w c ≠ .read es' tries st := by
  rcases outPos_cases ch es w c with e | e <;> rw [e] <;> nofun

/-- Every step of GETTB.T keeps its own bounds read sound. -/
theorem ReadSound.gettbT (h : ReadSound s.t s.cur) (run : exec .gettbT s = .next t) : ReadSound s.t t.cur := by
  simp only [exec, execGettbT] at run
  split at run
  · exact .issueData run
  · split at run <;> cases run
    · exact .complete ..
    · exact .goto trivial
  · rename_i was
    exact .readBounds (h.attempt _ _ _ _ was) (fun r => .of_goto (pos := .got r) nofun) run
  · cases run
    unfold finishGettb
    split <;> exact .complete ..
  · cases run

/-- Every step of READ.T keeps its own bounds read sound. -/
theorem ReadSound.readT (h : ReadSound s.t s.cur) (run : exec .readT s = .next t) : ReadSound s.t t.cur := by
  simp only [exec, execReadT] at run
  split at run
  · exact .issueData run
  · cases run
    unfold validateReadT
    repeat' split
    any_goals exact .complete ..
    exact .of_goto fetchPos_ne_read
  · unfold fetchStep at run
    split at run
    · exact .guarded h (.of_goto (pos := .fetch ..) nofun) run
    · exact .guarded h (.of_goto fetchPos_ne_read) run
  · split at run <;> cases run
    · exact .goto trivial
    · exact .complete ..
  · rename_i was
    refine .readBounds (h.attempt _ _ _ _ was) (fun r => ?_) run
    unfold afterReadBounds
    split
    · exact .of_goto outPos_ne_read
    · exact .of_goto (pos := .got none) nofun
  · cases run; exact .complete ..
  · split at run
    · exact .guarded h (.of_goto (pos := .out ..) nofun) run
    · exact .guarded h (.of_goto outPos_ne_read) run
  · cases run; exact .complete ..
  · cases run

/-- The commands that read the bounds. -/
theorem reader_of_posFits {i : Instr} {es : List Entry} {tries : Nat} {st : ReadStage}
    (fits : posFits i (.read es tries st) = true) : i = .gettbT ∨ i = .readT := by
  cases i with
  | gettbT => exact .inl rfl
  | readT => exact .inr rfl
  | _ => cases fits

/-- After a step of any command what its port has read agrees with the unit as it was. -/
theorem ReadSound.exec {i : Instr} (h : ReadSound s.t s.cur) (run : exec i s = .next t) : ReadSound s.t t.cur := by
  cases exec_portStep run with
  | same e => rw [e]; exact h
  | done c act _ => exact .of_idle act
  | issued _ _ _ port => exact .of_act (pos := .start) (congrArg Port.act port) nofun
  | on ops pos pos' was fits port =>
    by_cases reads : ∃ es tries st, pos' = .read es tries st
    · obtain ⟨es, tries, st, rfl⟩ := reads
      rcases reader_of_posFits fits with rfl | rfl
      · exact .gettbT h run
      · exact .readT h run
    · exact .of_act (congrArg Port.act port) fun es tries st e => reads ⟨es, tries, st, e⟩

end Reader

/-! ### `SnapshotInv` is kept -/

section Snapshot
variable {i : Instr} {s t : State}

theorem SnapshotInv.port (h : SnapshotInv s) {q : PortId} (own : q.unit = .t) : ReadSound s.t (s.port q) :=
  ⟨fun _ _ _ _ busy => h q _ _ _ _ own busy⟩

/-- The invariant reads the bounds register and where the busy ports stand. -/
theorem SnapshotInv.congr (h : SnapshotInv s) (tt : t.t = s.t)
    (act : ∀ q ops pos, (t.port q).act = .busy ops pos → (s.port q).act = .busy ops pos) : SnapshotInv t :=
  fun q ops es tries st own busy => by rw [tt]; exact h q ops es tries st own (act q ops _ busy)

/-- A step of a command that leaves unit T alone keeps every read sound. -/
theorem SnapshotInv.of_same_unit (h : SnapshotInv s) (tt : t.t = s.t) (run : exec i s = .next t) :
    SnapshotInv t := fun q ops es tries st own busy => by
  rw [tt]
  by_cases turn : q = s.turn
  · subst turn
    rw [port_turn_of_exec run] at busy
    exact ((h.port own).exec run).attempt _ _ _ _ busy
  · rw [(exec_elsewhere run).ports q turn] at busy
    exact h q ops es tries st own busy

/-- No step of WRITE.T begins a bounds read. -/
theorem busy_read_before_writeT (run : exec .writeT s = .next t) {q : PortId} {ops : Latch} {es : List Entry}
    {tries : Nat} {st : ReadStage} (busy : (t.port q).act = .busy ops (.read es tries st)) :
    (s.port q).act = .busy ops (.read es tries st) := by
  by_cases turn : q = s.turn
  · rw [turn, port_turn_of_exec run] at busy
    cases exec_portStep run with
    | same e => rw [turn, ← busy, e]; rfl
    | done c act _ => rw [act] at busy; cases busy
    | issued _ _ _ port => rw [port] at busy; cases busy
    | on ops' pos pos' _ fits port => rw [port] at busy; cases busy; cases fits
  · rwa [(exec_elsewhere run).ports q turn] at busy

/-- A step of WRITE.T keeps every read sound: what it writes of the register makes the slot's counter the next
publication's, which no attempt in flight began with (R244). -/
theorem SnapshotInv.writeT (hs : PositionInv s) (hb : BoundsInv s) (fresh : NoCounterWrap s) (h : SnapshotInv s)
    (hr : Runs .writeT s) (run : exec .writeT s = .next t) : SnapshotInv t := fun q ops es tries st own busy => by
  have before := busy_read_before_writeT run busy
  refine attemptSound_of_slot (h q ops es tries st own before) fun c began => ?_
  refine (slot_of_writeT hs hb hr run c).imp_right fun upd => ?_
  rw [upd]
  exact fresh q ops es tries st c own before began

/-- A lifecycle command leaves unit T alone, or leaves no port of unit T busy (R109). -/
theorem exec_cfg_t (hs : PositionInv s) (cfg : isData i = false) (run : exec i s = .next t) :
    t.t = s.t ∨ ∀ q ops pos, (t.port q).act = .busy ops pos → q.unit ≠ .t := by
  by_cases own : unitOf i = .t
  · rcases exec_cfg_cases cfg run with ⟨code, rfl⟩ | ⟨-, free, -⟩
    · exact .inl (by simp)
    · exact .inr fun q ops pos busy same => foreign_of_cfg_busy hs cfg free run busy (own.trans same.symm)
  · exact .inl (exec_t_of_foreign run own)

theorem exec_keeps_snapshot (hs : PositionInv s) (hb : BoundsInv s) (fresh : NoCounterWrap s) (h : SnapshotInv s)
    (hr : Runs i s) (run : exec i s = .next t) : SnapshotInv t := by
  cases data : isData i with
  | true =>
    by_cases writer : i = .writeT
    · subst writer; exact h.writeT hs hb fresh hr run
    · exact h.of_same_unit (exec_data_t data writer run) run
  | false =>
    rcases exec_cfg_t hs data run with tt | foreign
    · exact h.of_same_unit tt run
    · exact fun q ops es tries st own busy => absurd own (foreign q ops _ busy)

end Snapshot

/-- Settles O59: of what `step_does` takes a step apart into, only a command of unit T touches the register or a read of
it, and `exec_keeps_snapshot` says what that does. -/
theorem snapshotKept : Obligations.SnapshotKept := by
  intro s t hs hb fresh h run
  cases step_does run with
  | idle e => exact h.congr (by rw [e]) (by rw [e]; exact fun _ _ _ busy => busy)
  | issue q i free run =>
    exact exec_keeps_snapshot (s := { s with inputs := s.inputs.tail, turn := q }) hs
      ⟨hb.current, hb.counter, hb.writer⟩ fresh h (.inl free) run
  | turn q i ops pos busy word run =>
    exact exec_keeps_snapshot (s := { s with inputs := s.inputs.tail, turn := q }) hs
      ⟨hb.current, hb.counter, hb.writer⟩ fresh h (.inr word) run
  | illegal q w free word e =>
    cases e
    refine h.congr (by simp) fun q' ops pos busy => ?_
    rw [port_of_rejected_busy busy] at busy
    exact busy
  | operand q r v notCmd e =>
    subst e
    refine h.congr (setPort_t ..) fun q' ops pos busy => ?_
    rw [port_setPort] at busy
    split at busy
    · rename_i same; rw [same]; simpa using busy
    · exact busy
  | write a n v e =>
    subst e
    exact h.congr (memWrite_t ..) fun _ _ _ busy => by rw [memWrite_port] at busy; exact busy
  | load v e => exact h.congr (by rw [e]) (by rw [e]; exact fun _ _ _ busy => busy)
  | reset e =>
    subst e
    exact fun q ops es tries st own busy => by rw [port_hardReset] at busy; cases busy

end Sys2Proof.Machine
end

section
/-! PROOFS for the statements of 43_timestamped_ring.md about commands of one block and about single steps (R240 to R256,
R260 to R263): an equation for each position's step, then the statements. -/

namespace Sys2Proof.Machine

/-! ### ALLOC.T (R247) -/

section Alloc
variable {ops : Latch} {s : State}

/-- The block of ALLOC.T when the request is met. -/
theorem allocTBody_ok {fs : FrameStore} (h : allocFrames s.plat.storeT ops = .ok fs) :
    allocTBody ops s = State.completeWith { s with t := { UnitT.reset with fs := fs } } 1 .ok
      (fs.cap.zeroExtend 64) 0 0 0 := by
  simp only [allocTBody, h]

/-- The block of ALLOC.T when the request is not met. -/
theorem allocTBody_error {code : Code} (h : allocFrames s.plat.storeT ops = .error code) :
    allocTBody ops s = State.complete { s with t := UnitT.reset } 0 code := by
  simp only [allocTBody, h]

/-- ALLOC.T on an idle unit whose request is not met deallocates the unit. -/
theorem exec_allocT_error {code : Code}
    (run : exec .allocT s = .next (allocTBody s.cur.latch (s.accept (encode .allocT))))
    (h : allocFrames s.plat.storeT s.cur.latch = .error code) :
    ∃ t, exec .allocT s = .next t ∧ Completed s t 0x00000201 0 (codeNumber code) 0 0 0 0 ∧ OnlyUnitT s t
      ∧ t.t = State.reset.t := by
  rw [allocTBody_error (by rwa [accept_plat])] at run
  exact ⟨_, run, issued_unitT rfl⟩

end Alloc

/-- Settles O36: the three ways through the block of ALLOC.T. -/
theorem allocT : Obligations.AllocT := by
  rintro s _ _ _ idle turn prod cons rfl rfl rfl
  have run := exec_cfg_run (i := .allocT) rfl idle (by rw [turn]; rfl) (dataBusy_eq_false prod cons)
  rw [cfgBody] at run
  refine ⟨fun il ch bpf lo hi fits => ?_, fun bad => ?_, fun il ch bpf lo hi large => ?_⟩
  · have met : allocFrames s.plat.storeT s.cur.latch = .ok s.cur.latch.storage :=
      allocFrames_fits (fmtOk_iff.2 ⟨il, ch, bpf⟩) (capOk_iff.2 ⟨lo, hi⟩) fits
    rw [allocTBody_ok (by rwa [accept_plat]), storage_cap_zeroExtend] at run
    obtain ⟨completed, only, unit⟩ := issued_unitT (s := s) (w := encode .allocT) rfl
    refine ⟨_, run, completed, only, ?_⟩
    rw [unit]
    exact ⟨rfl, rfl, storage_cap_toNat _, rfl, rfl, slot_cleared _, fun c j hc hj => storage_table _ hc hj,
      fun o past => storage_zero _ past⟩
  · exact exec_allocT_error run (allocFrames_config (invalid_of_request bad))
  · exact exec_allocT_error run (allocFrames_nomem (fmtOk_iff.2 ⟨il, ch, bpf⟩) (capOk_iff.2 ⟨lo, hi⟩) large)

/-! ### Steps that change the port's position alone -/

/-- The issuing port has gone to the position `pos` and nothing else has changed. -/
structure Moved (s t : State) (ops : Latch) (pos : Pos) : Prop where
  stands : StandsAt s t ops pos
  units : SameUnits s t

theorem Moved.goto (s : State) (ops : Latch) (pos : Pos) : Moved s (s.goto ops pos) ops pos :=
  ⟨goto_standsAt s ops pos, goto_sameUnits s ops pos⟩

theorem Moved.trans {s t u : State} {ops : Latch} {pos pos' : Pos} (h : Moved s t ops pos) (k : Moved t u ops pos') :
    Moved s u ops pos' := ⟨h.stands.trans k.stands, h.units.trans k.units⟩

/-- A completion that leaves the units and client memory alone. -/
theorem completeWith_done (s : State) (ret : U32) (code : Code) (r0 r1 r2 r3 : U64) :
    Completed s (s.completeWith ret code r0 r1 r2 r3) s.cur.cmd ret (codeNumber code) r0 r1 r2 r3
      ∧ SameUnits s (s.completeWith ret code r0 r1 r2 r3) :=
  ⟨completeWith_completed .., completeWith_sameUnits ..⟩

/-! ### The validating blocks (R250, R260) -/

section Validate
variable {i : Instr} {s : State} {ops : Latch}

/-- A READ.T of no frames succeeds at once (R261). -/
theorem exec_readT_zero (was : s.cur.act = .busy ops .start) (used : s.t.fs.cap ≠ 0) (zero : ops.count = 0) :
    exec .readT s = .next (s.complete 1 .ok) := by
  simp only [exec, execReadT, was, validateReadT, if_neg used, if_pos zero]

/-- Past the checks of unit and count, the validating block of WRITE.T and READ.T begins FetchList or rejects. -/
theorem exec_validateT (was : s.cur.act = .busy ops .start) (used : s.t.fs.cap ≠ 0)
    (asks : i = .writeT ∨ i = .readT ∧ ops.count ≠ 0) :
    exec i s = .next (if ops.addr ≠ 0 ∧ ops.rangeOk s.t.fs.cap = true
      then s.goto ops (fetchPos s.t.fs.ch (timePos s.t.fs.mask ops.time) ops.count []) else s.reject .arg) := by
  by_cases null : ops.addr = 0
  · rw [if_neg fun valid => valid.1 null]
    rcases asks with rfl | ⟨rfl, some_frames⟩
    · simp only [exec, execWriteT, was, validateWriteT, if_neg used, if_pos null]
    · simp only [exec, execReadT, was, validateReadT, if_neg used, if_neg some_frames, if_pos null]
  · simp only [ne_eq, null, not_false_eq_true, true_and]
    rcases asks with rfl | ⟨rfl, some_frames⟩
    · simp only [exec, execWriteT, was, validateWriteT, if_neg used, if_neg null]
    · simp only [exec, execReadT, was, validateReadT, if_neg used, if_neg some_frames, if_neg null]

/-- FetchList of a unit with channels begins with the pointer of the first entry (R204). -/
theorem fetchPos_nil {ch : U32} (channels : ch ≠ 0) (p k : U32) : fetchPos ch p k [] = .fetch p k [] none :=
  if_pos (Nat.pos_of_ne_zero fun e => channels (BitVec.eq_of_toNat_eq e))

end Validate

/-- Settles O47: the range test is `rangeOk_iff`. -/
theorem validateT : Obligations.ValidateT := by
  intro i s ops was used
  have range : ops.rangeOk s.t.fs.cap = true ↔ ops.count.toNat ≤ s.t.fs.cap.toNat ∧ 0 ≤ ops.aux.toInt
      ∧ ops.aux.toInt + ops.count.toNat ≤ 2 ^ 63 - 1 := by
    rw [rangeOk_iff, Int.ofNat_le]; rfl
  refine ⟨?_, fun asks invalid => ?_, fun asks list size nonneg last channels => ?_⟩
  · rintro rfl zero
    exact ⟨_, exec_readT_zero was used zero, completeWith_done s 1 .ok 0 0 0 0⟩
  · have run := exec_validateT was used asks
    rw [if_neg (by rw [range]; omega)] at run
    exact ⟨_, run, completeWith_done s 0 .arg 0 0 0 0⟩
  · have run := exec_validateT was used asks
    rw [if_pos ⟨list, range.2 ⟨size, nonneg, last⟩⟩, fetchPos_nil channels] at run
    exact ⟨_, run, goto_sameUnits s ops _, goto_standsAt s ops _⟩

/-! ### ReadBounds (R245, R246) -/

/-- Where GETTB.T and READ.T go with the result of their bounds read (R246, R260). -/
def boundsPos (i : Instr) (fs : FrameStore) (ops : Latch) (es : List Entry) (r : Option (U64 × U64)) : Pos :=
  match i, r with
  | .readT, some (lo, hi) => outPos fs.ch es (clip fs.mask ops lo.toInt hi.toInt) 0
  | _, r => .got r

/-- Where a step of ReadBounds leads (R245). -/
def readNextPos (i : Instr) (fs : FrameStore) (ops : Latch) (es : List Entry) (tries : Nat) : ReadNext → Pos
  | .more st => .read es tries st
  | .success lo hi => boundsPos i fs ops es (some (lo, hi))
  | .torn => if tries + 1 < Config.tbTries then .read es (tries + 1) .count else boundsPos i fs ops es none

section Read
variable {i : Instr} {s : State} {ops : Latch} {es : List Entry} {tries : Nat} {st : ReadStage}

theorem exec_read (reader : i = .gettbT ∨ i = .readT) (was : s.cur.act = .busy ops (.read es tries st)) :
    exec i s = .next (s.goto ops (readNextPos i s.t.fs ops es tries (readBoundsStep s.t st))) := by
  rcases reader with rfl | rfl
  · simp only [exec, execGettbT, was, readBounds]
    cases readBoundsStep s.t st with
    | more st' => rfl
    | success lo hi => rfl
    | torn => simp only [readNextPos]; split <;> rfl
  · simp only [exec, execReadT, was, readBounds]
    cases readBoundsStep s.t st with
    | more st' => rfl
    | success lo hi => rfl
    | torn => simp only [readNextPos]; split <;> rfl

/-- A step of ReadBounds moves the port alone. -/
theorem read_step (reader : i = .gettbT ∨ i = .readT) (was : s.cur.act = .busy ops (.read es tries st)) :
    ∃ t, exec i s = .next t ∧ Moved s t ops (readNextPos i s.t.fs ops es tries (readBoundsStep s.t st)) :=
  ⟨_, exec_read reader was, .goto s ops _⟩

/-- With no publication between, the first attempt reads the current pair (R245). -/
theorem read_run (reader : i = .gettbT ∨ i = .readT) (was : s.cur.act = .busy ops (.read es 0 .count))
    (counter : (s.t.slot s.t.tbcnt).upd = s.t.tbcnt) :
    ∃ t, execTimes 4 i s = .next t ∧ Moved s t ops
      (boundsPos i s.t.fs ops es (some ((s.t.slot s.t.tbcnt).start, (s.t.slot s.t.tbcnt).stop))) := by
  obtain ⟨t1, run1, moved1⟩ := read_step reader was
  have at1 := moved1.stands.act
  obtain ⟨t2, run2, moved2⟩ := read_step reader at1
  rw [moved1.units.t] at moved2
  have moved2 := moved1.trans moved2
  obtain ⟨t3, run3, moved3⟩ := read_step reader moved2.stands.act
  rw [moved2.units.t] at moved3
  have moved3 := moved2.trans moved3
  obtain ⟨t4, run4, moved4⟩ := read_step reader moved3.stands.act
  rw [moved3.units.t, readBoundsStep, if_pos counter] at moved4
  exact ⟨t4, by simp only [execTimes, run1, run2, run3, run4], moved3.trans moved4⟩

end Read

/-- Settles O49: `exec_read`, stage by stage. -/
theorem readBoundsSteps : Obligations.ReadBoundsSteps := by
  intro i s ops es tries st reader was
  obtain ⟨t, run, moved⟩ := read_step reader was
  refine ⟨t, _, run, moved.stands, moved.units, ?_, ?_, ?_, ?_, ?_, ?_, ?_⟩
  · rintro rfl; rfl
  · rintro c rfl; rfl
  · rintro c x rfl; rfl
  · rintro c x y rfl same rfl; rw [readBoundsStep, if_pos same]; rfl
  · rintro c x y rfl same rfl; rw [readBoundsStep, if_pos same]; rfl
  · rintro c x y rfl torn more
    rw [readBoundsStep, if_neg torn]; exact if_pos more
  · rintro c x y rfl torn last
    rw [readBoundsStep, if_neg torn, readNextPos, if_neg (show ¬ tries + 1 < Config.tbTries from Nat.not_lt.2 last)]
    rcases reader with rfl | rfl <;> rfl

/-- The completing block of GETTB.T (R246). -/
theorem exec_gettbT_got {s : State} {ops : Latch} {r : Option (U64 × U64)} (was : s.cur.act = .busy ops (.got r)) :
    exec .gettbT s = .next (finishGettb r s) := by
  simp only [exec, execGettbT, was]

/-- Settles O48: the check, the four steps of one attempt, and the completing block. -/
theorem getTimeBounds : Obligations.GetTimeBounds := by
  intro s ops
  refine ⟨fun lo hi was => ?_, fun was => ?_, fun was used counter => ?_⟩
  · exact ⟨_, exec_gettbT_got was, completeWith_done s 1 .ok lo hi 0 0⟩
  · exact ⟨_, exec_gettbT_got was, completeWith_done s 0 .retry 0 0 0 0⟩
  · have check : exec .gettbT s = .next (s.goto ops (.read [] 0 .count)) := by
      simp only [exec, execGettbT, was, if_neg used]
    have begun := Moved.goto s ops (.read [] 0 .count)
    obtain ⟨t, read, moved⟩ := read_run (.inl rfl) begun.stands.act (by rwa [begun.units.t])
    rw [begun.units.t] at moved
    have moved := begun.trans moved
    obtain ⟨completed, units⟩ :=
      completeWith_done t 1 .ok (s.t.slot s.t.tbcnt).start (s.t.slot s.t.tbcnt).stop 0 0
    refine ⟨_, ?_, moved.units.trans units, moved.stands.completed completed⟩
    rw [execTimes_first check]
    exact execTimes_last read (exec_gettbT_got moved.stands.act)

/-! ### Publish (R243) -/

theorem slotIndex_eq_iff {c c' : U32} : slotIndex c = slotIndex c' ↔ c'.toNat % 8 = c.toNat % 8 := by
  simp only [slotIndex, Fin.mk.injEq, eq_comm]

/-- A change of the slot a counter value selects, seen through every counter value (R35). -/
theorem slot_setSlot_map (u : UnitT) (c c' : U32) (f : Slot → Slot) :
    (u.setSlot c (f (u.slot c))).slot c' = if c'.toNat % 8 = c.toNat % 8 then f (u.slot c') else u.slot c' := by
  rw [slot_setSlot]
  simp only [slotIndex_eq_iff]
  split
  next same =>
    have selected : slotIndex c = slotIndex c' := slotIndex_eq_iff.2 same
    simp only [UnitT.slot, selected]
  next => rfl

/-- A data command of unit T that leaves the unit `u` and goes on. -/
theorem standsAt_unitT {s t : State} {ops : Latch} {u : UnitT} {pos : Pos}
    (h : t = State.goto { s with t := u } ops pos) : StandsAt s t ops pos ∧ OnlyUnitT s t ∧ t.t = u := by
  subst h
  exact ⟨(elsewhere_with_t s u).standsAt_goto rfl pos,
    onlyUnitT_of_fields (goto_plat ..) (goto_b ..) (goto_f ..) (goto_cm ..), goto_t ..⟩

/-- Where WRITE.T goes after a step of a Publish that leaves the stage `next` (R250). -/
def pubNextPos (fs : FrameStore) (ops : Latch) (es : List Entry) (cs ce : Int) (last : Bool) : Option PubStage → Pos
  | some st => .pub es cs ce last st
  | none => afterPublish fs ops es cs ce last

/-- A step of a Publish of WRITE.T. -/
theorem pub_step {s : State} {ops : Latch} {es : List Entry} {cs ce : Int} {last : Bool} {st : PubStage}
    (was : s.cur.act = .busy ops (.pub es cs ce last st)) :
    ∃ t, exec .writeT s = .next t
      ∧ StandsAt s t ops (pubNextPos s.t.fs ops es cs ce last
          (publishStep s.t (publishPair ops cs ce last).1 (publishPair ops cs ce last).2 st).2)
      ∧ OnlyUnitT s t
      ∧ t.t = (publishStep s.t (publishPair ops cs ce last).1 (publishPair ops cs ce last).2 st).1 := by
  simp only [exec, execWriteT, was]
  refine ⟨_, rfl, standsAt_unitT ?_⟩
  cases st <;> rfl

/-- Settles O50: `pub_step`, stage by stage, with the slots as `slot_setSlot_map` says. -/
theorem publishSteps : Obligations.PublishSteps := by
  rintro s ops es _ ce last st cs _ was rfl rfl
  have pair : publishPair ops cs ce last = (cs, if last = true then ops.aux.toInt + ops.count.toNat else ce) := by
    cases last <;> rfl
  obtain ⟨t, run, stands, only, unit⟩ := pub_step was
  rw [pair] at stands unit
  refine ⟨t, _, run, stands, only, by rw [unit]; exact publishStep_fs .., ?_, ?_, ?_, ?_⟩
  · rintro rfl
    refine ⟨rfl, by rw [unit]; rfl, fun c => ?_⟩
    rw [unit]
    exact slot_setSlot_map s.t _ c fun x => { x with upd := s.t.tbcnt + 1 }
  · rintro nxt rfl
    refine ⟨rfl, by rw [unit]; rfl, fun c => ?_⟩
    rw [unit]
    exact slot_setSlot_map s.t _ c fun x => { x with start := BitVec.ofInt 64 cs }
  · rintro nxt rfl
    refine ⟨rfl, by rw [unit]; rfl, fun c => ?_⟩
    rw [unit]
    exact slot_setSlot_map s.t _ c fun x =>
      { x with stop := BitVec.ofInt 64 (if last = true then ops.aux.toInt + ops.count.toNat else ce) }
  · rintro nxt rfl
    exact ⟨rfl, by rw [unit]; rfl, fun c => by rw [unit]; rfl⟩

/-! ### The three cases of WRITE.T (R250 to R254) -/

/-- The bounds step of WRITE.T moves the port alone. -/
theorem bounds_step {s : State} {ops : Latch} {es : List Entry} (was : s.cur.act = .busy ops (.bounds es)) :
    ∃ t, exec .writeT s = .next t ∧ Moved s t ops (adjustBounds s.t.fs ops es s.t.bounds.1 s.t.bounds.2) := by
  simp only [exec, execWriteT, was]
  exact ⟨_, rfl, .goto s ops _⟩

section Cases
variable {fs : FrameStore} {ops : Latch} {es : List Entry} {cs ce : Int}

/-- A write that begins before the current end. -/
theorem adjustBounds_rewind (before : ops.time < ce) :
    adjustBounds fs ops es cs ce = .pub es ops.time ops.time false .upd := if_pos before

/-- A write after the current end whose range fits. -/
theorem adjustBounds_fits (after : ce ≤ ops.time) (fits : ops.endTime - cs ≤ fs.cap.toNat) :
    adjustBounds fs ops es cs ce = gapPos fs ops es cs ce 0 0 := by
  rw [adjustBounds, if_neg (not_lt.2 after), if_pos fits]

/-- A write after the current end whose range does not fit. -/
theorem adjustBounds_overrun (after : ce ≤ ops.time) (larger : fs.cap.toNat < ops.endTime - cs) :
    adjustBounds fs ops es cs ce =
      .pub es (ops.endTime - fs.cap.toNat) (max (ops.endTime - fs.cap.toNat) ce) false .upd := by
  rw [adjustBounds, if_neg (not_lt.2 after), if_neg (not_le.2 larger)]

end Cases

/-- Settles O51: the three cases of `adjustBounds`. -/
theorem writerCases : Obligations.WriterCases := by
  rintro s ops es _ _ _ _ was rfl rfl rfl rfl
  obtain ⟨t, run, moved⟩ := bounds_step was
  exact ⟨t, _, run, moved.stands, moved.units, adjustBounds_rewind, adjustBounds_fits, adjustBounds_overrun⟩

end Sys2Proof.Machine
end

section
/-! PROOFS for the statements of 43_timestamped_ring.md about the data steps of WRITE.T and READ.T (R250, R255, R256, R260,
R262, R263). -/

namespace Sys2Proof.Machine

/-! ### Where the byte loops of WRITE.T lead (R255, R256) -/

/-- After a byte comes the next byte of its channel. -/
theorem nextByte_more {n j : Nat} (c : Nat) (more : j + 1 < n) : nextByte n c j = (c, j + 1) := if_pos more

/-- After a channel's last byte comes the first of the next channel. -/
theorem nextByte_last {n j : Nat} (c : Nat) (last : j + 1 = n) : nextByte n c j = (c + 1, 0) := if_neg last.not_lt

section Loops
variable {fs : FrameStore} {ops : Latch} {es : List Entry} {cs ce : Int} {ch : U32} {n c j : Nat}

/-- WRITE.T with a byte of a channel to copy stands at it. -/
theorem fillPos_of_lt (hj : j < n) (hc : c < ch.toNat) : fillPos ch n es cs ce c j = .fill es cs c j := by
  rw [fillPos, if_neg (Nat.ne_zero_of_lt hj), if_pos hc]

/-- WRITE.T past the last channel of its copy publishes. -/
theorem fillPos_of_le (hc : ch.toNat ≤ c) : fillPos ch n es cs ce c j = .pub es cs ce true .upd := by
  rw [fillPos, if_neg (Nat.not_lt.2 hc), ite_self]

/-- WRITE.T before its copy stands at the first byte, or publishes when there is none. -/
theorem fillPos_first (hc : 0 < ch.toNat) :
    fillPos ch n es cs ce 0 0 = if n = 0 then .pub es cs ce true .upd else .fill es cs 0 0 := by
  rw [fillPos, if_pos hc]

/-- WRITE.T with a byte of the gap to zero stands at it. -/
theorem gapPos_of_lt (hj : j < fs.bytes (gapFrames ops ce)) (hc : c < fs.ch.toNat) :
    gapPos fs ops es cs ce c j = .gap es cs ce c j := by
  rw [gapPos, if_neg (Nat.ne_zero_of_lt hj), if_pos hc]

/-- WRITE.T past the last channel of the gap begins its copy. -/
theorem gapPos_of_le (hc : fs.ch.toNat ≤ c) :
    gapPos fs ops es cs ce c j = fillPos fs.ch (fs.bytes ops.frames) es cs ce 0 0 := by
  rw [gapPos, if_neg (Nat.not_lt.2 hc), ite_self]

/-- After a byte of the copy comes the next byte of its channel. -/
theorem fillPos_next_byte (more : j + 1 < n) (hc : c < ch.toNat) :
    fillPos ch n es cs ce (nextByte n c j).1 (nextByte n c j).2 = .fill es cs c (j + 1) := by
  rw [nextByte_more c more]; exact fillPos_of_lt more hc

/-- After a channel's last byte of the copy comes the first of the next channel. -/
theorem fillPos_next_channel (last : j + 1 = n) (hc : c + 1 < ch.toNat) :
    fillPos ch n es cs ce (nextByte n c j).1 (nextByte n c j).2 = .fill es cs (c + 1) 0 := by
  rw [nextByte_last c last]; exact fillPos_of_lt (last ▸ Nat.succ_pos j) hc

/-- After the last byte of the copy comes the last Publish. -/
theorem fillPos_next_publish (last : j + 1 = n) (hc : c + 1 = ch.toNat) :
    fillPos ch n es cs ce (nextByte n c j).1 (nextByte n c j).2 = .pub es cs ce true .upd := by
  rw [nextByte_last c last]; exact fillPos_of_le hc.ge

/-- After a byte of the gap comes the next byte of its channel. -/
theorem gapPos_next_byte (size : n = fs.bytes (gapFrames ops ce)) (more : j + 1 < n) (hc : c < fs.ch.toNat) :
    gapPos fs ops es cs ce (nextByte n c j).1 (nextByte n c j).2 = .gap es cs ce c (j + 1) := by
  rw [nextByte_more c more]; exact gapPos_of_lt (size ▸ more) hc

/-- After a channel's last byte of the gap comes the first of the next channel. -/
theorem gapPos_next_channel (size : n = fs.bytes (gapFrames ops ce)) (last : j + 1 = n) (hc : c + 1 < fs.ch.toNat) :
    gapPos fs ops es cs ce (nextByte n c j).1 (nextByte n c j).2 = .gap es cs ce (c + 1) 0 := by
  rw [nextByte_last c last]; exact gapPos_of_lt (size ▸ last ▸ Nat.succ_pos j) hc

/-- After the last byte of the gap comes the copy. -/
theorem gapPos_next_fill (last : j + 1 = n) (hc : c + 1 = fs.ch.toNat) :
    gapPos fs ops es cs ce (nextByte n c j).1 (nextByte n c j).2 =
      if fs.bytes ops.frames = 0 then .pub es cs ce true .upd else .fill es cs 0 0 := by
  rw [nextByte_last c last, gapPos_of_le hc.ge]; exact fillPos_first (hc ▸ Nat.succ_pos c)

end Loops

/-! ### The data steps of WRITE.T -/

section WriteT
variable {s : State} {ops : Latch} {es : List Entry} {cs ce : Int} {c j : Nat}

/-- WRITE.T zeroes a byte of the gap. -/
theorem gap_step (was : s.cur.act = .busy ops (.gap es cs ce c j)) :
    ∃ t, exec .writeT s = .next t
      ∧ StandsAt s t ops (gapPos s.t.fs ops es cs ce (nextByte (s.t.fs.bytes (gapFrames ops ce)) c j).1
          (nextByte (s.t.fs.bytes (gapFrames ops ce)) c j).2)
      ∧ OnlyUnitT s t
      ∧ t.t = { s.t with fs := s.t.fs.setByte (s.t.fs.offset c (timePos s.t.fs.mask ce) j) 0 } := by
  simp only [exec, execWriteT, was]
  exact ⟨_, rfl, standsAt_unitT rfl⟩

/-- WRITE.T copies a byte into the storage. -/
theorem fill_step (was : s.cur.act = .busy ops (.fill es cs c j)) (room : s.reachable (bufferAddr es c j) 1) :
    ∃ t, exec .writeT s = .next t
      ∧ StandsAt s t ops (fillPos s.t.fs.ch (s.t.fs.bytes ops.frames) es cs ops.time
          (nextByte (s.t.fs.bytes ops.frames) c j).1 (nextByte (s.t.fs.bytes ops.frames) c j).2)
      ∧ OnlyUnitT s t
      ∧ t.t = { s.t with fs := s.t.fs.setByte (s.t.fs.offset c (timePos s.t.fs.mask ops.time) j)
                                 (s.clientByte (bufferAddr es c j)) } := by
  simp only [exec, execWriteT, was]
  exact ⟨_, guarded_reachable _ room, standsAt_unitT rfl⟩

/-- The last step of WRITE.T and of READ.T (R250, R260). -/
theorem fin_step {i : Instr} (writes_or_reads : i = .writeT ∨ i = .readT) (was : s.cur.act = .busy ops .fin) :
    ∃ t, exec i s = .next t ∧ Completed s t s.cur.cmd 1 0 0 0 0 0 ∧ SameUnits s t := by
  have run : exec i s = .next (s.complete 1 .ok) := by
    rcases writes_or_reads with rfl | rfl
    · simp only [exec, execWriteT, was]
    · simp only [exec, execReadT, was]
  exact ⟨_, run, completeWith_done s 1 .ok 0 0 0 0⟩

end WriteT

/-- Settles O52: a step of the gap, a step of the copy, and the completion. -/
theorem writeTMoves : Obligations.WriteTMoves := by
  intro s ops es cs ce c j
  refine ⟨fun was wf => ?_, fun was room wf => ?_, fin_step (.inl rfl)⟩
  · obtain ⟨t, run, stands, only, unit⟩ := gap_step was
    refine ⟨t, _, run, stands, only, by rw [unit], by rw [unit]; exact frameWrite_setByte _ _ wf,
      fun more hc => gapPos_next_byte rfl more hc, fun last hc => gapPos_next_channel rfl last hc,
      fun last hc => gapPos_next_fill last hc⟩
  · obtain ⟨t, run, stands, only, unit⟩ := fill_step was room
    refine ⟨t, _, run, stands, only, by rw [unit], by rw [unit]; exact frameWrite_setByte _ _ wf,
      fun more hc => fillPos_next_byte more hc, fun last hc => fillPos_next_channel last hc,
      fun last hc => fillPos_next_publish last hc⟩

/-! ### The data steps of READ.T -/

section ReadT
variable {s : State} {ops : Latch} {es : List Entry} {w : Clip} {c j : Nat}

/-- READ.T writes a byte of a channel's output. -/
theorem out_step (was : s.cur.act = .busy ops (.out es w c j)) (left : j < s.t.fs.bytes ops.frames)
    (room : s.reachable (bufferAddr es c j) 1) (wf : Memory.wf s.cm = true) :
    ∃ t, exec .readT s = .next t ∧ StandsAt s t ops (.out es w c (j + 1))
      ∧ ClientWrite s t (bufferAddr es c j) 1 fun _ => outByte s.t.fs w c j := by
  simp only [exec, execReadT, was, if_pos left]
  exact ⟨_, guarded_reachable _ room, (elsewhere_setClientByte s _ _).standsAt_goto (setClientByte_cur ..) _,
    (clientWrite_setClientByte _ _ wf).goto _⟩

/-- READ.T reports a channel whose output has been written. -/
theorem reportT_step (was : s.cur.act = .busy ops (.out es w c j)) (moved : j = s.t.fs.bytes ops.frames)
    (room : s.reachable (entryAddr ops c + 16) 8) (canonical : Memory.canonical s.cm = true) :
    ∃ t, exec .readT s = .next t ∧ StandsAt s t ops (outPos s.t.fs.ch es w (c + 1))
      ∧ ClientWrite s t (entryAddr ops c + 16) 8 (leByte (s.t.fs.bytes w.ov)) := by
  simp only [exec, execReadT, was, if_neg (Nat.not_lt.2 moved.ge)]
  exact ⟨_, guarded_reachable _ room, (elsewhere_memWrite s _ _ _).standsAt_goto (memWrite_cur ..) _,
    (clientWrite_memWrite _ _ (by decide) canonical).goto _⟩

/-- READ.T rejects when its bounds read has failed (R260). -/
theorem exec_readT_failed (was : s.cur.act = .busy ops (.got none)) : exec .readT s = .next (s.reject .retry) := by
  simp only [exec, execReadT, was]

end ReadT

/-- Settles O53: a step of the output, a report, and the two completions. -/
theorem readTMoves : Obligations.ReadTMoves := by
  intro s ops es w c j
  refine ⟨fun was left room wf => out_step was left room wf,
    fun was moved room canonical => reportT_step was moved room canonical, fin_step (.inr rfl), fun was => ?_⟩
  exact ⟨_, exec_readT_failed was, completeWith_done s 0 .retry 0 0 0 0⟩

end Sys2Proof.Machine
end

section
/-! PROOFS for what the runs of WRITE.T and READ.T share: the storage places of sample times (R149), the steps up to the
list's check (R204, R205, R250, R260), and the frames of a span of times written (R255, R256). -/

namespace Sys2Proof.Machine

/-! ### The storage places of sample times (R62, R149) -/

/-- What the places of times rest on: a capacity, its mask, and frames of at least one byte (R27, R28). -/
structure FrameStore.Masked (fs : FrameStore) : Prop where
  cap : isCapacity fs.cap = true
  mask : fs.mask = fs.cap - 1
  bpf : 1 ≤ fs.bpf.toNat

theorem FrameStore.InOrder.masked {store : Nat} {fs : FrameStore} (h : fs.InOrder store) : fs.Masked :=
  ⟨h.cap, h.mask, h.bpf⟩

/-- The bytes of a storage do not matter to it. -/
theorem FrameStore.Masked.of_control {fs fs' : FrameStore} (h : fs.Masked) (control : fs' = { fs with st := fs'.st }) :
    fs'.Masked := by
  rw [control]; exact ⟨h.cap, h.mask, h.bpf⟩

section Times
variable {fs : FrameStore} {c c' b b' : Nat} {x x' lo : Int}

/-- The ring position of a time is the time modulo the capacity (R149). -/
theorem timePos_toNat (masked : fs.Masked) (x : Int) :
    ((timePos fs.mask x).toNat : Int) = x % fs.cap.toNat := by
  rw [timePos, masked.mask, ofInt_and_mask_toNat masked.cap]

/-- A byte of a run of frames from time `x` on is a byte of the frame of a later time. -/
theorem offset_time_add (masked : fs.Masked) (c : Nat) (x : Int) (j b : Nat) :
    fs.offset c (timePos fs.mask x) (j * fs.bpf.toNat + b) = fs.offset c (timePos fs.mask (x + j)) b := by
  have later : (timePos fs.mask (x + j)).toNat = ((timePos fs.mask x).toNat + j) % fs.cap.toNat := by
    apply Int.natCast_inj.1
    rw [timePos_toNat masked, Int.natCast_emod, Int.natCast_add, timePos_toNat masked, Int.emod_add_emod]
  have place : ((timePos fs.mask x).toNat + j) % fs.cap.toNat * fs.bpf.toNat + b
      ≡ ((timePos fs.mask x).toNat + j) * fs.bpf.toNat + b [MOD fs.cap.toNat * fs.bpf.toNat] :=
    ((Nat.mod_modEq _ _).mul_right' _).add_right b
  rw [FrameStore.offset, FrameStore.offset, ringOffset, ringOffset, later, place, Nat.add_mul, Nat.add_assoc]

/-- Byte `i` of a run of frames from time `x` on, by its frame. -/
theorem offset_time_div (masked : fs.Masked) (c : Nat) (x : Int) (i : Nat) :
    fs.offset c (timePos fs.mask x) i
      = fs.offset c (timePos fs.mask (x + (i / fs.bpf.toNat : Nat))) (i % fs.bpf.toNat) := by
  rw [← offset_time_add masked, Nat.div_add_mod']

/-- Times within one capacity of each other share no storage place. -/
theorem offset_time_inj (masked : fs.Masked) (hx : lo ≤ x) (hx' : lo ≤ x') (near : x < lo + fs.cap.toNat)
    (near' : x' < lo + fs.cap.toNat) (hb : b < fs.bpf.toNat) (hb' : b' < fs.bpf.toNat)
    (same : fs.offset c (timePos fs.mask x) b = fs.offset c' (timePos fs.mask x') b') : c = c' ∧ x = x' ∧ b = b' := by
  obtain ⟨j, rfl⟩ := Int.exists_add_of_le hx
  obtain ⟨j', rfl⟩ := Int.exists_add_of_le hx'
  rw [← offset_time_add masked, ← offset_time_add masked] at same
  obtain ⟨channel, place⟩ := FrameStore.offset_inj (place_lt (by omega) hb) (place_lt (by omega) hb') same
  obtain ⟨frame, byte⟩ := run_unique hb hb' place
  exact ⟨channel, by rw [frame], byte⟩

end Times

/-! ### The frames of a span of times -/

/-- The frames of the times from `lo` to before `hi` were written in every channel, byte `b` of the frame of time `x` with
`v c x b`, and nothing else of the storage. -/
structure TimesWritten (fs fs' : FrameStore) (lo hi : Int) (v : Nat → Int → Nat → Byte) : Prop where
  control : fs' = { fs with st := fs'.st }
  wf : Memory.wf fs'.st = true
  written : ∀ c x b, c < fs.ch.toNat → lo ≤ x → x < hi → b < fs.bpf.toNat →
    fs'.byte (fs.offset c (timePos fs.mask x) b) = v c x b
  others : ∀ o, (∀ c (x : Int) b, c < fs.ch.toNat → lo ≤ x → x < hi → b < fs.bpf.toNat →
    o ≠ fs.offset c (timePos fs.mask x) b) → fs'.byte o = fs.byte o

section Written
variable {fs fs' fs'' : FrameStore} {lo mid hi : Int} {v w : Nat → Int → Nat → Byte}

/-- A run over the bytes of all channels from the position of time `lo` on writes the frames of a span. -/
theorem FrameRun.times (masked : fs.Masked) {k : Nat} {d : Nat → Nat → Byte}
    (h : FrameRun fs fs' (fs.ch.toNat * fs.bytes k)
      (fun m => fs.offset (m / fs.bytes k) (timePos fs.mask lo) (m % fs.bytes k))
      fun m => d (m / fs.bytes k) (m % fs.bytes k)) :
    TimesWritten fs fs' lo (lo + k) fun c x b => d c ((x - lo).toNat * fs.bpf.toNat + b) := by
  obtain ⟨written, others⟩ := h.channels (off := fun c i => fs.offset c (timePos fs.mask lo) i)
  refine ⟨h.control, h.wf, fun c x b hc hlo hhi hb => ?_, fun o ho => others o fun c i hc hi => ?_⟩
  · obtain ⟨j, rfl⟩ := Int.exists_add_of_le hlo
    rw [← offset_time_add masked, written c _ hc (place_lt (by omega) hb), add_sub_cancel_left, Int.toNat_natCast]
  · have pos : 0 < fs.bpf.toNat := masked.bpf
    have frame : i / fs.bpf.toNat < k := Nat.div_lt_of_lt_mul (by rwa [Nat.mul_comm])
    rw [offset_time_div masked]
    generalize i / fs.bpf.toNat = j at frame
    exact ho c _ _ hc (by omega) (by omega) (Nat.mod_lt i pos)

/-- Two spans of times, one after the other and together within the capacity. -/
theorem TimesWritten.append (h : TimesWritten fs fs' lo mid v) (k : TimesWritten fs' fs'' mid hi w)
    (masked : fs.Masked) (ordered : lo ≤ mid) (ordered' : mid ≤ hi) (fits : hi - lo ≤ fs.cap.toNat) :
    TimesWritten fs fs'' lo hi fun c x b => if x < mid then v c x b else w c x b := by
  have control := h.control
  obtain ⟨ch, bpf, cap, mask, st⟩ := fs'
  cases control
  refine ⟨k.control, k.wf, fun c x b hc hlo hhi hb => ?_, fun o ho => ?_⟩
  · split
    next before =>
      rw [k.others, h.written c x b hc hlo before hb]
      intro c' x' b' hc' hlo' hhi' hb' same
      obtain ⟨-, time, -⟩ := offset_time_inj masked hlo (ordered.trans hlo') (by omega) (by omega) hb hb' same
      omega
    next after => exact k.written c x b hc (not_lt.1 after) hhi hb
  · rw [k.others o fun c x b hc hlo hhi hb => ho c x b hc (ordered.trans hlo) hhi hb]
    exact h.others o fun c x b hc hlo hhi hb => ho c x b hc hlo (hhi.trans_le ordered') hb

end Written

/-! ### The steps before the bounds are read (R204, R205, R250, R260) -/

/-- A WRITE.T or READ.T before its validating block, with valid arguments and a list and buffers that can be accessed. -/
structure TimeReady (i : Instr) (s : State) (ops : Latch) : Prop where
  was : s.cur.act = .busy ops .start
  used : s.t.fs.cap ≠ 0
  asks : i = .writeT ∨ i = .readT ∧ ops.count ≠ 0
  list : ops.addr ≠ 0
  range : ops.rangeOk s.t.fs.cap = true
  readable : ListReadable s ops s.t.fs.ch.toNat (s.t.fs.bytes ops.frames)

/-- A WRITE.T or READ.T that is ready reaches its bounds step with its list fetched and nothing else changed. -/
theorem TimeReady.fitted {i : Instr} {s : State} {ops : Latch} (ready : TimeReady i s ops) (p k : U32) :
    ∃ m t, execTimes m i s = .next t ∧ Moved s t ops (fittedPos i s p k (s.listEntries ops s.t.fs.ch.toNat)) := by
  have lists : usesList i = true := by rcases ready.asks with rfl | ⟨rfl, -⟩ <;> rfl
  have own : unitOf i = .t := by rcases ready.asks with rfl | ⟨rfl, -⟩ <;> rfl
  have channels : s.unitChannels (unitOf i) = s.t.fs.ch := by rw [own]; rfl
  have valid := exec_validateT ready.was ready.used ready.asks
  rw [if_pos ⟨ready.list, ready.range⟩] at valid
  have begun := Moved.goto s ops (fetchPos s.t.fs.ch (timePos s.t.fs.mask ops.time) ops.count [])
  have start : Fetched i s _ ops (timePos s.t.fs.mask ops.time) ops.count 0 :=
    ⟨by rw [channels]; exact begun.stands, begun.units⟩
  have count := congrArg BitVec.toNat channels
  obtain ⟨t, steps, fetched⟩ := start.run lists (fun c hc j hj => ready.readable.entries c (by omega) j (by
    rw [Config.bleBytes]; omega)) s.t.fs.ch.toNat count.ge
  have stands := fetched.all count.symm
  have fits : listFits (s.listEntries ops s.t.fs.ch.toNat) (listNeed i t ops ops.count) = true := by
    rw [fetched.units.listNeed, listNeed, if_neg (by rw [own]; nofun)]
    exact listFits_listEntries ready.readable
  have check := exec_fits lists stands.act
  have next : fittedPos i t (timePos s.t.fs.mask ops.time) ops.count (s.listEntries ops s.t.fs.ch.toNat)
      = fittedPos i s p k (s.listEntries ops s.t.fs.ch.toNat) := by
    rcases ready.asks with rfl | ⟨rfl, -⟩ <;> rfl
  rw [if_pos fits, next] at check
  have fetched : Moved s t ops _ := ⟨stands, fetched.units⟩
  exact ⟨_, _, execTimes_last (execTimes_first valid ▸ steps) check, fetched.trans (.goto t ops _)⟩

end Sys2Proof.Machine
end

section
/-! PROOFS for O54: the run of WRITE.T with no step of another agent between (R250 to R257, R259). The gap and the copy are
each one run of byte steps over the channels, for which `StoredT` is the invariant; a Publish is four steps. -/

namespace Sys2Proof.Machine

/-! ### A run of steps that store bytes in unit T -/

theorem OnlyUnitT.trans {s t u : State} (h : OnlyUnitT s t) (k : OnlyUnitT t u) : OnlyUnitT s u :=
  ⟨k.b.trans h.b, k.f.trans h.f, k.cm.trans h.cm, fun a => (k.bytes a).trans (h.bytes a)⟩

theorem SameUnits.onlyUnitT {s t : State} (h : SameUnits s t) : OnlyUnitT s t := ⟨h.b, h.f, h.cm, h.bytes⟩

/-- `m` byte steps after state `s`, WRITE.T stands at `pos m` and has stored the bytes `v` at the offsets `off`. -/
structure StoredT (s t : State) (ops : Latch) (pos : Nat → Pos) (off : Nat → Nat) (v : Nat → Byte) (m : Nat) :
    Prop where
  stands : StandsAt s t ops (pos m)
  only : OnlyUnitT s t
  unit : t.t = { s.t with fs := t.t.fs }
  storage : FrameRun s.t.fs t.t.fs m off v

/-- The step of WRITE.T from `t` stores one byte and goes to `pos`. -/
def StoresByte (t : State) (ops : Latch) (pos : Pos) (o : Nat) (x : Byte) : Prop :=
  ∃ u, exec .writeT t = .next u ∧ StandsAt t u ops pos ∧ OnlyUnitT t u ∧ u.t = { t.t with fs := t.t.fs.setByte o x }

section Stored
variable {s t : State} {ops : Latch} {pos : Nat → Pos} {off : Nat → Nat} {v : Nat → Byte} {m : Nat}

theorem StoredT.nil (was : s.cur.act = .busy ops (pos 0)) (wf : Memory.wf s.t.fs.st = true) :
    StoredT s s ops pos off v 0 := ⟨standsAt_self was, ⟨rfl, rfl, rfl, fun _ => rfl⟩, rfl, .nil wf⟩

/-- Byte steps at offsets that are all different. -/
theorem StoredT.run {n : Nat} (was : s.cur.act = .busy ops (pos 0)) (wf : Memory.wf s.t.fs.st = true)
    (fresh : ∀ j m, j < m → m < n → off j ≠ off m)
    (step : ∀ t m, m < n → StoredT s t ops pos off v m → StoresByte t ops (pos (m + 1)) (off m) (v m)) (m : Nat)
    (hm : m ≤ n) : ∃ t, execTimes m .writeT s = .next t ∧ StoredT s t ops pos off v m := by
  induction m with
  | zero => exact ⟨s, rfl, .nil was wf⟩
  | succ m ih =>
    obtain ⟨t, steps, stored⟩ := ih (by omega)
    obtain ⟨u, last, stands, only, unit⟩ := step t m hm stored
    refine ⟨u, execTimes_last steps last, stored.stands.trans stands, stored.only.trans only, ?_, ?_⟩
    · rw [unit, stored.unit]
    · rw [unit]; exact stored.storage.snoc fun j hj => fresh j m hj hm

/-- What was stored last is all that changed of unit T. -/
theorem StoredT.fs (h : StoredT s t ops pos off v m) : t.t.fs = { s.t.fs with st := t.t.fs.st } := h.storage.control

end Stored

/-- Places of a loop over channels no longer than the ring are all different. -/
theorem FrameStore.offset_fresh {fs : FrameStore} {p : U32} {n j m : Nat} (pos : 0 < n)
    (fits : n ≤ fs.cap.toNat * fs.bpf.toNat) (hj : j < m) :
    fs.offset (j / n) p (j % n) ≠ fs.offset (m / n) p (m % n) := fun same => by
  obtain ⟨channel, byte⟩ :=
    FrameStore.offset_inj ((Nat.mod_lt j pos).trans_le fits) ((Nat.mod_lt m pos).trans_le fits) same
  rw [← Nat.div_add_mod j n, channel, byte, Nat.div_add_mod] at hj
  exact Nat.lt_irrefl m hj

/-- A place of the loop over channels is a byte of a channel. -/
theorem place_bounds {ch n m : Nat} (hm : m < ch * n) : 0 < n ∧ m / n < ch ∧ m % n < n := by
  have pos : 0 < n := Nat.pos_of_mul_pos_left (Nat.zero_lt_of_lt hm)
  exact ⟨pos, Nat.div_lt_of_lt_mul (by rwa [Nat.mul_comm]), Nat.mod_lt m pos⟩

/-! ### The gap (R255) and the copy (R256) -/

section Moves
variable {s t : State} {ops : Latch} {pos : Nat → Pos} {off : Nat → Nat} {v : Nat → Byte} {m : Nat}
  {es : List Entry} {cs ce : Int} {c j : Nat}

/-- A byte of the gap zeroed after others were stored. -/
theorem StoredT.gap_step (h : StoredT s t ops pos off v m) (was : t.cur.act = .busy ops (.gap es cs ce c j)) :
    StoresByte t ops (gapPos s.t.fs ops es cs ce (nextByte (s.t.fs.bytes (gapFrames ops ce)) c j).1
      (nextByte (s.t.fs.bytes (gapFrames ops ce)) c j).2) (s.t.fs.offset c (timePos s.t.fs.mask ce) j) 0 := by
  obtain ⟨u, run, stands, only, unit⟩ := Machine.gap_step was
  have mask : t.t.fs.mask = s.t.fs.mask := by rw [h.fs]
  have next (c j : Nat) : gapPos t.t.fs ops es cs ce c j = gapPos s.t.fs ops es cs ce c j := by rw [h.fs]; rfl
  rw [h.storage.bytes, next] at stands
  rw [h.storage.offset, mask] at unit
  exact ⟨u, run, stands, only, unit⟩

/-- A byte copied after others were stored. -/
theorem StoredT.fill_step (h : StoredT s t ops pos off v m) (was : t.cur.act = .busy ops (.fill es cs c j))
    (room : s.reachable (bufferAddr es c j) 1) :
    StoresByte t ops (fillPos s.t.fs.ch (s.t.fs.bytes ops.frames) es cs ops.time
      (nextByte (s.t.fs.bytes ops.frames) c j).1 (nextByte (s.t.fs.bytes ops.frames) c j).2)
      (s.t.fs.offset c (timePos s.t.fs.mask ops.time) j) (s.clientByte (bufferAddr es c j)) := by
  have room := reachable_congr h.stands.elsewhere.plat (by rw [h.only.b]) room
  obtain ⟨u, run, stands, only, unit⟩ := Machine.fill_step was room
  have mask : t.t.fs.mask = s.t.fs.mask := by rw [h.fs]
  have channels : t.t.fs.ch = s.t.fs.ch := by rw [h.fs]
  rw [h.storage.bytes, channels] at stands
  rw [h.storage.offset, mask, h.only.bytes] at unit
  exact ⟨u, run, stands, only, unit⟩

end Moves

/-- The position after the last byte of the gap. -/
theorem gapPos_end {n : Nat} (fs : FrameStore) (ops : Latch) (es : List Entry) (cs ce : Int)
    (size : fs.bytes (gapFrames ops ce) = n) :
    gapPos fs ops es cs ce (fs.ch.toNat * n / n) (fs.ch.toNat * n % n)
      = fillPos fs.ch (fs.bytes ops.frames) es cs ce 0 0 := by
  rcases Nat.eq_zero_or_pos n with none_left | pos
  · rw [gapPos, if_pos (size.trans none_left)]
  · rw [Nat.mul_div_cancel _ pos]; exact gapPos_of_le le_rfl

/-- The position after the last byte of the copy. -/
theorem fillPos_end (ch : U32) (n : Nat) (es : List Entry) (cs ce : Int) :
    fillPos ch n es cs ce (ch.toNat * n / n) (ch.toNat * n % n) = .pub es cs ce true .upd := by
  rcases Nat.eq_zero_or_pos n with rfl | pos
  · rfl
  · rw [Nat.mul_div_cancel _ pos]; exact fillPos_of_le le_rfl

/-- A WRITE.T at `s` has reached `t` at the position `pos` with the frames of a span of times written. -/
structure SpanWritten (s t : State) (ops : Latch) (pos : Pos) (lo hi : Int) (v : Nat → Int → Nat → Byte) : Prop where
  stands : StandsAt s t ops pos
  only : OnlyUnitT s t
  unit : t.t = { s.t with fs := t.t.fs }
  frames : TimesWritten s.t.fs t.t.fs lo hi v

section Spans
variable {s : State} {ops : Latch} {es : List Entry} {cs ce : Int}

/-- All steps of the gap. -/
theorem gap_run (masked : s.t.fs.Masked) (wf : Memory.wf s.t.fs.st = true)
    (was : s.cur.act = .busy ops (gapPos s.t.fs ops es cs ce 0 0))
    (before : ce ≤ ops.time) (fits : ops.time - ce ≤ s.t.fs.cap.toNat) :
    ∃ m t, execTimes m .writeT s = .next t
      ∧ SpanWritten s t ops (fillPos s.t.fs.ch (s.t.fs.bytes ops.frames) es cs ce 0 0) ce ops.time
          fun _ _ _ => 0 := by
  have last : ce + gapFrames ops ce = ops.time := by rw [gapFrames]; omega
  obtain ⟨n, size⟩ : ∃ n, s.t.fs.bytes (gapFrames ops ce) = n := ⟨_, rfl⟩
  have small : n ≤ s.t.fs.cap.toNat * s.t.fs.bpf.toNat := size ▸ Nat.mul_le_mul_right _ (by omega)
  obtain ⟨t, steps, stored⟩ := StoredT.run (s := s) (ops := ops) (n := s.t.fs.ch.toNat * n)
    (pos := fun m => gapPos s.t.fs ops es cs ce (m / n) (m % n))
    (off := fun m => s.t.fs.offset (m / n) (timePos s.t.fs.mask ce) (m % n)) (v := fun _ => 0)
    (by rw [Nat.zero_div, Nat.zero_mod]; exact was) wf
    (fun j m hj hm => FrameStore.offset_fresh (place_bounds hm).1 small hj)
    (fun t m hm stored => by
      obtain ⟨pos, hc, hi⟩ := place_bounds hm
      have was : t.cur.act = .busy ops (.gap es cs ce (m / n) (m % n)) := by
        rw [stored.stands.act, gapPos_of_lt (size.symm ▸ hi) hc]
      have step := stored.gap_step was
      rwa [size, nextByte_place pos] at step) _ le_rfl
  have stands := stored.stands
  simp only [gapPos_end s.t.fs ops es cs ce size] at stands
  have storage := stored.storage
  rw [← size] at storage
  exact ⟨_, t, steps, stands, stored.only, stored.unit, last ▸ storage.times (d := fun _ _ => 0) masked⟩

/-- All steps of the copy. -/
theorem fill_run (masked : s.t.fs.Masked) (wf : Memory.wf s.t.fs.st = true)
    (was : s.cur.act = .busy ops (fillPos s.t.fs.ch (s.t.fs.bytes ops.frames) es cs ce 0 0))
    (fits : ops.frames ≤ s.t.fs.cap.toNat)
    (room : ∀ c j, c < s.t.fs.ch.toNat → j < s.t.fs.bytes ops.frames → s.reachable (bufferAddr es c j) 1) :
    ∃ m t x, execTimes m .writeT s = .next t
      ∧ SpanWritten s t ops (.pub es cs x true .upd) ops.time ops.endTime
          fun c x b => s.clientByte (bufferAddr es c ((x - ops.time).toNat * s.t.fs.bpf.toNat + b)) := by
  obtain ⟨n, size⟩ : ∃ n, s.t.fs.bytes ops.frames = n := ⟨_, rfl⟩
  have small : n ≤ s.t.fs.cap.toNat * s.t.fs.bpf.toNat := size ▸ Nat.mul_le_mul_right _ fits
  obtain ⟨t, steps, stored⟩ := StoredT.run (s := s) (ops := ops) (n := s.t.fs.ch.toNat * n)
    (pos := fun m => fillPos s.t.fs.ch n es cs (if m = 0 then ce else ops.time) (m / n) (m % n))
    (off := fun m => s.t.fs.offset (m / n) (timePos s.t.fs.mask ops.time) (m % n))
    (v := fun m => s.clientByte (bufferAddr es (m / n) (m % n)))
    (by rw [Nat.zero_div, Nat.zero_mod, if_pos rfl, ← size]; exact was) wf
    (fun j m hj hm => FrameStore.offset_fresh (place_bounds hm).1 small hj)
    (fun t m hm stored => by
      obtain ⟨pos, hc, hi⟩ := place_bounds hm
      have was : t.cur.act = .busy ops (.fill es cs (m / n) (m % n)) := by
        rw [stored.stands.act, fillPos_of_lt hi hc]
      have step := stored.fill_step was (room _ _ hc (size.symm ▸ hi))
      rw [if_neg (Nat.succ_ne_zero m)]
      rwa [size, nextByte_place pos] at step) _ le_rfl
  have stands := stored.stands
  simp only [fillPos_end] at stands
  have storage := stored.storage
  rw [← size] at storage
  exact ⟨_, t, _, steps, stands, stored.only, stored.unit,
    storage.times (d := fun c j => s.clientByte (bufferAddr es c j)) masked⟩

/-- All data steps of WRITE.T: zeros from `ce` to before the write's time, and then the frames of the buffers. -/
theorem data_run (masked : s.t.fs.Masked) (wf : Memory.wf s.t.fs.st = true)
    (was : s.cur.act = .busy ops (gapPos s.t.fs ops es cs ce 0 0))
    (before : ce ≤ ops.time) (fits : ops.endTime - ce ≤ s.t.fs.cap.toNat)
    (room : ∀ c j, c < s.t.fs.ch.toNat → j < s.t.fs.bytes ops.frames → s.reachable (bufferAddr es c j) 1) :
    ∃ m t x, execTimes m .writeT s = .next t
      ∧ SpanWritten s t ops (.pub es cs x true .upd) ce ops.endTime fun c x b =>
          if x < ops.time then 0
          else s.clientByte (bufferAddr es c ((x - ops.time).toNat * s.t.fs.bpf.toNat + b)) := by
  have last : ops.endTime = ops.time + ops.frames := rfl
  obtain ⟨m, t, gap, zeroed⟩ := gap_run masked wf was before (by omega)
  have control := zeroed.frames.control
  have ch : t.t.fs.ch = s.t.fs.ch := by rw [control]
  have bpf : t.t.fs.bpf = s.t.fs.bpf := by rw [control]
  have cap : t.t.fs.cap = s.t.fs.cap := by rw [control]
  have bytes : t.t.fs.bytes = s.t.fs.bytes := by rw [control]; rfl
  obtain ⟨m', u, x, fill, copied⟩ := fill_run (s := t) (masked.of_control control) zeroed.frames.wf
    (by rw [ch, bytes]; exact zeroed.stands.act) (by rw [cap]; omega) fun c j hc hj =>
      reachable_congr zeroed.stands.elsewhere.plat (by rw [zeroed.only.b]) (room c j (ch ▸ hc) (bytes ▸ hj))
  have frames := zeroed.frames.append copied.frames masked before (by omega) fits
  simp only [zeroed.only.bytes, bpf] at frames
  exact ⟨_, u, x, execTimes_add gap fill, zeroed.stands.trans copied.stands, zeroed.only.trans copied.only,
    by rw [copied.unit, zeroed.unit], frames⟩

end Spans

/-! ### A Publish in four steps (R243) -/

/-- Unit T after a Publish of the pair `(lo, hi)`. -/
def UnitT.published (u : UnitT) (lo hi : Int) : UnitT :=
  { u.setSlot (u.tbcnt + 1) { start := BitVec.ofInt 64 lo, stop := BitVec.ofInt 64 hi, upd := u.tbcnt + 1 } with
    tbcnt := u.tbcnt + 1 }

theorem setSlot_setSlot (u : UnitT) (c : U32) (x y : Slot) : (u.setSlot c x).setSlot c y = u.setSlot c y := by
  simp only [UnitT.setSlot, Vector.set_set]

/-- The four steps of a Publish make up one publication. -/
theorem publishStep_four (u : UnitT) (lo hi : Int) :
    (publishStep (publishStep (publishStep (publishStep u lo hi .upd).1 lo hi (.start (u.tbcnt + 1))).1 lo hi
      (.stop (u.tbcnt + 1))).1 lo hi (.count (u.tbcnt + 1))).1 = u.published lo hi := by
  simp only [publishStep, slot_setSlot_same, setSlot_setSlot, UnitT.published]

/-- The pair published is the current one. -/
theorem bounds_published (u : UnitT) {lo hi : Int} (nonneg : 0 ≤ lo) (ordered : lo ≤ hi) (max : hi ≤ Config.maxTime) :
    (u.published lo hi).bounds = (lo, hi) := by
  have slot : (u.published lo hi).slot (u.published lo hi).tbcnt =
      { start := BitVec.ofInt 64 lo, stop := BitVec.ofInt 64 hi, upd := u.tbcnt + 1 } := slot_setSlot_same ..
  rw [UnitT.bounds, slot, toInt_ofInt_time nonneg (ordered.trans max), toInt_ofInt_time (nonneg.trans ordered) max]

/-- All steps of a Publish of WRITE.T. -/
theorem pub_run {s : State} {ops : Latch} {es : List Entry} {cs ce lo hi : Int} {last : Bool}
    (was : s.cur.act = .busy ops (.pub es cs ce last .upd)) (pair : publishPair ops cs ce last = (lo, hi)) :
    ∃ t, execTimes 4 .writeT s = .next t ∧ StandsAt s t ops (afterPublish s.t.fs ops es cs ce last) ∧ OnlyUnitT s t
      ∧ t.t = s.t.published lo hi := by
  obtain ⟨t1, run1, stands1, only1, unit1⟩ := pub_step was
  obtain ⟨t2, run2, stands2, only2, unit2⟩ := pub_step (st := .start (s.t.tbcnt + 1)) stands1.act
  obtain ⟨t3, run3, stands3, only3, unit3⟩ := pub_step (st := .stop (s.t.tbcnt + 1)) stands2.act
  obtain ⟨t4, run4, stands4, only4, unit4⟩ := pub_step (st := .count (s.t.tbcnt + 1)) stands3.act
  rw [pair] at unit1 unit2 unit3 unit4
  have storage : t3.t.fs = s.t.fs := by rw [unit3, unit2, unit1]; rfl
  rw [storage] at stands4
  refine ⟨t4, by simp only [execTimes, run1, run2, run3, run4],
    ((stands1.trans stands2).trans stands3).trans stands4, ((only1.trans only2).trans only3).trans only4, ?_⟩
  rw [unit4, unit3, unit2, unit1]
  exact publishStep_four s.t lo hi

/-! ### The adjusted bounds (R251 to R254) -/

/-- A WRITE.T has reached `t` before its gap with the bounds adjusted to `(start, stop)`, after `n` publications. -/
structure Adjusted (s t : State) (ops : Latch) (es : List Entry) (start stop : Int) (n : U32) : Prop where
  stands : StandsAt s t ops (gapPos s.t.fs ops es start stop 0 0)
  only : OnlyUnitT s t
  fs : t.t.fs = s.t.fs
  counter : t.t.tbcnt = s.t.tbcnt + n

section Adjust
variable {s : State} {ops : Latch} {es : List Entry}

/-- The bounds step of a rewind or an overrun and the Publish it leads to. -/
theorem adjust_published {start stop : Int} (was : s.cur.act = .busy ops (.bounds es))
    (next : adjustBounds s.t.fs ops es s.t.bounds.1 s.t.bounds.2 = .pub es start stop false .upd) :
    ∃ m t, execTimes m .writeT s = .next t ∧ Adjusted s t ops es start stop 1 := by
  obtain ⟨t, step, moved⟩ := bounds_step was
  rw [next] at moved
  obtain ⟨u, publish, stands, only, unit⟩ := pub_run moved.stands.act rfl
  rw [moved.units.t] at stands unit
  exact ⟨_, u, by rw [execTimes_first step]; exact publish, moved.stands.trans stands,
    moved.units.onlyUnitT.trans only, by rw [unit]; rfl, by rw [unit]; rfl⟩

/-- From its bounds step WRITE.T reaches its gap in each of the three cases. -/
theorem adjust_run {start stop : Int} (was : s.cur.act = .busy ops (.bounds es))
    (start_eq : start = if ops.time < s.t.bounds.2 then ops.time
      else if ops.endTime - s.t.bounds.1 ≤ s.t.fs.cap.toNat then s.t.bounds.1 else ops.endTime - s.t.fs.cap.toNat)
    (stop_eq : stop = if ops.time < s.t.bounds.2 then ops.time
      else if ops.endTime - s.t.bounds.1 ≤ s.t.fs.cap.toNat then s.t.bounds.2
      else max (ops.endTime - s.t.fs.cap.toNat) s.t.bounds.2) :
    ∃ m t, execTimes m .writeT s = .next t ∧ Adjusted s t ops es start stop
      (if s.t.bounds.2 ≤ ops.time ∧ ops.endTime - s.t.bounds.1 ≤ s.t.fs.cap.toNat then 0 else 1) := by
  by_cases rewind : ops.time < s.t.bounds.2
  · rw [if_pos rewind] at start_eq stop_eq
    rw [if_neg fun fitting => not_le.2 rewind fitting.1, start_eq, stop_eq]
    exact adjust_published was (adjustBounds_rewind rewind)
  · rw [if_neg rewind] at start_eq stop_eq
    have after := not_lt.1 rewind
    by_cases fits : ops.endTime - s.t.bounds.1 ≤ s.t.fs.cap.toNat
    · rw [if_pos fits] at start_eq stop_eq
      rw [if_pos ⟨after, fits⟩, start_eq, stop_eq]
      obtain ⟨t, step, moved⟩ := bounds_step was
      rw [adjustBounds_fits after fits] at moved
      exact ⟨1, t, execTimes_last rfl step, moved.stands, moved.units.onlyUnitT, by rw [moved.units.t],
        by rw [moved.units.t, add_zero]⟩
    · rw [if_neg fits] at start_eq stop_eq
      rw [if_neg fun fitting => fits fitting.2, start_eq, stop_eq]
      exact adjust_published was (adjustBounds_overrun after (not_le.1 fits))

end Adjust

/-- In each of the three cases the adjusted bounds leave room for the requested range (R258). -/
theorem room_adjusted {cap : U32} {ops : Latch} {cs ce start stop : Int} (range : ops.rangeOk cap = true)
    (current : boundsSound cap cs ce)
    (start_eq : start = if ops.time < ce then ops.time
      else if ops.endTime - cs ≤ cap.toNat then cs else ops.endTime - cap.toNat)
    (stop_eq : stop = if ops.time < ce then ops.time
      else if ops.endTime - cs ≤ cap.toNat then ce else max (ops.endTime - cap.toNat) ce) :
    Room cap ops start stop := by
  obtain ⟨size, nonneg, -⟩ := rangeOk_iff.1 range
  obtain ⟨cs0, ordered, width, -⟩ := current
  have last : ops.endTime = ops.time + ops.frames := rfl
  refine ⟨range, ?_, ?_, ?_, ?_⟩ <;> omega

/-- The buffers of a list that can be accessed, by the fetched entries. -/
theorem bufferAddr_listEntries {ops : Latch} (s : State) {ch c : Nat} (hc : c < ch) (j : Nat) :
    bufferAddr (s.listEntries ops ch) c j = (s.listEntry ops c).ptr + BitVec.ofNat 64 j := by
  rw [bufferAddr, entryPtr_listEntries s ops hc]

/-- The outcome of a WRITE.T whose bounds are adjusted to `(start, stop)` with `n` publications. -/
structure WrittenT (s t : State) (ops : Latch) (start stop : Int) (n : U32) : Prop where
  completed : Completed s t s.cur.cmd 1 0 0 0 0 0
  only : OnlyUnitT s t
  bounds : t.t.bounds = (start, ops.endTime)
  counter : t.t.tbcnt = s.t.tbcnt + n + 1
  frames : TimesWritten s.t.fs t.t.fs stop ops.endTime fun c x b =>
    if x < ops.time then 0
    else s.clientByte
      (bufferAddr (s.listEntries ops s.t.fs.ch.toNat) c ((x - ops.time).toNat * s.t.fs.bpf.toNat + b))

section Finish
variable {s t : State} {ops : Latch} {start stop : Int} {n : U32}

/-- From its gap WRITE.T moves its data, publishes and completes (R255 to R257). -/
theorem Adjusted.finish (h : Adjusted s t ops (s.listEntries ops s.t.fs.ch.toNat) start stop n)
    (order : s.t.fs.InOrder s.plat.storeT) (room : Room s.t.fs.cap ops start stop)
    (readable : ListReadable s ops s.t.fs.ch.toNat (s.t.fs.bytes ops.frames)) :
    ∃ m u, execTimes m .writeT t = .next u ∧ WrittenT s u ops start stop n := by
  obtain ⟨stands, only, storage, counter⟩ := h
  have fits : ops.endTime - stop ≤ s.t.fs.cap.toNat := by have := room.fits; have := room.ordered; omega
  have wf := ((Memory.canonical_iff _).1 order.canonical).1
  obtain ⟨m, u, x, data, written⟩ := data_run (s := t) (ce := stop) (by rw [storage]; exact order.masked)
    (by rw [storage]; exact wf) (by rw [storage]; exact stands.act) room.before (by rw [storage]; exact fits)
    fun c j hc hj => by
      rw [storage] at hc hj
      rw [bufferAddr_listEntries s hc]
      exact reachable_one (reachable_congr stands.elsewhere.plat (by rw [only.b]) (readable.buffers c hc)) hj
  have frames := written.frames
  simp only [storage, only.bytes] at frames
  obtain ⟨v, publish, stands', only', unit⟩ := pub_run written.stands.act rfl
  obtain ⟨w, last, completed, units⟩ := fin_step (.inl rfl) stands'.act
  have published : w.t = u.t.published start ops.endTime := units.t.trans unit
  have moved : u.t.tbcnt = t.t.tbcnt := by rw [written.unit]
  obtain ⟨nonneg, ordered, -, max⟩ :=
    boundsSound_end room.range room.nonneg (room.ordered.trans room.before) room.fits
  refine ⟨_, w, execTimes_last (execTimes_add data publish) last,
    ((stands.trans written.stands).trans stands').completed completed,
    ((only.trans written.only).trans only').trans units.onlyUnitT, ?_, ?_, ?_⟩
  · rw [published]; exact bounds_published u.t nonneg ordered max
  · rw [published, ← counter, ← moved]; rfl
  · rw [published]; exact frames

end Finish

/-- Settles O54: the list fetched, the bounds adjusted, and the data moved, published and completed; the three kinds of
storage bytes are those of `TimesWritten`. -/
theorem writeTRun : Obligations.WriteTRun := by
  rintro s ops _ _ _ _ start stop _ _ _ was sound used list rfl rfl rfl rfl rfl rfl rfl current nonneg size endMax
    start_eq stop_eq readable
  have order := FrameStore.inOrder_of_sound sound used
  have range : ops.rangeOk s.t.fs.cap = true := rangeOk_iff.2 ⟨Int.ofNat_le.2 size, nonneg, endMax⟩
  have room := room_adjusted range current start_eq stop_eq
  have ready : TimeReady .writeT s ops := ⟨was, used, .inl rfl, list, range, readable⟩
  obtain ⟨m, t, fetch, fetched⟩ := ready.fitted 0 0
  obtain ⟨m', u, adjust, adjusted⟩ := adjust_run (start := start) (stop := stop) fetched.stands.act
    (by rw [fetched.units.t]; exact start_eq) (by rw [fetched.units.t]; exact stop_eq)
  obtain ⟨stands, only, storage, counter⟩ := adjusted
  rw [fetched.units.t] at stands storage counter
  have adjusted : Adjusted s u ops (s.listEntries ops s.t.fs.ch.toNat) start stop _ :=
    ⟨fetched.stands.trans stands, fetched.units.onlyUnitT.trans only, storage, counter⟩
  obtain ⟨m'', v, finish, out⟩ := adjusted.finish order room readable
  have before : stop ≤ ops.time := room.before
  have time : ops.time = ops.aux.toInt := rfl
  have last : ops.endTime = ops.time + ops.count.toNat := rfl
  refine ⟨_, v, execTimes_add (execTimes_add fetch adjust) finish, out.completed, out.only, out.bounds, ?_,
    out.frames.control, fun c j b hc hj hb => ?_, fun c x b hc lo hi hb => ?_, out.frames.others⟩
  · rw [out.counter, add_assoc, ite_add]; rfl
  · have write := out.frames.written c (ops.time + j) b hc (by omega) (by omega) hb
    rw [if_neg (by omega), add_sub_cancel_left, Int.toNat_natCast, bufferAddr_listEntries s hc] at write
    exact write
  · exact (out.frames.written c x b hc lo (by omega) hb).trans (if_pos hi)

end Sys2Proof.Machine
end

section
/-! PROOFS for O55: the run of READ.T with no step of another agent between (R260 to R263, R265). The bounds read succeeds
in its first attempt; a channel is one byte step for each byte and a report, and `Delivered` is the invariant. -/

namespace Sys2Proof.Machine

/-! ### The output of READ.T by times (R260, R262, R263) -/

section Clip
variable {fs : FrameStore} {ops : Latch} {lo hi : Int}

/-- The frames of the requested range that the bounds hold. -/
theorem clip_ov (mask : U32) (ops : Latch) (lo hi : Int) :
    (clip mask ops lo hi).ov = (min ops.endTime hi - max ops.time lo).toNat := by
  unfold clip
  split
  next apart => exact (Int.toNat_of_nonpos (by omega)).symm
  next => rfl

/-- A byte of the frame of time `x` as READ.T delivers it: the storage's inside the bounds, zero outside (R260). -/
def timeByte (fs : FrameStore) (lo hi : Int) (c : Nat) (x : Int) (b : Nat) : Byte :=
  if lo ≤ x ∧ x < hi then fs.byte (fs.offset c (timePos fs.mask x) b) else 0

/-- A byte of a run of frames lies before frame `k` when its own frame does. -/
theorem frame_byte_lt_iff {n j b k : Nat} (hb : b < n) : j * n + b < k * n ↔ j < k := by
  rw [← (place_div_mod (c := j) hb).1, Nat.div_lt_iff_lt_mul (Nat.zero_lt_of_lt hb), (place_div_mod hb).1]

/-- The frame of the output at `t + j` is silence outside the bounds and the storage's frame of that time inside. -/
theorem outByte_frame (masked : fs.Masked) (c : Nat) {j b : Nat} (hj : j < ops.frames) (hb : b < fs.bpf.toNat) :
    outByte fs (clip fs.mask ops lo hi) c (j * fs.bpf.toNat + b) = timeByte fs lo hi c (ops.time + j) b := by
  have last : ops.endTime = ops.time + ops.frames := rfl
  simp only [outByte, timeByte, FrameStore.bytes, frame_byte_lt_iff hb]
  unfold clip
  split
  next apart => rw [if_neg (by omega)]
  next overlap =>
    dsimp only
    split
    next before => rw [if_neg (by omega)]
    next started =>
      split
      next inside =>
        obtain ⟨d, later⟩ := Nat.exists_eq_add_of_le (Nat.not_lt.1 started)
        have place : j * fs.bpf.toNat + b - (max ops.time lo - ops.time).toNat * fs.bpf.toNat = d * fs.bpf.toNat + b := by
          rw [later, Nat.add_mul]; omega
        have time : max ops.time lo + d = ops.time + j := by omega
        rw [if_pos (by omega), place, offset_time_add masked, time]
      next after => rw [if_neg (by omega)]

end Clip

/-! ### One channel of READ.T (R260) -/

section Channel
variable {t : State} {ops : Latch} {es : List Entry} {w : Clip} {c : Nat}

/-- `n` byte steps after state `t` at channel `c`'s first byte, READ.T has written the first `n` bytes of the channel's
output to its buffer, and nothing else. -/
structure OutputT (t u : State) (ops : Latch) (es : List Entry) (w : Clip) (c n : Nat) : Prop where
  stands : StandsAt t u ops (.out es w c n)
  canonical : Memory.canonical u.cm = true
  write : ClientWrite t u (entryPtr es c) n (outByte t.t.fs w c)

/-- All byte steps of one channel. -/
theorem outputT_run (was : t.cur.act = .busy ops (.out es w c 0)) (canonical : Memory.canonical t.cm = true)
    (room : t.reachable (entryPtr es c) (t.t.fs.bytes ops.frames)) (n : Nat) (hn : n ≤ t.t.fs.bytes ops.frames) :
    ∃ u, execTimes n .readT t = .next u ∧ OutputT t u ops es w c n := by
  induction n with
  | zero => exact ⟨t, rfl, standsAt_self was, canonical, .nil ⟨rfl, rfl, rfl⟩ (fun _ => rfl) _⟩
  | succ n ih =>
    obtain ⟨u, steps, out⟩ := ih (by omega)
    have unit := out.write.only.t
    have room' : u.reachable (bufferAddr es c n) 1 :=
      reachable_one (reachable_congr out.stands.elsewhere.plat (by rw [out.write.only.b]) room) hn
    obtain ⟨v, last, stands, write⟩ :=
      out_step out.stands.act (by rw [unit]; exact hn) room' ((Memory.canonical_iff _).1 out.canonical).1
    rw [unit] at write
    exact ⟨v, execTimes_last steps last, out.stands.trans stands, exec_cm_canonical last out.canonical,
      out.write.snoc write (Nat.lt_trans hn (FrameStore.bytes_lt t.t.fs ops.count))⟩

end Channel

/-! ### All channels of READ.T (R260) -/

/-- READ.T, issued for the list and the unit of state `s`, has delivered the first `c` channels clipped as `w` says. -/
structure DeliveredT (s t : State) (ops : Latch) (w : Clip) (c : Nat) : Prop where
  stands : StandsAt s t ops (outPos s.t.fs.ch (s.listEntries ops s.t.fs.ch.toNat) w c)
  canonical : Memory.canonical t.cm = true
  only : ClientOnly s t
  delivered : Delivered s t ops c (s.t.fs.bytes ops.frames) (s.t.fs.bytes w.ov) (outByte s.t.fs w)

section Channels
variable {s t : State} {ops : Latch} {w : Clip} {c : Nat}

/-- One channel more: its byte steps and its report. -/
theorem DeliveredT.channel (h : DeliveredT s t ops w c) (hc : c < s.t.fs.ch.toNat)
    (fits : s.t.fs.bytes w.ov < 2 ^ 64)
    (readable : ListReadable s ops s.t.fs.ch.toNat (s.t.fs.bytes ops.frames))
    (apart : ListApart s ops s.t.fs.ch.toNat (s.t.fs.bytes ops.frames)) :
    ∃ v, execTimes (s.t.fs.bytes ops.frames + 1) .readT t = .next v ∧ DeliveredT s v ops w (c + 1) := by
  have was := h.stands.act
  rw [outPos, if_pos hc] at was
  have plat := h.stands.elsewhere.plat
  have cap : t.b.cap = s.b.cap := by rw [h.only.b]
  have pointer := entryPtr_listEntries s ops hc
  obtain ⟨u, steps, out⟩ := outputT_run was h.canonical
    (by rw [pointer, h.only.t]; exact reachable_congr plat cap (readable.buffers c hc)) _ le_rfl
  have unit : u.t = s.t := out.write.only.t.trans h.only.t
  have room := reachable_congr (out.stands.elsewhere.plat.trans plat) (by rw [out.write.only.b, cap])
    (reachable_drop (m := 16) (n := 8) (readable.entries c hc) (by decide))
  obtain ⟨v, last, stands, report⟩ := reportT_step out.stands.act (by rw [out.write.only.t]) room out.canonical
  have bytes := out.write
  rw [unit] at stands report
  rw [pointer, h.only.t] at bytes
  rw [h.only.t] at steps
  exact ⟨v, execTimes_last steps last, (h.stands.trans out.stands).trans stands, exec_cm_canonical last out.canonical,
    (h.only.trans bytes.only).trans report.only,
    h.delivered.snoc apart hc (Nat.le_of_lt s.t.fs.ch.isLt) fits bytes report⟩

/-- All channels. -/
theorem DeliveredT.run (h : DeliveredT s t ops w 0) (fits : s.t.fs.bytes w.ov < 2 ^ 64)
    (readable : ListReadable s ops s.t.fs.ch.toNat (s.t.fs.bytes ops.frames))
    (apart : ListApart s ops s.t.fs.ch.toNat (s.t.fs.bytes ops.frames)) (c : Nat) (hc : c ≤ s.t.fs.ch.toNat) :
    ∃ u, execTimes (c * (s.t.fs.bytes ops.frames + 1)) .readT t = .next u ∧ DeliveredT s u ops w c := by
  induction c with
  | zero => exact ⟨t, by rw [Nat.zero_mul]; rfl, h⟩
  | succ c ih =>
    obtain ⟨u, steps, done⟩ := ih (by omega)
    obtain ⟨v, channel, done'⟩ := done.channel hc fits readable apart
    exact ⟨v, by rw [Nat.succ_mul]; exact execTimes_add steps channel, done'⟩

end Channels

/-! ### The run of READ.T -/

/-- What a delivery says it delivers may be written otherwise. -/
theorem Delivered.congr {s t : State} {ops : Latch} {ch n size size' : Nat} {data data' : Nat → Nat → Byte}
    (h : Delivered s t ops ch n size data) (sizes : size' = size) (bytes : ∀ c i, i < n → data' c i = data c i) :
    Delivered s t ops ch n size' data' :=
  ⟨fun c i hc hi => (h.bytes c i hc hi).trans (bytes c i hi).symm, fun c hc => (h.sizes c hc).trans sizes.symm,
    h.others⟩

/-- A step that changes nothing but the port keeps what was delivered. -/
theorem Delivered.sameUnits {s t u : State} {ops : Latch} {ch n size : Nat} {data : Nat → Nat → Byte}
    (h : Delivered s t ops ch n size data) (units : SameUnits t u) : Delivered s u ops ch n size data :=
  ⟨fun c i hc hi => (units.bytes _).trans (h.bytes c i hc hi), fun c hc => (units.memRead _ _).trans (h.sizes c hc),
    fun x hx => (units.bytes x).trans (h.others x hx)⟩

/-- The bytes READ.T reports are no more than those of the frames asked for, so they fit in an entry's field. -/
theorem clip_bytes_lt (fs : FrameStore) (ops : Latch) (lo hi : Int) :
    fs.bytes (clip fs.mask ops lo hi).ov < 2 ^ 64 := by
  have last : ops.endTime = ops.time + ops.frames := rfl
  have frames : (clip fs.mask ops lo hi).ov ≤ ops.frames := by rw [clip_ov]; omega
  exact Nat.lt_of_le_of_lt (Nat.mul_le_mul_right _ frames) (FrameStore.bytes_lt fs ops.count)

/-- Settles O55: the list fetched, the current bounds read, every channel delivered, and the completion. -/
theorem readTRun : Obligations.ReadTRun := by
  rintro s ops _ _ _ _ _ _ was sound used list some_frames canonical rfl rfl rfl rfl rfl rfl current counter nonneg
    size endMax readable apart
  have order := FrameStore.inOrder_of_sound sound used
  have range : ops.rangeOk s.t.fs.cap = true := rangeOk_iff.2 ⟨Int.ofNat_le.2 size, nonneg, endMax⟩
  have ready : TimeReady .readT s ops := ⟨was, used, .inr ⟨rfl, some_frames⟩, list, range, readable⟩
  obtain ⟨m, t, fetch, fetched⟩ := ready.fitted 0 0
  obtain ⟨u, read, got⟩ := read_run (.inr rfl) fetched.stands.act (by rwa [fetched.units.t])
  rw [fetched.units.t] at got
  have got := fetched.trans got
  have start : DeliveredT s u ops (clip s.t.fs.mask ops s.t.bounds.1 s.t.bounds.2) 0 :=
    ⟨got.stands, by rw [got.units.cm]; exact canonical, got.units.clientOnly, .nil got.units.bytes⟩
  obtain ⟨v, deliver, done⟩ := start.run (clip_bytes_lt _ _ _ _) readable apart _ le_rfl
  have stands := done.stands
  rw [outPos, if_neg (Nat.lt_irrefl _)] at stands
  obtain ⟨x, last, completed, units⟩ := fin_step (.inr rfl) stands.act
  refine ⟨_, x, execTimes_last (execTimes_add (execTimes_add fetch read) deliver) last, stands.completed completed,
    done.only.trans units.clientOnly, (done.delivered.sameUnits units).congr ?_ fun c i hi => ?_⟩
  · rw [FrameStore.bytes, clip_ov]
    rfl
  · have frame : 0 < s.t.fs.bpf.toNat := Nat.pos_of_mul_pos_left (Nat.zero_lt_of_lt hi)
    have output := outByte_frame (lo := s.t.bounds.1) (hi := s.t.bounds.2) order.masked c
      ((Nat.div_lt_iff_lt_mul frame).2 hi) (Nat.mod_lt i frame)
    rw [Nat.div_add_mod'] at output
    exact output.symm

end Sys2Proof.Machine
end

section
/-! PROOFS for the statements of 60_exceptions.md: the first block of a data command on a deallocated unit (R291, R333),
and precise, side-effect free rejection (R294). `exec_precise` says once what a step of a command other than the three
ALLOCs (R295) does before and after the tests that can reject it. -/

namespace Sys2Proof.Machine

/-! ### A deallocated unit (R291, R333) -/

/-- The check of the unit's capacity is the first of every data command's first block. -/
theorem exec_unallocated {i : Instr} {s : State} {ops : Latch} (data : isData i = true)
    (was : s.cur.act = .busy ops .start) (free : s.unitCap (unitOf i) = 0) : exec i s = .next (s.reject .unalloc) := by
  cases i with
  | availrB | availwB | advrB | advwB | rvecB | wvecB =>
    simp only [exec, execAvailrB, execAvailwB, execAdvrB, execAdvwB, execRvecB, execWvecB, was,
      if_pos (show s.b.cap = 0 from free)]
  | readB | peekB | writeB =>
    simp only [exec, execReadB, execPeekB, execWriteB, was, sampleB, if_pos (show s.b.cap = 0 from free)]
  | availrF | availwF => simp only [exec, execAvailrF, execAvailwF, was, if_pos (show s.f.fs.cap = 0 from free)]
  | readF | writeF => simp only [exec, execReadF, execWriteF, was, sampleF, if_pos (show s.f.fs.cap = 0 from free)]
  | gettbT | writeT | readT =>
    simp only [exec, execGettbT, execWriteT, execReadT, was, validateWriteT, validateReadT,
      if_pos (show s.t.fs.cap = 0 from free)]
  | allocB | deallocB | resetB | allocF | deallocF | resetF | allocT | deallocT | resetT => cases data

/-- Settles O18: the rejection is a completion with E_UNALLOC. -/
theorem unallocated : Obligations.Unallocated := fun _ s _ data was free =>
  ⟨_, exec_unallocated data was free, completeWith_done s 0 .unalloc 0 0 0 0⟩

/-! ### Before and after the tests that can reject (R294) -/

/-- No test of the issuing port's command is behind it: the port is idle, or at a position that has not passed them. -/
def State.Testing (s : State) : Prop := ∀ ops pos, s.cur.act = .busy ops pos → hasPassed pos = false

/-- What a step does to be precise: while the command is tested it leaves units and memory alone, whether it goes on or
rejects; past the tests it works on, never back to a test; or it succeeds. -/
inductive Precise (s t : State) : Prop
  | tested (before : s.Testing) (units : SameUnits s t) (l : Latch) (pos' : Pos) (act : t.cur.act = .busy l pos')
  | rejected (before : s.Testing) (cmd : U32) (code : Code) (done : Completed s t cmd 0 (codeNumber code) 0 0 0 0)
      (units : SameUnits s t)
  | worked (ops : Latch) (pos : Pos) (was : s.cur.act = .busy ops pos) (passed : hasPassed pos = true) (l : Latch)
      (pos' : Pos) (act : t.cur.act = .busy l pos') (passed' : hasPassed pos' = true)
  | succeeded (act : t.cur.act = .idle) (code : t.cur.code = 0)

section Precise
variable {s t v : State} {ops l : Latch} {pos pos' : Pos}

theorem testing_of_idle (idle : s.cur.act = .idle) : s.Testing := fun _ _ busy => by rw [idle] at busy; cases busy

theorem testing_of_busy (was : s.cur.act = .busy ops pos) (before : hasPassed pos = false) : s.Testing :=
  fun _ _ busy => by rw [was] at busy; cases busy; exact before

theorem act_goto (s : State) (l : Latch) (pos : Pos) : (s.goto l pos).cur.act = .busy l pos := by rw [cur_goto]

theorem Precise.goto (before : s.Testing) : Precise s (s.goto l pos') :=
  .tested before (goto_sameUnits s l pos') l pos' (act_goto s l pos')

theorem Precise.reject (before : s.Testing) (code : Code) : Precise s (s.reject code) :=
  .rejected before _ code (completeWith_completed ..) (completeWith_sameUnits ..)

theorem Precise.work (was : s.cur.act = .busy ops pos) (passed : hasPassed pos = true)
    (passed' : hasPassed pos' = true) : Precise s (v.goto l pos') :=
  .worked ops pos was passed l pos' (act_goto v l pos') passed'

theorem Precise.succeed (ret : U32) (r0 r1 r2 r3 : U64) : Precise s (v.completeWith ret .ok r0 r1 r2 r3) :=
  .succeeded (by rw [cur_completeWith]) (by rw [cur_completeWith]; rfl)

/-- A step that is not enabled leaves the port where it is. -/
theorem Precise.stuck (was : s.cur.act = .busy ops pos) : Precise s s := by
  cases passed : hasPassed pos with
  | false => exact .tested (testing_of_busy was passed) ⟨rfl, rfl, rfl, rfl, fun _ => rfl⟩ ops pos was
  | true => exact .worked ops pos was passed ops pos was passed

theorem Precise.guarded {a : U64} {n : Nat} (was : s.cur.act = .busy ops pos) (go : Precise s v)
    (run : guarded s a n v = .next t) : Precise s t := by
  rcases guarded_next run with rfl | rfl
  · exact go
  · exact .stuck was

/-! ### The shared steps before the last test -/

theorem Precise.issueData {i : Instr} (idle : s.cur.act = .idle) (run : issueData i s = .next t) : Precise s t := by
  unfold Machine.issueData at run
  split at run
  · rename_i code _
    cases run
    obtain ⟨done, units⟩ := rejected_completed s (encode i) code
    exact .rejected (testing_of_idle idle) _ _ done units
  · cases run
    exact .tested (testing_of_idle idle) (elsewhere_sameUnits_goto_accept ..).2 _ .start (act_goto ..)

theorem Precise.sampleB {ap : Bool} {avail p : U32} (before : s.Testing) : Precise s (sampleB ap avail p ops s) := by
  unfold Machine.sampleB
  split
  · exact .reject before _
  · split
    · exact .reject before _
    · exact .goto before

theorem Precise.sampleF {ap : Bool} {avail p : U32} (before : s.Testing) : Precise s (sampleF ap avail p ops s) := by
  unfold Machine.sampleF
  split
  · exact .reject before _
  · split
    · exact .reject before _
    · split
      · exact .reject before _
      · exact .goto before

theorem Precise.validateWriteT (before : s.Testing) : Precise s (validateWriteT ops s) := by
  unfold Machine.validateWriteT
  split
  · exact .reject before _
  · split
    · exact .reject before _
    · split
      · exact .goto before
      · exact .reject before _

theorem Precise.validateReadT (before : s.Testing) : Precise s (validateReadT ops s) := by
  unfold Machine.validateReadT
  split
  · exact .reject before _
  · split
    · exact .succeed ..
    · split
      · exact .reject before _
      · split
        · exact .goto before
        · exact .reject before _

theorem Precise.fetchStep {ch p k : U32} {es : List Entry} {ptr : Option U64}
    (was : s.cur.act = .busy ops (.fetch p k es ptr)) (run : fetchStep ch ops p k es ptr s = .next t) :
    Precise s t := by
  unfold Machine.fetchStep at run
  split at run <;> exact .guarded was (.goto (testing_of_busy was rfl)) run

theorem Precise.readBounds {es : List Entry} {tries : Nat} {st : ReadStage}
    {done : Option (U64 × U64) → State → State} (before : s.Testing) (hd : ∀ r, Precise s (done r s))
    (run : readBounds ops es tries st done s = .next t) : Precise s t := by
  unfold Machine.readBounds at run
  split at run
  · cases run; exact .goto before
  · cases run; exact hd _
  · split at run <;> cases run
    · exact .goto before
    · exact hd _

end Precise

/-! ### The loops past the tests lead to no test -/

theorem hasPassed_gatherPosF (ch p k : U32) (es : List Entry) (c : Nat) :
    hasPassed (gatherPosF ch p k es c) = true := by
  rcases gatherPosF_cases ch p k es c with e | e <;> rw [e] <;> rfl

theorem hasPassed_scatterPosF (ch : U32) (n : Nat) (p k : U32) (es : List Entry) (c i : Nat) :
    hasPassed (scatterPosF ch n p k es c i) = true := by
  rcases scatterPosF_cases ch n p k es c i with e | e <;> rw [e] <;> rfl

theorem hasPassed_fillPos (ch : U32) (n : Nat) (es : List Entry) (cs ce : Int) (c i : Nat) :
    hasPassed (fillPos ch n es cs ce c i) = true := by
  rcases fillPos_cases ch n es cs ce c i with e | e <;> rw [e] <;> rfl

theorem hasPassed_gapPos (fs : FrameStore) (ops : Latch) (es : List Entry) (cs ce : Int) (c i : Nat) :
    hasPassed (gapPos fs ops es cs ce c i) = true := by
  rcases gapPos_cases fs ops es cs ce c i with e | e | e <;> rw [e] <;> rfl

theorem hasPassed_outPos (ch : U32) (es : List Entry) (w : Clip) (c : Nat) :
    hasPassed (outPos ch es w c) = true := by
  rcases outPos_cases ch es w c with e | e <;> rw [e] <;> rfl

theorem hasPassed_afterPublish (fs : FrameStore) (ops : Latch) (es : List Entry) (cs ce : Int) (last : Bool) :
    hasPassed (afterPublish fs ops es cs ce last) = true := by
  cases last with
  | true => rfl
  | false => exact hasPassed_gapPos ..

/-! ### Every step of every command but the ALLOCs -/

section Commands
variable {i : Instr} {s t : State}

theorem Precise.publishStepT {ops : Latch} {es : List Entry} {cs ce : Int} {last : Bool} {st : PubStage}
    (was : s.cur.act = .busy ops (.pub es cs ce last st)) : Precise s (publishStepT ops es cs ce last st s) := by
  refine .work was rfl ?_
  cases st with
  | upd | start | stop => rfl
  | count => exact hasPassed_afterPublish ..

/-- A lifecycle command is rejected by a common check, or releases or empties its unit and succeeds. -/
theorem Precise.cfg (cfg : isData i = false) (notAlloc : isAlloc i = false) (run : exec i s = .next t) :
    Precise s t := by
  obtain ⟨idle, -⟩ := exec_cfg_next cfg run
  rcases exec_cfg_cases cfg run with ⟨code, rfl⟩ | ⟨-, -, rfl⟩
  · obtain ⟨done, units⟩ := rejected_completed s (encode i) code
    exact .rejected (testing_of_idle idle) _ _ done units
  · cases i with
    | deallocB | resetB | deallocF | resetF | deallocT | resetT => exact .succeed ..
    | allocB | allocF | allocT => cases notAlloc
    | _ => cases cfg

theorem Precise.readF {ap : Bool} (run : execReadF ap s = .next t) : Precise s t := by
  unfold execReadF at run
  split at run
  · exact .issueData ‹_› run
  · cases run; exact .sampleF (testing_of_busy ‹_› rfl)
  · exact .fetchStep ‹_› run
  · split at run <;> cases run
    · exact .goto (testing_of_busy ‹_› rfl)
    · exact .reject (testing_of_busy ‹_› rfl) _
  · split at run
    · exact .guarded ‹_› (.work ‹_› rfl rfl) run
    · exact .guarded ‹_› (.work ‹_› rfl (hasPassed_gatherPosF ..)) run
  · cases run; exact .succeed ..
  · cases run

theorem Precise.writeF {ap : Bool} (run : execWriteF ap s = .next t) : Precise s t := by
  unfold execWriteF at run
  split at run
  · exact .issueData ‹_› run
  · cases run; exact .sampleF (testing_of_busy ‹_› rfl)
  · exact .fetchStep ‹_› run
  · split at run <;> cases run
    · exact .goto (testing_of_busy ‹_› rfl)
    · exact .reject (testing_of_busy ‹_› rfl) _
  · exact .guarded ‹_› (.work ‹_› rfl (hasPassed_scatterPosF ..)) run
  · cases run; exact .succeed ..
  · cases run

theorem Precise.gettbT (run : execGettbT s = .next t) : Precise s t := by
  unfold execGettbT at run
  split at run
  · exact .issueData ‹_› run
  · split at run <;> cases run
    · exact .reject (testing_of_busy ‹_› rfl) _
    · exact .goto (testing_of_busy ‹_› rfl)
  · exact .readBounds (testing_of_busy ‹_› rfl) (fun _ => .goto (testing_of_busy ‹_› rfl)) run
  · cases run
    unfold finishGettb
    split
    · exact .succeed ..
    · exact .reject (testing_of_busy ‹_› rfl) _
  · cases run

theorem Precise.writeT (run : execWriteT s = .next t) : Precise s t := by
  unfold execWriteT at run
  split at run
  · exact .issueData ‹_› run
  · cases run; exact .validateWriteT (testing_of_busy ‹_› rfl)
  · exact .fetchStep ‹_› run
  · split at run <;> cases run
    · exact .goto (testing_of_busy ‹_› rfl)
    · exact .reject (testing_of_busy ‹_› rfl) _
  · cases run; exact .goto (testing_of_busy ‹_› rfl)
  · cases run; exact .publishStepT ‹_›
  · cases run; exact .work ‹_› rfl (hasPassed_gapPos ..)
  · exact .guarded ‹_› (.work ‹_› rfl (hasPassed_fillPos ..)) run
  · cases run; exact .succeed ..
  · cases run

theorem Precise.afterReadBounds {ops : Latch} {es : List Entry} (before : s.Testing) (r : Option (U64 × U64)) :
    Precise s (afterReadBounds ops es r s) := by
  unfold Machine.afterReadBounds
  split <;> exact .goto before

theorem Precise.readT (run : execReadT s = .next t) : Precise s t := by
  unfold execReadT at run
  split at run
  · exact .issueData ‹_› run
  · cases run; exact .validateReadT (testing_of_busy ‹_› rfl)
  · exact .fetchStep ‹_› run
  · split at run <;> cases run
    · exact .goto (testing_of_busy ‹_› rfl)
    · exact .reject (testing_of_busy ‹_› rfl) _
  · exact .readBounds (testing_of_busy ‹_› rfl) (.afterReadBounds (testing_of_busy ‹_› rfl)) run
  · cases run; exact .reject (testing_of_busy ‹_› rfl) _
  · split at run
    · exact .guarded ‹_› (.work ‹_› rfl rfl) run
    · exact .guarded ‹_› (.work ‹_› rfl (hasPassed_outPos ..)) run
  · cases run; exact .succeed ..
  · cases run

/-- Every step of every command but the three ALLOCs, whose failure releases the unit (R295), is precise. -/
theorem exec_precise (notAlloc : isAlloc i = false) (run : exec i s = .next t) : Precise s t := by
  cases i with
  | allocB | deallocB | resetB | allocF | deallocF | resetF | allocT | deallocT | resetT =>
    exact .cfg rfl notAlloc run
  | availrB | availwB | advrB | advwB | rvecB | wvecB | availrF | availwF =>
    simp only [exec, execAvailrB, execAvailwB, execAdvrB, execAdvwB, execRvecB, execWvecB, execAvailrF, execAvailwF]
      at run
    split at run
    · exact .issueData ‹_› run
    · split at run <;> cases run
      · exact .reject (testing_of_busy ‹_› rfl) _
      · exact .succeed ..
    · cases run
  | readB ap | peekB ap | writeB ap =>
    simp only [exec, execReadB, execPeekB, execWriteB] at run
    split at run
    · exact .issueData ‹_› run
    · cases run; exact .sampleB (testing_of_busy ‹_› rfl)
    · split at run
      · exact .guarded ‹_› (.work ‹_› rfl rfl) run
      · cases run; exact .succeed ..
    · cases run
  | readF ap => exact .readF run
  | writeF ap => exact .writeF run
  | gettbT => exact .gettbT run
  | writeT => exact .writeT run
  | readT => exact .readT run

end Commands

/-! ### R294 -/

theorem isAlloc_eq_false_of_isData {i : Instr} (data : isData i = true) : isAlloc i = false := by
  cases i with
  | allocB | allocF | allocT => cases data
  | _ => rfl

/-- A completion's registers, read at the issuing port. -/
theorem Completed.cur {s t : State} {cmd ret : U32} {code : BitVec 8} {r0 r1 r2 r3 : U64}
    (h : Completed s t cmd ret code r0 r1 r2 r3) :
    t.cur = { s.cur with
      cmd := cmd, ret := ret, code := code, res0 := r0, res1 := r1, res2 := r2, res3 := r3, act := .idle } := by
  rw [cur_eq t, h.elsewhere.turn, h.port]; rfl

section Rejection
variable {s t : State} {ops : Latch} {pos : Pos}

/-- Before the tests are passed a step that goes on changes nothing but its port. -/
theorem Precise.before (h : Precise s t) (was : s.cur.act = .busy ops pos) (testing : hasPassed pos = false)
    (busy : t.cur.act ≠ .idle) : SameUnits s t := by
  cases h with
  | tested _ units | rejected _ _ _ _ units => exact units
  | worked _ _ was' passed =>
    rw [was] at was'; cases was'
    rw [testing] at passed; cases passed
  | succeeded act => exact absurd act busy

/-- Past the tests a step works on or succeeds. -/
theorem Precise.after (h : Precise s t) (was : s.cur.act = .busy ops pos) (passed : hasPassed pos = true) :
    (∃ l pos', t.cur.act = .busy l pos' ∧ hasPassed pos' = true) ∨ t.cur.act = .idle ∧ t.cur.code = 0 := by
  cases h with
  | tested before | rejected before => rw [before ops pos was] at passed; cases passed
  | worked _ _ _ _ l pos' act passed' => exact .inl ⟨l, pos', act, passed'⟩
  | succeeded act code => exact .inr ⟨act, code⟩

/-- A step that completes with a code other than OK is a rejection, and changes nothing but its port. -/
theorem Precise.rejection_of_code (h : Precise s t) (idle : t.cur.act = .idle) (failed : t.cur.code ≠ 0) :
    SameUnits s t ∧ ∃ cmd code, Completed s t cmd 0 code 0 0 0 0 := by
  cases h with
  | rejected _ cmd code done units => exact ⟨units, cmd, _, done⟩
  | tested _ _ _ _ act | worked _ _ _ _ _ _ act => rw [act] at idle; cases idle
  | succeeded _ code => exact absurd code failed

end Rejection

/-- Settles O15: by `exec_precise`, read before the tests, after them, and at a code other than OK. -/
theorem preciseRejections : Obligations.PreciseRejections := by
  refine ⟨fun i s t ops pos was fits run => ?_, fun i s t notAlloc run idle failed => ?_⟩
  · have precise := exec_precise (isAlloc_eq_false_of_isData (isData_of_posFits fits)) run
    refine ⟨fun testing busy => precise.before was testing busy, fun passed idle => ?_,
      fun passed ops' pos' busy => ?_⟩
    · rcases precise.after was passed with ⟨_, _, act, -⟩ | ⟨-, code⟩
      · rw [act] at idle; cases idle
      · exact code
    · rcases precise.after was passed with ⟨_, _, act, passed'⟩ | ⟨act, -⟩
      · rw [act] at busy; cases busy; exact passed'
      · rw [act] at busy; cases busy
  · obtain ⟨units, cmd, code, done⟩ := (exec_precise notAlloc run).rejection_of_code idle failed
    rw [done.cur]
    exact ⟨units, rfl, rfl, rfl, rfl, rfl⟩

end Sys2Proof.Machine
end

section
/-! PROOFS for the statements of 70_reset_and_hazards.md: the reset input (R330) and a machine with nothing to do
(R331). -/

namespace Sys2Proof.Machine

/-- The turn of an idle port has no step to take (R50, R331). -/
theorem portTurn_idle {q : PortId} {s : State} (idle : (s.port q).act = .idle) : portTurn q s = .next s := by
  simp only [portTurn, idle]

/-- With no port busy the model's search finds none to take the next step. -/
theorem nextBusy_eq_none {s : State} (idle : ∀ q, (s.port q).act = .idle) : nextBusy s = none := by
  cases next : nextBusy s with
  | none => rfl
  | some q =>
    obtain ⟨ops, pos, busy⟩ := nextBusy_busy next
    rw [idle q] at busy; cases busy

/-- With no entry of the schedule left the machine runs on by itself. -/
theorem step_of_no_input {s : State} (h : s.inputs = []) : step s = runOn s := by simp only [step, h]

theorem runOn_idle {s : State} (idle : ∀ q, (s.port q).act = .idle) : runOn s = .next s := by
  simp only [runOn, nextBusy_eq_none idle]

/-- Settles O10: the reset input by `hardReset` and `port_hardReset`, the idle machine by `runOn_idle`, the turn of an
idle port by `portTurn_idle`. -/
theorem resetInput : Obligations.ResetInput := by
  refine ⟨fun s rest entry => ?_, fun s idle none_left => ?_, fun s q rest idle entry => ?_⟩
  · refine ⟨hardReset { s with inputs := rest }, step_of_input entry, rfl, rfl, rfl, fun q => ?_, rfl, rfl, rfl⟩
    rw [port_hardReset, State.reset, port_resetOn]
  · rw [step_of_no_input none_left, runOn_idle idle]
  · rw [step_of_input entry]
    exact portTurn_idle (s := { s with inputs := rest }) idle

end Sys2Proof.Machine
end
